-- ==== Sys2Proof/Word.lean ====
section
/-!
DEFINITION. The plain values of the DisplayGroup 7-segment chain driver: segment patterns (R8, R70), pin levels
(R11, R54), the bit-order enumeration (R24), and the opaque keys of the host (ids, handles, pins; R7), which the
block only compares (log 1).
-/

namespace Sys2Proof

/-- A segment pattern or a command code: 8 bits, bit 7 the most significant (R8, R70, R80). -/
abbrev Byte := BitVec 8

/-- The level of an output pin (R11). -/
inductive Level where
  | low
  | high
deriving DecidableEq, Repr

/-- `not(HIGH) = LOW` and `not(LOW) = HIGH` (R11). -/
def Level.not : Level → Level
  | .low => .high
  | .high => .low

/-- `level(1) = HIGH`, `level(0) = LOW` (R11, R54). -/
def Level.ofBit : Bool → Level
  | true => .high
  | false => .low

/-- The bit a level stands for: `level(b)` the other way round (R11, R54). -/
def Level.toBit : Level → Bool
  | .low => false
  | .high => true

/-- The stored bit-order attribute of encoders and banks (R24, R26). -/
inductive BitOrder where
  | msbFirst
  | lsbFirst
deriving DecidableEq, Repr

/-- A name of a bank id: an opaque key, compared only for equality (R7, R81). Which names stand for a value of the OPEN type
`Id` is the argument `Params.idMax`. DESIGN CHOICE: the names are natural numbers (log 1). -/
abbrev Id := Nat

/-- A name of a handle of the host's watched integers (R7, R51). Which names stand for a value of the OPEN type `Handle` is
the argument `Params.handleMax`. DESIGN CHOICE: the names are natural numbers (log 1). -/
abbrev Handle := Nat

/-- Identities of the platform's physical pins (R7, R22). DESIGN CHOICE: named by natural numbers (log 1). -/
abbrev Pin := Nat

end Sys2Proof
end

