-- ==== Sys2Proof/Config.lean ====
section
/-!
DEFINITION. The implementation parameters of R7: the values the spec fixes as constants, and the OPEN ones as a record
`Params` that State holds and no command writes, so that a claim about every state is a claim about every value of
them. `Config.params` is what State.reset puts there (log 2).
-/

namespace Sys2Proof

namespace Config

/-- `TABLE_SIZE` (R7). -/
abbrev tableSize : Nat := 10

/-- `RADIX` of the digit decomposition (R7, R128). -/
abbrev radix : Nat := 10

/-- `DEFAULT_ENABLED`, the enabled flag of a newly created bank (R7, R120, decision D6). -/
def defaultEnabled : Bool := true

/-- `DEFAULT_BIT_ORDER`, the bit order of a newly created bank and its encoders (R7, R120, decision D7). -/
def defaultBitOrder : BitOrder := .msbFirst

/-- The bit indices of a pattern in the order they go on the wire, bit 7 first (R74, R101: `PATTERN_BITS = 8`,
`BIT_ORDER_HONOURED = false`, so no stored bit order is an argument). -/
def bitIndices : List Nat := [7, 6, 5, 4, 3, 2, 1, 0]

end Config

/-- A digit table: exactly ten patterns, entry `d` for digit `d` (R24, R71). -/
abbrev DigitTable := Vector Byte Config.tableSize

/-- `FAIL_INDEX_BASIS`: what the index returned by UPDATE_ALL counts (R7, R167). -/
inductive FailIndexBasis where
  | traversalPosition
  | registryIndex
deriving DecidableEq, Repr

/-- `SETUP_WRITE_ORDER`: how the two pin writes of a SETUP phase are performed (R7, R72). -/
inductive SetupWriteOrder where
  | simultaneous
  | clockFirst
  | dataFirst
deriving DecidableEq, Repr

/-- The OPEN parameters of R7. `none` stands for "unbounded" where there is no limit. -/
structure Params where
  /-- `Id` (R81, log 1): the OPEN type of bank ids, its values named from 0 to this one; `none` when there is no last. -/
  idMax : Option Id
  /-- `Handle` (R51, log 1): the OPEN type of handles, its values named likewise. -/
  handleMax : Option Handle
  /-- `MAX_POSITIONS` (R154). -/
  maxPositions : Option Nat
  /-- `MAX_BANKS` (R154). -/
  maxBanks : Option Nat
  /-- `FAIL_INDEX_BASIS` (R167). -/
  failIndexBasis : FailIndexBasis
  /-- `SETUP_WRITE_ORDER` (R72). -/
  setupWriteOrder : SetupWriteOrder
  /-- `VALUE_MIN` (R51). -/
  valueMin : Option Int
  /-- `VALUE_MAX` (R51). -/
  valueMax : Option Int
  /-- `DATA_PIN`, used when the construction names no data pin (R220). -/
  dataPin : Pin
  /-- `CLOCK_PIN`. -/
  clockPin : Pin
  /-- `LATCH_PIN`. -/
  latchPin : Pin
  /-- `LATCH_ACTIVE`, used when the construction names no active level (R220). -/
  latchActive : Level
  /-- `DEFAULT_TABLE` (R71). -/
  defaultTable : DigitTable
deriving DecidableEq, Repr

/-- The name stands for a value of a type whose last value is `last`. -/
def isNameOf (last : Option Nat) (a : Nat) : Bool :=
  match last with
  | none => true
  | some m => decide (a ≤ m)

/-- The name stands for a value of the type `Id` (R7). -/
def Params.isId (p : Params) (id : Id) : Bool := isNameOf p.idMax id

/-- The name stands for a value of the type `Handle` (R7). -/
def Params.isHandle (p : Params) (h : Handle) : Bool := isNameOf p.handleMax h

namespace Config

/-- `DEFAULT_TABLE` (R71, decision D14): its ten bytes are not in the source and "a model must not fix it", so it has
no body (log 3). -/
opaque defaultTable : DigitTable

/-- `PRINT_FORMAT` (R171, decision D19): the text the diagnostic listing `[(i, id, N)]` is rendered to is not in the
source, so it has no body (log 4). -/
opaque printFormat : List (Nat × Id × Nat) → String

/-- DESIGN CHOICE (log 2): the parameters of the machine that `State.reset` describes. Claims are about every state,
hence about every `Params`; none may lean on these values. -/
def params : Params where
  idMax := none
  handleMax := none
  maxPositions := none
  maxBanks := none
  failIndexBasis := .traversalPosition
  setupWriteOrder := .simultaneous
  valueMin := none
  valueMax := none
  dataPin := 0
  clockPin := 1
  latchPin := 2
  latchActive := .low
  defaultTable := defaultTable

/-- `CHAIN_BITS` of the chain wired to the machine that `State.reset` describes (R209). DESIGN CHOICE: 24 stages, as in
the chain vectors K1 to K3 (log 5). -/
def chainBits : Nat := 24

/-- The bit every shift stage of that chain holds. DESIGN CHOICE: 0, where R209 says unknown and U16 any value (log 5).
No claim may lean on it. -/
def powerUpStage : Bool := false

/-- The bit every parallel output of that chain shows. DESIGN CHOICE: 0, as for the stages (log 5). -/
def powerUpOutput : Bool := false

/-- The bit the chain samples, in the given stages, from a DATA pin the block has not driven (R36, U15: any value), so it has
no body. No command comes to it: a `CLOCK` phase always follows a `SETUP` (R73; log 5). -/
opaque undrivenData : List Bool → Bool

end Config

end Sys2Proof
end

