-- ==== Sys2Proof/Syntax.lean ====
section
/-!
DEFINITION. Syntax: the command records the interface carries (R80, R81), the nineteen rows of the opcode table (R82),
and the decoded instruction `Instr`, one constructor per row.
-/

namespace Sys2Proof

/-- The nineteen rows of the opcode table (R82). -/
inductive Op where
  | addBank
  | insertBank
  | replaceBank
  | removeBank
  | clearAll
  | setBitOrder
  | enableBank
  | setSource
  | updateAll
  | printAll
  | encUpdate
  | encOff
  | encSetBitOrder
  | encGetBitOrder
  | bankUpdate
  | bankGetBitOrder
  | bankSetBitOrder
  | bankSetEnabled
  | bankSetSource
deriving DecidableEq, Repr

/-- Who performs a command: the host, on the command interface, or the block itself, on one of its own encoders or
banks (R80, R92). -/
inductive Interface where
  | host
  | block
deriving DecidableEq, Repr

/-- The kinds of operand a row may ask for (R81). -/
inductive Kind where
  /-- `id` -/
  | key
  /-- `n`, `index` -/
  | natural
  /-- `ref` -/
  | ref
  /-- `table` -/
  | table
  /-- `order` (host) and `d` (internal): any integer -/
  | integer
  /-- `enabled` -/
  | boolean
  /-- `bo` (internal) -/
  | order
deriving DecidableEq, Repr

/-- An operand as it stands in a command record, before the decoder has looked at it: a typed value, not a bit field
(R80, R81). `other` is a value of no kind any row takes (a fraction where a natural number is asked for, a text; log 16). -/
inductive Operand where
  | key (id : Id)
  | int (z : Int)
  | ref (r : Option Handle)
  | table (t : Option (List Int))
  | bool (b : Bool)
  | order (bo : BitOrder)
  | other
deriving DecidableEq, Repr

/-- A command record `(op, operands)`; `op` is an 8-bit code (R80). -/
structure RawCommand where
  op : Byte
  operands : List Operand
deriving DecidableEq, Repr

/-- A decoded command, one constructor per row of the opcode table (R82). A `table` operand may have any length: one
that is not 10 is accepted by the decoder and faults at execution (R81, R153). -/
inductive Instr where
  /-- R152 -/
  | addBank (id : Id) (n : Nat) (ref : Option Handle) (table : Option (List Byte))
  /-- R155 -/
  | insertBank (id : Id) (n : Nat) (index : Nat) (ref : Option Handle) (table : Option (List Byte))
  /-- R158 -/
  | replaceBank (id : Id) (n : Nat) (ref : Option Handle) (table : Option (List Byte))
  /-- R159 -/
  | removeBank (id : Id)
  /-- R160 -/
  | clearAll
  /-- R161 -/
  | setBitOrder (id : Id) (order : Int)
  /-- R162 -/
  | enableBank (id : Id) (enabled : Bool)
  /-- R163 -/
  | setSource (id : Id) (ref : Option Handle)
  /-- R164 -/
  | updateAll
  /-- R171 -/
  | printAll
  /-- R100 -/
  | encUpdate (d : Int)
  /-- R103 -/
  | encOff
  /-- R104 -/
  | encSetBitOrder (bo : BitOrder)
  /-- R106 -/
  | encGetBitOrder
  /-- R122 -/
  | bankUpdate
  /-- R140 -/
  | bankGetBitOrder
  /-- R141 -/
  | bankSetBitOrder (bo : BitOrder)
  /-- R143 -/
  | bankSetEnabled (enabled : Bool)
  /-- R144 -/
  | bankSetSource (ref : Option Handle)
deriving DecidableEq, Repr

end Sys2Proof
end

