-- ==== Sys2Proof/Decode.lean ====
section
/-!
DEFINITION. The opcode map (R82), the decoder (R81, R90), the encoder written from the same table, the table word the
host numbers (`decodeTableWord`), and the textual syntax (R94).
-/

namespace Sys2Proof

/-- The 8-bit command code of a row (R82). -/
def Op.code : Op → Byte
  | .addBank => 0x01#8
  | .insertBank => 0x02#8
  | .replaceBank => 0x03#8
  | .removeBank => 0x04#8
  | .clearAll => 0x05#8
  | .setBitOrder => 0x06#8
  | .enableBank => 0x07#8
  | .setSource => 0x08#8
  | .updateAll => 0x09#8
  | .printAll => 0x0A#8
  | .encUpdate => 0x80#8
  | .encOff => 0x81#8
  | .encSetBitOrder => 0x82#8
  | .encGetBitOrder => 0x83#8
  | .bankUpdate => 0x90#8
  | .bankGetBitOrder => 0x91#8
  | .bankSetBitOrder => 0x92#8
  | .bankSetEnabled => 0x93#8
  | .bankSetSource => 0x94#8

/-- The column "kind" of R82: who performs the row's operation (R92). -/
def Op.interface : Op → Interface
  | .addBank | .insertBank | .replaceBank | .removeBank | .clearAll => .host
  | .setBitOrder | .enableBank | .setSource | .updateAll | .printAll => .host
  | .encUpdate | .encOff | .encSetBitOrder | .encGetBitOrder => .block
  | .bankUpdate | .bankGetBitOrder | .bankSetBitOrder | .bankSetEnabled | .bankSetSource => .block

/-- The column "operands" of R82. -/
def Op.kinds : Op → List Kind
  | .addBank => [.key, .natural, .ref, .table]
  | .insertBank => [.key, .natural, .natural, .ref, .table]
  | .replaceBank => [.key, .natural, .ref, .table]
  | .removeBank => [.key]
  | .clearAll => []
  | .setBitOrder => [.key, .integer]
  | .enableBank => [.key, .boolean]
  | .setSource => [.key, .ref]
  | .updateAll => []
  | .printAll => []
  | .encUpdate => [.integer]
  | .encOff => []
  | .encSetBitOrder => [.order]
  | .encGetBitOrder => []
  | .bankUpdate => []
  | .bankGetBitOrder => []
  | .bankSetBitOrder => [.order]
  | .bankSetEnabled => [.boolean]
  | .bankSetSource => [.ref]

/-- The rows of the opcode table, in its order (R82). -/
def Op.all : List Op :=
  [.addBank, .insertBank, .replaceBank, .removeBank, .clearAll, .setBitOrder, .enableBank, .setSource, .updateAll,
   .printAll] ++
  [.encUpdate, .encOff, .encSetBitOrder, .encGetBitOrder] ++
  [.bankUpdate, .bankGetBitOrder, .bankSetBitOrder, .bankSetEnabled, .bankSetSource]

/-- The row of a command code; `none` for a code not in the table (R90). -/
def Op.ofCode (c : Byte) : Option Op := Op.all.find? (fun m => m.code == c)

/-! ### The decoder -/

/-- Why the decoder refuses a record (R90). -/
inductive Reject where
  /-- "a command code not in the table" -/
  | unknownCode
  /-- "a command code of an internal operation arriving on the host interface", or a host code where the block performs
  an operation of its own (R92) -/
  | wrongInterface
  /-- operands missing or extra -/
  | operandCount
  /-- an operand of the wrong kind -/
  | operandKind
  /-- "an `n` or `index` that is negative" -/
  | negativeNumber
  /-- "a `table` element outside `0..255`" -/
  | byteRange
deriving DecidableEq, Repr

def asKey : Operand → Except Reject Id
  | .key id => .ok id
  | _ => .error .operandKind

/-- `n` and `index`: "a negative or non-integer value is refused" (R81). -/
def asNatural : Operand → Except Reject Nat
  | .int z => if 0 ≤ z then .ok z.toNat else .error .negativeNumber
  | _ => .error .operandKind

def asRef : Operand → Except Reject (Option Handle)
  | .ref r => .ok r
  | _ => .error .operandKind

/-- Table elements: "an element outside `0..255` is refused" (R81). -/
def asBytes : List Int → Except Reject (List Byte)
  | [] => .ok []
  | z :: zs =>
    if 0 ≤ z ∧ z < 256 then
      match asBytes zs with
      | .ok bs => .ok (BitVec.ofNat 8 z.toNat :: bs)
      | .error e => .error e
    else .error .byteRange

/-- `table`: `NONE`, or a list of bytes of any length (R81). -/
def asTable : Operand → Except Reject (Option (List Byte))
  | .table none => .ok none
  | .table (some zs) => (asBytes zs).map some
  | _ => .error .operandKind

/-- `order` and `d`: "any integer is accepted" (R81). -/
def asInteger : Operand → Except Reject Int
  | .int z => .ok z
  | _ => .error .operandKind

def asBoolean : Operand → Except Reject Bool
  | .bool b => .ok b
  | _ => .error .operandKind

def asOrder : Operand → Except Reject BitOrder
  | .order bo => .ok bo
  | _ => .error .operandKind

/-- A row without operands. -/
def take0 (i : Instr) : List Operand → Except Reject Instr
  | [] => .ok i
  | _ => .error .operandCount

/-- A row with one operand. -/
def take1 {α : Type} (fa : Operand → Except Reject α) (mk : α → Instr) : List Operand → Except Reject Instr
  | [a] => (fa a).map mk
  | _ => .error .operandCount

/-- A row with two operands. -/
def take2 {α β : Type} (fa : Operand → Except Reject α) (fb : Operand → Except Reject β) (mk : α → β → Instr) :
    List Operand → Except Reject Instr
  | [a, b] => do return mk (← fa a) (← fb b)
  | _ => .error .operandCount

/-- The operands `id, n, ref, table` (ADD_BANK, REPLACE_BANK). -/
def takeBank (mk : Id → Nat → Option Handle → Option (List Byte) → Instr) : List Operand → Except Reject Instr
  | [a, b, c, d] => do return mk (← asKey a) (← asNatural b) (← asRef c) (← asTable d)
  | _ => .error .operandCount

/-- The operands `id, n, index, ref, table` (INSERT_BANK). -/
def takeBankAt (mk : Id → Nat → Nat → Option Handle → Option (List Byte) → Instr) :
    List Operand → Except Reject Instr
  | [a, b, c, d, e] => do return mk (← asKey a) (← asNatural b) (← asNatural c) (← asRef d) (← asTable e)
  | _ => .error .operandCount

/-- Decode the operands of a row: as many as the row has, each of its kind (R81, R90). -/
def decodeOperands : Op → List Operand → Except Reject Instr
  | .addBank => takeBank .addBank
  | .insertBank => takeBankAt .insertBank
  | .replaceBank => takeBank .replaceBank
  | .removeBank => take1 asKey .removeBank
  | .clearAll => take0 .clearAll
  | .setBitOrder => take2 asKey asInteger .setBitOrder
  | .enableBank => take2 asKey asBoolean .enableBank
  | .setSource => take2 asKey asRef .setSource
  | .updateAll => take0 .updateAll
  | .printAll => take0 .printAll
  | .encUpdate => take1 asInteger .encUpdate
  | .encOff => take0 .encOff
  | .encSetBitOrder => take1 asOrder .encSetBitOrder
  | .encGetBitOrder => take0 .encGetBitOrder
  | .bankUpdate => take0 .bankUpdate
  | .bankGetBitOrder => take0 .bankGetBitOrder
  | .bankSetBitOrder => take1 asOrder .bankSetBitOrder
  | .bankSetEnabled => take1 asBoolean .bankSetEnabled
  | .bankSetSource => take1 asRef .bankSetSource

/-- The instruction the code and the operands of a record spell (R82, R90). -/
def decodeRow (f : Interface) (c : RawCommand) : Except Reject Instr :=
  match Op.ofCode c.op with
  | none => .error .unknownCode
  | some m => if m.interface = f then decodeOperands m c.operands else .error .wrongInterface

/-- The id an instruction carries. -/
def Instr.key : Instr → Option Id
  | .addBank id _ _ _ => some id
  | .insertBank id _ _ _ _ => some id
  | .replaceBank id _ _ _ => some id
  | .removeBank id => some id
  | .clearAll => none
  | .setBitOrder id _ => some id
  | .enableBank id _ => some id
  | .setSource id _ => some id
  | .updateAll => none
  | .printAll => none
  | .encUpdate _ => none
  | .encOff => none
  | .encSetBitOrder _ => none
  | .encGetBitOrder => none
  | .bankUpdate => none
  | .bankGetBitOrder => none
  | .bankSetBitOrder _ => none
  | .bankSetEnabled _ => none
  | .bankSetSource _ => none

/-- The handle an instruction carries. -/
def Instr.handle : Instr → Option Handle
  | .addBank _ _ ref _ => ref
  | .insertBank _ _ _ ref _ => ref
  | .replaceBank _ _ ref _ => ref
  | .removeBank _ => none
  | .clearAll => none
  | .setBitOrder _ _ => none
  | .enableBank _ _ => none
  | .setSource _ ref => ref
  | .updateAll => none
  | .printAll => none
  | .encUpdate _ => none
  | .encOff => none
  | .encSetBitOrder _ => none
  | .encGetBitOrder => none
  | .bankUpdate => none
  | .bankGetBitOrder => none
  | .bankSetBitOrder _ => none
  | .bankSetEnabled _ => none
  | .bankSetSource ref => ref

/-- The id and the handle an instruction carries are values of the types `Id` and `Handle` (R7, R81). -/
def Instr.typed (p : Params) (i : Instr) : Bool := i.key.all p.isId && i.handle.all p.isHandle

/-- The decoder, for the types `Id` and `Handle` that `p` gives: total on every record; what it refuses it refuses by name,
and an id or a handle that is no value of its type is of the wrong kind (R81, R90; DEDUCED, log 1). -/
def decode (p : Params) (f : Interface) (c : RawCommand) : Except Reject Instr :=
  match decodeRow f c with
  | .error e => .error e
  | .ok i => if i.typed p then .ok i else .error .operandKind

/-! ### The encoder -/

/-- The row an instruction belongs to (R82). -/
def Instr.op : Instr → Op
  | .addBank .. => .addBank
  | .insertBank .. => .insertBank
  | .replaceBank .. => .replaceBank
  | .removeBank .. => .removeBank
  | .clearAll => .clearAll
  | .setBitOrder .. => .setBitOrder
  | .enableBank .. => .enableBank
  | .setSource .. => .setSource
  | .updateAll => .updateAll
  | .printAll => .printAll
  | .encUpdate .. => .encUpdate
  | .encOff => .encOff
  | .encSetBitOrder .. => .encSetBitOrder
  | .encGetBitOrder => .encGetBitOrder
  | .bankUpdate => .bankUpdate
  | .bankGetBitOrder => .bankGetBitOrder
  | .bankSetBitOrder .. => .bankSetBitOrder
  | .bankSetEnabled .. => .bankSetEnabled
  | .bankSetSource .. => .bankSetSource

/-- A natural number as an operand. -/
def natOperand (n : Nat) : Operand := .int (Int.ofNat n)

/-- A table as an operand: each byte at its value `0..255` (R81). -/
def tableOperand (t : Option (List Byte)) : Operand := .table (t.map (List.map fun b => Int.ofNat b.toNat))

/-- The operands of an instruction, in the order of R82. -/
def encodeOperands : Instr → List Operand
  | .addBank id n ref table => [.key id, natOperand n, .ref ref, tableOperand table]
  | .insertBank id n index ref table => [.key id, natOperand n, natOperand index, .ref ref, tableOperand table]
  | .replaceBank id n ref table => [.key id, natOperand n, .ref ref, tableOperand table]
  | .removeBank id => [.key id]
  | .clearAll => []
  | .setBitOrder id order => [.key id, .int order]
  | .enableBank id enabled => [.key id, .bool enabled]
  | .setSource id ref => [.key id, .ref ref]
  | .updateAll => []
  | .printAll => []
  | .encUpdate d => [.int d]
  | .encOff => []
  | .encSetBitOrder bo => [.order bo]
  | .encGetBitOrder => []
  | .bankUpdate => []
  | .bankGetBitOrder => []
  | .bankSetBitOrder bo => [.order bo]
  | .bankSetEnabled enabled => [.bool enabled]
  | .bankSetSource ref => [.ref ref]

/-- The command record of an instruction (R80, R82). -/
def encode (i : Instr) : RawCommand := { op := i.op.code, operands := encodeOperands i }

/-- The interface an instruction is performed on (R82, R92). -/
def Instr.interface (i : Instr) : Interface := i.op.interface

/-! ### The words the opcode table numbers -/

/-- The zero of each operand kind: what an operand without bits in the table stands for (log 6). -/
def Kind.zero : Kind → Operand
  | .key => .key 0
  | .natural => .int 0
  | .ref => .ref none
  | .table => .table none
  | .integer => .int 0
  | .boolean => .bool false
  | .order => .order .lsbFirst

/-- The record of a table word: the code, and the zero of every operand its row has (log 6). -/
def tableCommand (w : Nat) : RawCommand :=
  { op := BitVec.ofNat 8 w
    operands := match Op.ofCode (BitVec.ofNat 8 w) with
      | none => []
      | some m => m.kinds.map Kind.zero }

/-- The instruction the decoder reads from a word of the opcode table, on the interface the code belongs to. The table
gives every row 8 bits, all of them the code. -/
def decodeTableWord (nbits w : Nat) : Option Instr :=
  if nbits = 8 ∧ w < 256 then
    match Op.ofCode (BitVec.ofNat 8 w) with
    | none => none
    | some m => (decode Config.params m.interface (tableCommand w)).toOption
  else none

/-! ### Textual syntax (R94), from tokens on (log 16) -/

/-- A written operand: an id as the host writes it, a numeral, `none`, a handle name, `default`, a byte list, `MSB`,
`LSB`, `true`, `false`. `msb` and `lsb` stand for the two bit orders, however spelled (MSB or MSB_FIRST, log 16). -/
inductive Token where
  | name (id : Id)
  | num (z : Int)
  | none
  | handle (h : Handle)
  | default
  | bytes (zs : List Int)
  | msb
  | lsb
  | yes
  | no
deriving DecidableEq, Repr

/-- The row a written name stands for: the mnemonic, or a method name of the source as its alias (R94, conflict C3). -/
def Op.ofText (t : String) : Option Op :=
  if t = "ADD_BANK" ∨ t = "addBank" then some .addBank
  else if t = "INSERT_BANK" ∨ t = "insertBank" then some .insertBank
  else if t = "REPLACE_BANK" ∨ t = "replaceBank" then some .replaceBank
  else if t = "REMOVE_BANK" ∨ t = "removeBank" ∨ t = "removeGroup" then some .removeBank
  else if t = "CLEAR_ALL" ∨ t = "clearAll" then some .clearAll
  else if t = "SET_BIT_ORDER" ∨ t = "setBitOrder" then some .setBitOrder
  else if t = "ENABLE_BANK" ∨ t = "enableBank" then some .enableBank
  else if t = "SET_SOURCE" then some .setSource
  else if t = "UPDATE_ALL" ∨ t = "updateAll" then some .updateAll
  else if t = "PRINT_ALL" ∨ t = "printAll" then some .printAll
  else if t = "ENC_UPDATE" then some .encUpdate
  else if t = "ENC_OFF" ∨ t = "turnOff" then some .encOff
  else if t = "ENC_SET_BIT_ORDER" then some .encSetBitOrder
  else if t = "ENC_GET_BIT_ORDER" then some .encGetBitOrder
  else if t = "BANK_UPDATE" then some .bankUpdate
  else if t = "BANK_GET_BIT_ORDER" ∨ t = "getBitOrder" then some .bankGetBitOrder
  else if t = "BANK_SET_BIT_ORDER" then some .bankSetBitOrder
  else if t = "BANK_SET_ENABLED" ∨ t = "setEnabled" then some .bankSetEnabled
  else if t = "BANK_SET_SOURCE" then some .bankSetSource
  else none

/-- One written operand as a record operand of the kind its place asks for (R94). DESIGN CHOICE (log 16): R94 gives no
written form for the internal operands `d` and `bo`; `d` is read as `order` is, whose kind it shares (a numeral, or MSB
and LSB as 1 and 0), and `bo` from MSB and LSB. -/
def Kind.ofToken : Kind → Token → Option Operand
  | .key, .name id => some (.key id)
  | .natural, .num z => some (.int z)
  | .ref, .none => some (.ref Option.none)
  | .ref, .handle h => some (.ref (some h))
  | .table, .default => some (.table Option.none)
  | .table, .bytes zs => some (.table (some zs))
  | .integer, .num z => some (.int z)
  | .integer, .msb => some (.int 1)
  | .integer, .lsb => some (.int 0)
  | .boolean, .yes => some (.bool true)
  | .boolean, .no => some (.bool false)
  | .order, .msb => some (.order .msbFirst)
  | .order, .lsb => some (.order .lsbFirst)
  | _, _ => Option.none

/-- The written operands of a row; "a trailing `table` operand may be omitted and then means `default`" (R94). -/
def operandsOfText : List Kind → List Token → Option (List Operand)
  | [], [] => some []
  | [.table], [] => some [.table Option.none]
  | k :: ks, t :: ts =>
    match k.ofToken t, operandsOfText ks ts with
    | some o, some os => some (o :: os)
    | _, _ => Option.none
  | _, _ => Option.none

/-- A written command as its record (R94). -/
def assemble (mnemonic : String) (ts : List Token) : Option RawCommand :=
  match Op.ofText mnemonic with
  | none => Option.none
  | some m => (operandsOfText m.kinds ts).map fun os => { op := m.code, operands := os }

end Sys2Proof
end

