-- ==== Sys2Proof/Machine/State.lean ====
section
/-!
DEFINITION. State: everything the spec gives the machine (R20 to R41), the host's value space it reads (R50), the
downstream chain its pins move (R209), the parameters of R7, and the model's own ports (inbox, target, result,
cursorLog). Plain data throughout. The reasons a step may stop, and the state after reset (R220).
-/

namespace Sys2Proof.Machine

/-! ### Pins, phases, and where the sequencer stands -/

/-- The three output pins by their role (R54). -/
inductive PinName where
  | data
  | clock
  | latch
deriving DecidableEq, Repr

/-- The level last written to each pin; `none` when never driven since construction (R36). -/
structure Pins where
  data : Option Level
  clock : Option Level
  latch : Option Level
deriving DecidableEq, Repr

/-- A phase: one pin event of the output trace (R14, R72). -/
inductive Phase where
  /-- `SETUP(b)`: CLOCK low and DATA set to bit `b`. -/
  | setup (b : Bool)
  /-- `CLOCK`: CLOCK high, the sampling edge. -/
  | clock
  /-- `LATCH(l)`: LATCH at level `l`. -/
  | latch (l : Level)
deriving DecidableEq, Repr

/-- The two halves of a bit cell (R38, R73). -/
inductive CellPhase where
  | setup
  | clock
deriving DecidableEq, Repr

/-- The sequencer cursor, the analogue of a program counter (R38): traversal position `j`, digit position `i`, bit
index `k`, half of the bit cell. -/
inductive Cursor where
  | idle
  | latchOpen
  | cell (j i k : Nat) (ph : CellPhase)
  | latchClose
deriving DecidableEq, Repr

/-! ### Encoders, banks, configuration -/

/-- A segment encoder (R24). -/
structure Encoder where
  table : DigitTable
  bitOrder : BitOrder
deriving DecidableEq, Repr

/-- A display bank; `enc[0]` is the least significant position, `source = none` is "no source" (R26). -/
structure Bank where
  id : Id
  enc : List Encoder
  source : Option Handle
  bitOrder : BitOrder
  enabled : Bool
deriving DecidableEq, Repr

/-- The configuration fixed at construction (R22). -/
structure Cfg where
  dataPin : Pin
  clockPin : Pin
  latchPin : Pin
  latchActive : Level
  defaultTable : DigitTable
deriving DecidableEq, Repr

/-- The arguments of a construction; an absent one takes its default (R220). -/
structure ConstructArgs where
  dataPin : Option Pin
  clockPin : Option Pin
  latchPin : Option Pin
  latchActive : Option Level
deriving DecidableEq, Repr

/-! ### Statuses, faults, results -/

/-- What a bank update returns (R190). -/
inductive Status where
  | ok
  | configurationError
  | missingSourceError
  | overflowError
deriving DecidableEq, Repr

/-- The spec's fault kinds (R193). -/
inductive FaultKind where
  | indexError
  | badTable
  | capacity
  | badDigitIndex
  | negativeValue
  | danglingSource
deriving DecidableEq, Repr

/-- The sticky fault: its kind, and the code of the command during which it was raised (R33). -/
structure FaultRecord where
  kind : FaultKind
  op : Byte
deriving DecidableEq, Repr

/-- What a command hands back to whoever performs it (R12, R39). -/
inductive Result where
  | nothing
  /-- UPDATE_ALL (R167) -/
  | index (n : Nat)
  /-- PRINT_ALL: `[(i, id, N)]` (R171) -/
  | listing (l : List (Nat × Id × Nat))
  /-- ENC_GET_BIT_ORDER, BANK_GET_BIT_ORDER (R106, R140) -/
  | order (bo : BitOrder)
  /-- BANK_UPDATE (R190) -/
  | status (st : Status)
deriving DecidableEq, Repr

/-! ### The environment: host values, host writes, downstream chain -/

/-- The host's value space (R50): its watched integers by handle, strictly rising; a handle not listed designates no
variable that exists (R53, log 18). -/
abbrev Memory := List (Handle × Int)

/-- What the host may do to one of its variables: give it a value, or end its lifetime (R50, R53). -/
inductive HostWrite where
  | set (h : Handle) (v : Int)
  | destroy (h : Handle)
deriving DecidableEq, Repr

/-- What the host does asynchronously before one coming `ReadSource`: writes that land, and, where a write overlaps the
read itself, the value the read draws (R58, R62, R229; log 9, log 15). -/
structure Interference where
  writes : List HostWrite
  torn : Option Int
deriving DecidableEq, Repr

/-- The downstream shift-register chain (R209): the bits of its shift stages, stage 0 nearest the controller, and of its
parallel outputs. -/
structure Chain where
  sh : List Bool
  q : List Bool
deriving DecidableEq, Repr

/-- The encoder or bank an internal operation is performed on: registry index and position. "That target is not an
operand" (R82). -/
structure Target where
  bank : Nat
  position : Nat
deriving DecidableEq, Repr

/-- What reaches the block from outside, one at a time (R80, log 7). -/
inductive Input where
  /-- a command record on the host interface -/
  | command (c : RawCommand)
  /-- an internal operation the block performs on one of its own encoders or banks (R92, log 8) -/
  | internal (t : Target) (c : RawCommand)
  /-- a new construction of the controller (R220) -/
  | construct (a : ConstructArgs)
  /-- the host writes one of its variables between two commands (R50) -/
  | hostWrite (w : HostWrite)
deriving DecidableEq, Repr

/-! ### The state -/

/-- The state of the machine. The first six fields are the record `S` of R20. -/
structure State where
  /-- R22 -/
  cfg : Cfg
  /-- R32 -/
  registry : List Bank
  /-- R36 -/
  pins : Pins
  /-- R33 -/
  fault : Option FaultRecord
  /-- R34 -/
  refused : Bool
  /-- R37 -/
  trace : List Phase
  /-- R38 -/
  cursor : Cursor
  /-- R7: the OPEN parameters, never written (log 2) -/
  params : Params
  /-- R50: the host's watched integers -/
  values : Memory
  /-- R229: the host's asynchronous writes, one entry per coming `ReadSource` (log 9) -/
  interference : List Interference
  /-- R209: the downstream chain (log 5) -/
  chain : Chain
  /-- R80: what the host does next, oldest first (log 7) -/
  inbox : List Input
  /-- R82: the target of an internal operation performed by itself (log 8) -/
  target : Target
  /-- R39: what the last command handed back (log 10) -/
  result : Result
  /-- R38: the small-step trace, the cursor at each phase of `trace` (log 11) -/
  cursorLog : List Cursor
deriving DecidableEq, Repr

/-! ### Reasons to stop -/

/-- Why the machine stops. A fault the spec names (R193) is no stop of the step that raises it: that step answers a next
state with `fault` set (R195, log 13). -/
inductive Fault where
  /-- Raised by the gate for every command after a fault: "the block executes no further command" (R151, R195). Safe:
  the spec gives the block no step here. -/
  | stopped (kind : FaultKind) (op : Byte)
deriving DecidableEq, Repr

/-- Why the machine gives no meaning. -/
inductive Refusal where
  /-- Raised by exec for an instruction without a meaning. Safe: the model stops. -/
  | notModelled (mnemonic : String)
  /-- Raised by the gate for every command after a refusal (R34, R90, R151). Safe: the spec gives the block no step. -/
  | stopped
  /-- Raised by an internal operation performed by itself whose target is no encoder or bank of the registry (R82,
  R92, log 8). Safe: there is nothing the operation could act on. -/
  | noTarget
  /-- Raised by a construction whose three pins are not distinct (R221). Safe: "no state is produced". -/
  | pinClash
deriving DecidableEq, Repr

/-- The outcome of a step of this machine. -/
abbrev Outcome := Host.Outcome State Fault Refusal

/-! ### Reset -/

/-- No pin driven since construction (R220, R222). -/
def Pins.undriven : Pins := { data := none, clock := none, latch := none }

/-- A chain of `n` stages at power-up: each stage and output holds a bit, which R209 and U16
leave open; the bits are those Config names (log 5). -/
def Chain.powerUp (n : Nat) : Chain where
  sh := List.replicate n Config.powerUpStage
  q := List.replicate n Config.powerUpOutput

/-- The configuration of a construction without arguments (R220). -/
def Cfg.default (p : Params) : Cfg where
  dataPin := p.dataPin
  clockPin := p.clockPin
  latchPin := p.latchPin
  latchActive := p.latchActive
  defaultTable := p.defaultTable

/-- The machine right after reset: a construction without arguments (R220), with the environment the log names. -/
def State.reset : State where
  cfg := Cfg.default Config.params
  registry := []
  pins := Pins.undriven
  fault := none
  refused := false
  trace := []
  cursor := .idle
  params := Config.params
  values := []
  interference := []
  chain := Chain.powerUp Config.chainBits
  inbox := []
  target := { bank := 0, position := 0 }
  result := .nothing
  cursorLog := []

end Sys2Proof.Machine
end

