-- ==== Sys2Proof/Machine/Chain.lean ====
section
/-!
DEFINITION. The downstream chain of shift registers: the reference model of R209 to R211.
-/

namespace Sys2Proof.Machine

/-- One shift away from the controller; the bit leaving the last stage is lost (R210). -/
def Chain.shift (c : Chain) (x : Bool) : Chain := { c with sh := (x :: c.sh).take c.sh.length }

/-- The bit the chain samples on DATA: that of the pin's level, any bit when the block has not driven it (R54, R210;
log 5). -/
def Chain.sample (c : Chain) : Option Level → Bool
  | some l => l.toBit
  | none => Config.undrivenData c.sh

/-- What the chain does on a phase, `before` being the pins before it: shift on a `CLOCK` phase, sampling DATA (R210);
outputs take the stages on a `LATCH` phase that changes LATCH from its active to its inactive level (R211). -/
def Chain.observe (active : Level) (before : Pins) (c : Chain) : Phase → Chain
  | .setup _ => c
  | .clock => c.shift (c.sample before.data)
  | .latch l => if before.latch = some active ∧ l = active.not then { c with q := c.sh } else c

/-- The value of register `r`, `sum_{j=0..7} Q[8r+j] * 2^j` (R209); `none` where there is no such stage. -/
def Chain.register (c : Chain) (r : Nat) : Option Nat :=
  [7, 6, 5, 4, 3, 2, 1, 0].foldl
    (fun acc j =>
      match acc, c.q[8 * r + j]? with
      | some v, some b => some (2 * v + b.toNat)
      | _, _ => none)
    (some 0)

end Sys2Proof.Machine
end

