-- ==== Sys2Proof/Machine/Memory.lean ====
section
/-!
DEFINITION. The host's value space: reading a watched integer, and the host's own writes (R50 to R53, R62, R229). The
block reads it and never writes it.
-/

namespace Sys2Proof.Machine

/-- The canonical form: handles strictly rising. An unlisted handle designates no variable, so no entry can equal what
an unlisted handle reads as. -/
abbrev Memory.wf (m : Memory) : Prop := List.Pairwise (fun a b => a.1 < b.1) m

/-- The integer the variable of a handle holds; `none` when no such variable exists (R51, R53). -/
def Memory.read : Memory → Handle → Option Int
  | [], _ => none
  | (k, v) :: m, h => if k = h then some v else Memory.read m h

/-- The host gives a variable a value. -/
def Memory.write : Memory → Handle → Int → Memory
  | [], h, x => [(h, x)]
  | (k, v) :: m, h, x =>
    if h < k then (h, x) :: (k, v) :: m
    else if h = k then (h, x) :: m
    else (k, v) :: Memory.write m h x

/-- The host ends the lifetime of a variable. -/
def Memory.erase : Memory → Handle → Memory
  | [], _ => []
  | (k, v) :: m, h => if k = h then m else (k, v) :: Memory.erase m h

/-- One write of the host. -/
def Memory.apply (m : Memory) : HostWrite → Memory
  | .set h v => m.write h v
  | .destroy h => m.erase h

/-- Writes of the host, in order. -/
def Memory.applyAll (m : Memory) (ws : List HostWrite) : Memory := ws.foldl Memory.apply m

end Sys2Proof.Machine
end

