-- ==== Sys2Proof/Machine/Ops.lean ====
section
/-!
DEFINITION. The operations the meanings share: list notation (R10), `Emit` (R72), `ReadSource` (R51), raising a fault
(R195), the refusal mark (R34), the gate (R151), and the end of a command.
-/

namespace Sys2Proof.Machine

/-! ### What an operation answers -/

/-- The end of an operation: it returns a value, or raises a fault; either way the state as it then stands (R11,
R195). -/
inductive Done (α : Type) where
  | returned (a : α) (s : State)
  | raised (k : FaultKind) (s : State)
deriving Repr

/-- The value an operation hands to its caller, seen otherwise. -/
def Done.map {α β : Type} (f : α → β) : Done α → Done β
  | .returned a s => .returned (f a) s
  | .raised k s => .raised k s

/-- Go on with the value an operation returned; a raised fault ends the whole command (R195). -/
def Done.andThen {α β : Type} (d : Done α) (k : α → State → Done β) : Done β :=
  match d with
  | .returned a s => k a s
  | .raised f s => .raised f s

/-! ### Lists (R10) -/

/-- `firstMatch(R, id)`: the least registry index whose bank has the id (R10, R150). -/
def firstMatch (R : List Bank) (id : Id) : Option Nat := R.findIdx? (fun B => B.id == id)

/-- `insertAt(l, i, x)`, defined for `i ≤ len(l)` (R10). -/
def insertAt {α : Type} (l : List α) (i : Nat) (x : α) : List α := l.take i ++ x :: l.drop i

/-- `removeAt(l, i)` (R10). -/
def removeAt {α : Type} (l : List α) (i : Nat) : List α := l.take i ++ l.drop (i + 1)

/-! ### Pins and `Emit` (R72) -/

/-- Write one pin. -/
def Pins.write (p : Pins) : PinName × Level → Pins
  | (.data, l) => { p with data := some l }
  | (.clock, l) => { p with clock := some l }
  | (.latch, l) => { p with latch := some l }

/-- The pin writes a phase stands for, in the order they are performed: only a SETUP has two (R72,
`SETUP_WRITE_ORDER`). -/
def Phase.writes (o : SetupWriteOrder) : Phase → List (PinName × Level)
  | .setup b =>
    match o with
    | .dataFirst => [(.data, Level.ofBit b), (.clock, .low)]
    | .simultaneous => [(.clock, .low), (.data, Level.ofBit b)]
    | .clockFirst => [(.clock, .low), (.data, Level.ofBit b)]
  | .clock => [(.clock, .high)]
  | .latch l => [(.latch, l)]

/-- The pins after a phase (R72). -/
def Pins.after (o : SetupWriteOrder) (p : Pins) (e : Phase) : Pins := (e.writes o).foldl Pins.write p

/-- `Emit(e)` with the sequencer at `c`: the pin writes, the trace, and what the chain makes of it (R11, R72, R210). -/
def emit (c : Cursor) (e : Phase) (s : State) : State :=
  { s with
    cursor := c
    pins := s.pins.after s.params.setupWriteOrder e
    chain := s.chain.observe s.cfg.latchActive s.pins e
    trace := s.trace ++ [e]
    cursorLog := s.cursorLog ++ [c] }

/-- The level the block drives on a physical pin of the platform: the pin's role is the one `cfg` gives it (R22, R36);
`none` on a pin it does not drive (log 17). -/
def State.driven (s : State) (p : Pin) : Option Level :=
  if p = s.cfg.dataPin then s.pins.data
  else if p = s.cfg.clockPin then s.pins.clock
  else if p = s.cfg.latchPin then s.pins.latch
  else none

/-! ### `ReadSource` (R51) -/

/-- The asynchronous writes of the host that land before the next read (R62, R229). -/
def landWrites (s : State) : State :=
  match s.interference with
  | [] => s
  | f :: rest => { s with values := s.values.applyAll f.writes, interference := rest }

/-- The value a read overlapping a host write draws, if one overlaps the next read (R58, R229). -/
def tornDraw (s : State) : Option Int :=
  match s.interference with
  | [] => none
  | f :: _ => f.torn

/-- `ReadSource(h)`: the integer the variable holds at this instant, whatever an overlapping write makes of it, or
`Fault(DANGLING_SOURCE)` when the variable no longer exists (R51, R53, R58). -/
def readSource (h : Handle) (s : State) : Done Int :=
  match (landWrites s).values.read h with
  | none => .raised .danglingSource (landWrites s)
  | some v => .returned ((tornDraw s).getD v) (landWrites s)

/-! ### Faults, refusals, the gate -/

/-- `raise Fault(kind)` during the command of code `op`: the sticky fault is set and the command ends with no result;
everything done before stands (R195). There is no return from a fault but a new construction (R200). -/
def raiseFault (k : FaultKind) (op : Byte) (s : State) : State :=
  { s with fault := some { kind := k, op := op }, cursor := .idle, result := .nothing }

/-- The decoder refuses a command: the mark, and no other field (R34, R90). -/
def refuse (s : State) : State := { s with refused := true }

/-- The gate: a command is performed only when `fault = NONE` and `refused = false`; otherwise there is no step
(R151). -/
def gate (s : State) (k : State → Outcome) : Outcome :=
  match s.fault with
  | some f => .fault (.stopped f.kind f.op)
  | none => if s.refused then .refused .stopped else k s

/-- The command ends: its result is handed over and the sequencer is idle (R38, R39). -/
def finish (r : Result) (s : State) : State := { s with cursor := .idle, result := r }

/-- The end of the command of code `op`: its own end, or the fault it raised (R194, R195). -/
def conclude (op : Byte) : Done Result → Outcome
  | .returned r s => .next (finish r s)
  | .raised k s => .next (raiseFault k op s)

/-! ### The target of an internal operation (R82, R92) -/

/-- The bank an internal operation is performed on. -/
def State.targetBank (s : State) : Option Bank := s.registry[s.target.bank]?

/-- The traversal position of a registry index (R13). -/
def traversalOf (s : State) (r : Nat) : Nat := s.registry.length - 1 - r

/-- Perform a bank operation on the target bank. -/
def onBank (s : State) (k : Bank → Outcome) : Outcome :=
  match s.targetBank with
  | none => .refused .noTarget
  | some B => k B

/-- Perform an encoder operation on the target encoder, of the target bank. -/
def onEncoder (s : State) (k : Bank → Encoder → Outcome) : Outcome :=
  match s.targetBank with
  | none => .refused .noTarget
  | some B =>
    match B.enc[s.target.position]? with
    | none => .refused .noTarget
    | some E => k B E

/-- Write the registry. -/
def setRegistry (R : List Bank) (s : State) : State := { s with registry := R }

/-- Perform an operation on the first match of an id, and on no other bank; nothing when there is none (R150). -/
def onFirstMatch (id : Id) (f : Bank → Bank) (s : State) : State :=
  match firstMatch s.registry id with
  | none => s
  | some i => setRegistry (s.registry.modify i f) s

end Sys2Proof.Machine
end

