-- ==== Sys2Proof/Machine/Construct.lean ====
section
/-!
DEFINITION. Construction, the block's only reset and the only way out of a faulted or refused state (R200, R220 to R222).
-/

namespace Sys2Proof.Machine

/-- The configuration of a construction: each argument if given, else its default (R220). -/
def cfgOf (a : ConstructArgs) (p : Params) : Cfg where
  dataPin := a.dataPin.getD p.dataPin
  clockPin := a.clockPin.getD p.clockPin
  latchPin := a.latchPin.getD p.latchPin
  latchActive := a.latchActive.getD p.latchActive
  defaultTable := p.defaultTable

/-- The three pins are distinct outputs (R23). -/
abbrev Cfg.pinsDistinct (c : Cfg) : Prop :=
  c.dataPin ≠ c.clockPin ∧ c.dataPin ≠ c.latchPin ∧ c.clockPin ≠ c.latchPin

/-- `Construct(args)` in the environment of `s`: the block's own fields take their values after construction (R220);
the host's values, its inbox, the chain and the parameters are not the block's to reset (R209). `none` when the pins are
not distinct: "no state is produced" (R221). What a construction keeps is the model's choice (log 14). -/
def construct (a : ConstructArgs) (s : State) : Option State :=
  if (cfgOf a s.params).pinsDistinct then
    some { s with
      cfg := cfgOf a s.params
      registry := []
      pins := Pins.undriven
      fault := none
      refused := false
      trace := []
      cursor := .idle
      target := { bank := 0, position := 0 }
      result := .nothing
      cursorLog := [] }
  else none

end Sys2Proof.Machine
end

