-- ==== Sys2Proof/Machine/Flags.lean ====
section
/-!
DEFINITION. The block's one flag, `B.enabled` (R30, R143), the statuses and how they are told apart (R190, R191), and
the index a failure is reported under (R167).
-/

namespace Sys2Proof.Machine

/-- Write the enabled flag of a bank (R143). -/
def Bank.setEnabled (enabled : Bool) (B : Bank) : Bank := { B with enabled := enabled }

/-- The numeric code of a status (R190, decision D4). -/
def Status.code : Status → Nat
  | .ok => 0
  | .configurationError => 1
  | .missingSourceError => 2
  | .overflowError => 3

/-- The status after all positions are driven: the remaining quotient tells whether the value fitted (R130). -/
def statusOfQuotient (q : Nat) : Status := if q = 0 then .ok else .overflowError

/-- The number that identifies the bank at traversal position `j` of `n` banks (R167, `FAIL_INDEX_BASIS`). -/
def failIndex : FailIndexBasis → (n j : Nat) → Nat
  | .traversalPosition, _, j => j
  | .registryIndex, n, j => n - 1 - j

/-- Fold one bank's status into the result: any status other than `OK` overwrites what was there (R167). -/
def foldStatus (b : FailIndexBasis) (n j result : Nat) (st : Status) : Nat :=
  if st = .ok then result else failIndex b n j

end Sys2Proof.Machine
end

