-- ==== Sys2Proof/Machine/Operands.lean ====
section
/-!
DEFINITION. Operand resolution: table operands (R153), bit-order codes (R161), digit indices (R102), the capacity limits
(R154), and bank creation from operands (R120).
-/

namespace Sys2Proof.Machine

/-- A list of bytes as a digit table; `none` unless it has exactly ten (R24, R153). -/
def tableOfBytes (bs : List Byte) : Option DigitTable :=
  if h : bs.length = Config.tableSize then some ⟨bs.toArray, by simpa using h⟩ else none

/-- `ResolveTable(table)`; `none` is `Fault(BAD_TABLE)` (R153). -/
def resolveTable (c : Cfg) : Option (List Byte) → Option DigitTable
  | none => some c.defaultTable
  | some bs => tableOfBytes bs

/-- The bit order of a host code: 1 and 0, any other is outside the enumeration (R81, R161, decision D9). -/
def orderOfCode (z : Int) : Option BitOrder :=
  if z = 1 then some .msbFirst else if z = 0 then some .lsbFirst else none

/-- The pattern of a digit; `none` when the digit is outside `0..9` (R100, R102). -/
def patternOf (t : DigitTable) (d : Int) : Option Byte := if d < 0 then none else t[d.toNat]?

/-- `n > MAX_POSITIONS` (R154); never with the limit unbounded. -/
def overPositions (p : Params) (n : Nat) : Bool :=
  match p.maxPositions with
  | none => false
  | some m => decide (m < n)

/-- The registry cannot grow by one bank (R154); never with the limit unbounded. The pseudocode tests
`len(R) = MAX_BANKS`, and a longer registry is none the command sequence can reach (log 12). -/
def registryFull (p : Params) (R : List Bank) : Bool :=
  match p.maxBanks with
  | none => false
  | some m => decide (m ≤ R.length)

/-- `NewBank(id, n, ref, T)` (R120). -/
def newBank (id : Id) (n : Nat) (ref : Option Handle) (T : DigitTable) : Bank where
  id := id
  enc := List.replicate n { table := T, bitOrder := Config.defaultBitOrder }
  source := ref
  bitOrder := Config.defaultBitOrder
  enabled := Config.defaultEnabled

end Sys2Proof.Machine
end

