-- ==== Sys2Proof/Machine/SegmentEncoder.lean ====
section
/-!
DEFINITION. The segment encoder's operations (40_segment_encoder.md): serialising a byte (R73, R74), ENC_UPDATE, ENC_OFF
and the stored bit order, and their meanings when performed by themselves on the target encoder. `j` is the traversal
position of the encoder's bank and `i` its position in the bank: they only say where the cursor stands.
-/

namespace Sys2Proof.Machine

/-- A bit cell: `Emit(SETUP(p[k])); Emit(CLOCK)` (R73). -/
def bitCell (j i : Nat) (p : Byte) (s : State) (k : Nat) : State :=
  emit (.cell j i k .clock) .clock (emit (.cell j i k .setup) (.setup (p.getLsbD k)) s)

/-- Serialise a byte, bit 7 first (R74). The stored bit order is no argument (R101). -/
def serialise (j i : Nat) (p : Byte) (s : State) : State := Config.bitIndices.foldl (bitCell j i p) s

/-- ENC_UPDATE (R100, R102). -/
def encUpdate (j i : Nat) (E : Encoder) (d : Int) (s : State) : Done Unit :=
  match patternOf E.table d with
  | none => .raised .badDigitIndex s
  | some p => .returned () (serialise j i p s)

/-- ENC_OFF (R103). -/
def encOff (j i : Nat) (s : State) : State := serialise j i 0#8 s

/-- ENC_SET_BIT_ORDER (R104). -/
def Encoder.setBitOrder (bo : BitOrder) (E : Encoder) : Encoder := { E with bitOrder := bo }

/-! ### Meanings -/

/-- ENC_UPDATE on the target encoder (R100). -/
def execEncUpdate (d : Int) (s : State) : Outcome :=
  gate s fun s => onEncoder s fun _ E =>
    conclude Op.encUpdate.code
      ((encUpdate (traversalOf s s.target.bank) s.target.position E d s).map fun _ => .nothing)

/-- ENC_OFF on the target encoder (R103). -/
def execEncOff (s : State) : Outcome :=
  gate s fun s => onEncoder s fun _ _ =>
    conclude Op.encOff.code
      (.returned .nothing (encOff (traversalOf s s.target.bank) s.target.position s))

/-- ENC_SET_BIT_ORDER on the target encoder (R104). -/
def execEncSetBitOrder (bo : BitOrder) (s : State) : Outcome :=
  gate s fun s => onEncoder s fun B E =>
    conclude Op.encSetBitOrder.code
      (.returned .nothing
        (setRegistry
          (s.registry.set s.target.bank { B with enc := B.enc.set s.target.position (E.setBitOrder bo) }) s))

/-- ENC_GET_BIT_ORDER on the target encoder (R106). -/
def execEncGetBitOrder (s : State) : Outcome :=
  gate s fun s => onEncoder s fun _ E => conclude Op.encGetBitOrder.code (.returned (.order E.bitOrder) s)

end Sys2Proof.Machine
end

