-- ==== Sys2Proof/Machine/DisplayBank.lean ====
section
/-!
DEFINITION. The display bank's operations (41_display_bank.md): BANK_UPDATE with its decomposition (R122 to R134), bit
order, enable and source (R140 to R144), and their meanings when performed by themselves on the target bank.
-/

namespace Sys2Proof.Machine

/-- ENC_OFF on every position from `i` on, in increasing order (R125). -/
def blankFrom (j : Nat) : Nat → List Encoder → State → State
  | _, [], s => s
  | i, _ :: es, s => blankFrom j (i + 1) es (encOff j i s)

/-- ENC_UPDATE(`q mod 10`) on every position from `i` on, `q` divided by 10 after each; returns the remaining quotient
(R122, R128). -/
def driveFrom (j : Nat) : Nat → List Encoder → Nat → State → Done Nat
  | _, [], q, s => .returned q s
  | i, E :: es, q, s =>
    (encUpdate j i E (Int.ofNat (q % Config.radix)) s).andThen fun _ s' =>
      driveFrom j (i + 1) es (q / Config.radix) s'

/-- Render a value already read: a negative one faults before any phase (R127), else its digits (R128 to R130). -/
def renderValue (j : Nat) (B : Bank) (V : Int) (s : State) : Done Status :=
  if V < 0 then .raised .negativeValue s
  else (driveFrom j 0 B.enc V.toNat s).map statusOfQuotient

/-- BANK_UPDATE (R122), its checks in the order of R123. -/
def bankUpdate (j : Nat) (B : Bank) (s : State) : Done Status :=
  if B.enc = [] then .returned .configurationError s
  else if B.enabled = false then .returned .ok (blankFrom j 0 B.enc s)
  else
    match B.source with
    | none => .returned .missingSourceError s
    | some h => (readSource h s).andThen (renderValue j B)

/-- BANK_SET_BIT_ORDER: the bank's own field and every encoder's (R141). -/
def Bank.setBitOrder (bo : BitOrder) (B : Bank) : Bank :=
  { B with bitOrder := bo, enc := B.enc.map (Encoder.setBitOrder bo) }

/-- BANK_SET_SOURCE (R144). -/
def Bank.setSource (ref : Option Handle) (B : Bank) : Bank := { B with source := ref }

/-! ### Meanings -/

/-- BANK_UPDATE on the target bank (R122). -/
def execBankUpdate (s : State) : Outcome :=
  gate s fun s => onBank s fun B =>
    conclude Op.bankUpdate.code ((bankUpdate (traversalOf s s.target.bank) B s).map .status)

/-- BANK_GET_BIT_ORDER on the target bank (R140). -/
def execBankGetBitOrder (s : State) : Outcome :=
  gate s fun s => onBank s fun B => conclude Op.bankGetBitOrder.code (.returned (.order B.bitOrder) s)

/-- BANK_SET_BIT_ORDER on the target bank (R141). -/
def execBankSetBitOrder (bo : BitOrder) (s : State) : Outcome :=
  gate s fun s => onBank s fun B =>
    conclude Op.bankSetBitOrder.code
      (.returned .nothing (setRegistry (s.registry.set s.target.bank (B.setBitOrder bo)) s))

/-- BANK_SET_ENABLED on the target bank (R143). -/
def execBankSetEnabled (enabled : Bool) (s : State) : Outcome :=
  gate s fun s => onBank s fun B =>
    conclude Op.bankSetEnabled.code
      (.returned .nothing (setRegistry (s.registry.set s.target.bank (B.setEnabled enabled)) s))

/-- BANK_SET_SOURCE on the target bank (R144). -/
def execBankSetSource (ref : Option Handle) (s : State) : Outcome :=
  gate s fun s => onBank s fun B =>
    conclude Op.bankSetSource.code
      (.returned .nothing (setRegistry (s.registry.set s.target.bank (B.setSource ref)) s))

end Sys2Proof.Machine
end

