-- ==== Sys2Proof/Machine/Registry.lean ====
section
/-!
DEFINITION. The registry commands of the chain controller (42_chain_controller.md R150 to R163). Each raises its faults
before it changes anything (R195), in the order of its pseudocode (R196).
-/

namespace Sys2Proof.Machine

/-- The checks ADD_BANK, INSERT_BANK and REPLACE_BANK share: the table, then the positions (R153, R154, R196). -/
def checkedTable (n : Nat) (table : Option (List Byte)) (s : State) : Done DigitTable :=
  match resolveTable s.cfg table with
  | none => .raised .badTable s
  | some T => if overPositions s.params n then .raised .capacity s else .returned T s

/-- A new bank into the registry, unless the id is present (a silent no-op) or the registry is full (R152, R155). -/
def placeBank (B : Bank) (place : List Bank → List Bank) (s : State) : Done Result :=
  match firstMatch s.registry B.id with
  | some _ => .returned .nothing s
  | none =>
    if registryFull s.params s.registry then .raised .capacity s
    else .returned .nothing (setRegistry (place s.registry) s)

/-- ADD_BANK (R152). -/
def addBank (id : Id) (n : Nat) (ref : Option Handle) (table : Option (List Byte)) (s : State) : Done Result :=
  (checkedTable n table s).andThen fun T s =>
    placeBank (newBank id n ref T) (fun R => R ++ [newBank id n ref T]) s

/-- INSERT_BANK: the index is checked first (R155, R156). -/
def insertBank (id : Id) (n index : Nat) (ref : Option Handle) (table : Option (List Byte)) (s : State) :
    Done Result :=
  if s.registry.length < index then .raised .indexError s
  else
    (checkedTable n table s).andThen fun T s =>
      placeBank (newBank id n ref T) (fun R => insertAt R index (newBank id n ref T)) s

/-- REPLACE_BANK: a new bank in the place of the first match (R158). -/
def replaceBank (id : Id) (n : Nat) (ref : Option Handle) (table : Option (List Byte)) (s : State) : Done Result :=
  (checkedTable n table s).andThen fun T s =>
    .returned .nothing (onFirstMatch id (fun _ => newBank id n ref T) s)

/-- REMOVE_BANK (R159). -/
def removeBank (id : Id) (s : State) : State :=
  match firstMatch s.registry id with
  | none => s
  | some i => setRegistry (removeAt s.registry i) s

/-- SET_BIT_ORDER: a no-op when the code is outside the enumeration (R161). -/
def setBitOrder (id : Id) (order : Int) (s : State) : State :=
  match orderOfCode order with
  | none => s
  | some bo => onFirstMatch id (Bank.setBitOrder bo) s

/-! ### Meanings -/

/-- ADD_BANK (R152). -/
def execAddBank (id : Id) (n : Nat) (ref : Option Handle) (table : Option (List Byte)) (s : State) : Outcome :=
  gate s fun s => conclude Op.addBank.code (addBank id n ref table s)

/-- INSERT_BANK (R155). -/
def execInsertBank (id : Id) (n index : Nat) (ref : Option Handle) (table : Option (List Byte)) (s : State) :
    Outcome :=
  gate s fun s => conclude Op.insertBank.code (insertBank id n index ref table s)

/-- REPLACE_BANK (R158). -/
def execReplaceBank (id : Id) (n : Nat) (ref : Option Handle) (table : Option (List Byte)) (s : State) : Outcome :=
  gate s fun s => conclude Op.replaceBank.code (replaceBank id n ref table s)

/-- REMOVE_BANK (R159). -/
def execRemoveBank (id : Id) (s : State) : Outcome :=
  gate s fun s => conclude Op.removeBank.code (.returned .nothing (removeBank id s))

/-- CLEAR_ALL (R160). -/
def execClearAll (s : State) : Outcome :=
  gate s fun s => conclude Op.clearAll.code (.returned .nothing (setRegistry [] s))

/-- SET_BIT_ORDER (R161). -/
def execSetBitOrder (id : Id) (order : Int) (s : State) : Outcome :=
  gate s fun s => conclude Op.setBitOrder.code (.returned .nothing (setBitOrder id order s))

/-- ENABLE_BANK (R162). -/
def execEnableBank (id : Id) (enabled : Bool) (s : State) : Outcome :=
  gate s fun s => conclude Op.enableBank.code (.returned .nothing (onFirstMatch id (Bank.setEnabled enabled) s))

/-- SET_SOURCE (R163). -/
def execSetSource (id : Id) (ref : Option Handle) (s : State) : Outcome :=
  gate s fun s => conclude Op.setSource.code (.returned .nothing (onFirstMatch id (Bank.setSource ref) s))

end Sys2Proof.Machine
end

