-- ==== Sys2Proof/Machine/Update.lean ====
section
/-!
DEFINITION. The latch-gated chain update UPDATE_ALL (R164 to R169) and the diagnostic listing PRINT_ALL (R171).
-/

namespace Sys2Proof.Machine

/-- The loop of R164 over the banks still to visit, the one at traversal position `j` first; `n` is the length of the
registry and `result` the failure index so far. A status never stops it, a fault does (R168). -/
def visitFrom (b : FailIndexBasis) (n : Nat) : Nat → List Bank → Nat → State → Done Nat
  | _, [], result, s => .returned result s
  | j, B :: Bs, result, s =>
    (bankUpdate j B s).andThen fun st s' => visitFrom b n (j + 1) Bs (foldStatus b n j result st) s'

/-- The opening of the latch bracket (R165). -/
def openLatch (s : State) : State := emit .latchOpen (.latch s.cfg.latchActive) s

/-- The closing of the latch bracket (R165). -/
def closeLatch (s : State) : State := emit .latchClose (.latch s.cfg.latchActive.not) s

/-- UPDATE_ALL: the banks in reverse registry order inside the latch bracket; a fault leaves the bracket open (R164,
R195). -/
def updateAll (s : State) : Done Nat :=
  (visitFrom s.params.failIndexBasis s.registry.length 0 s.registry.reverse 0 (openLatch s)).andThen
    fun result s' => .returned result (closeLatch s')

/-- The listing of PRINT_ALL from registry index `i` on (R171). -/
def listingFrom : Nat → List Bank → List (Nat × Id × Nat)
  | _, [] => []
  | i, B :: Bs => (i, B.id, B.enc.length) :: listingFrom (i + 1) Bs

/-- The text of a listing, in the OPEN `PRINT_FORMAT` (R171, decision D19). -/
def printedText (l : List (Nat × Id × Nat)) : String := Config.printFormat l

/-! ### Meanings -/

/-- UPDATE_ALL (R164). -/
def execUpdateAll (s : State) : Outcome :=
  gate s fun s => conclude Op.updateAll.code ((updateAll s).map .index)

/-- PRINT_ALL (R171). -/
def execPrintAll (s : State) : Outcome :=
  gate s fun s => conclude Op.printAll.code (.returned (.listing (listingFrom 0 s.registry)) s)

end Sys2Proof.Machine
end

