-- ==== Sys2Proof/Machine/Dispatch.lean ====
section
/-!
DEFINITION. One arm per constructor of Instr, each one direct call of its meaning.
-/

namespace Sys2Proof.Machine

/-- The meaning of an instruction at a state. -/
def exec (i : Instr) (s : State) : Host.Outcome State Fault Refusal :=
  match i with
  | .addBank id n ref table => Sys2Proof.Machine.execAddBank id n ref table s
  | .insertBank id n index ref table => Sys2Proof.Machine.execInsertBank id n index ref table s
  | .replaceBank id n ref table => Sys2Proof.Machine.execReplaceBank id n ref table s
  | .removeBank id => Sys2Proof.Machine.execRemoveBank id s
  | .clearAll => Sys2Proof.Machine.execClearAll s
  | .setBitOrder id order => Sys2Proof.Machine.execSetBitOrder id order s
  | .enableBank id enabled => Sys2Proof.Machine.execEnableBank id enabled s
  | .setSource id ref => Sys2Proof.Machine.execSetSource id ref s
  | .updateAll => Sys2Proof.Machine.execUpdateAll s
  | .printAll => Sys2Proof.Machine.execPrintAll s
  | .encUpdate d => Sys2Proof.Machine.execEncUpdate d s
  | .encOff => Sys2Proof.Machine.execEncOff s
  | .encSetBitOrder bo => Sys2Proof.Machine.execEncSetBitOrder bo s
  | .encGetBitOrder => Sys2Proof.Machine.execEncGetBitOrder s
  | .bankUpdate => Sys2Proof.Machine.execBankUpdate s
  | .bankGetBitOrder => Sys2Proof.Machine.execBankGetBitOrder s
  | .bankSetBitOrder bo => Sys2Proof.Machine.execBankSetBitOrder bo s
  | .bankSetEnabled enabled => Sys2Proof.Machine.execBankSetEnabled enabled s
  | .bankSetSource ref => Sys2Proof.Machine.execBankSetSource ref s

end Sys2Proof.Machine
end

