-- ==== Sys2Proof/Machine/Inbox.lean ====
section
/-!
DEFINITION. What the block takes next from outside (R80), and how a word of the opcode table is placed there so that
the very next step performs it (log 6, log 8).
-/

namespace Sys2Proof.Machine

/-- The input taken, the rest left to come. -/
def takeInput (rest : List Input) (s : State) : State := { s with inbox := rest }

/-- An internal operation is performed on a target (R82). -/
def aimAt (t : Target) (s : State) : State := { s with target := t }

/-- The host writes one of its variables between two commands (R50). -/
def landHostWrite (w : HostWrite) (s : State) : State := { s with values := s.values.apply w }

/-- Put an input in front of what is to come. -/
def pushInput (i : Input) (s : State) : State := { s with inbox := i :: s.inbox }

/-- The first bank with at least one position, if there is one. -/
def firstWithPosition (R : List Bank) : Option Nat := R.findIdx? (fun B => !B.enc.isEmpty)

/-- A registry none of whose banks has a position, given one: its first bank gets a position of the default table, or,
with no bank at all, an unbound one-position bank of the zero id stands alone (log 8). Ids are neither counted nor
compared. -/
def withFirstPosition (c : Cfg) : List Bank → List Bank
  | [] => [newBank 0 1 none c.defaultTable]
  | B :: Bs => { B with enc := [{ table := c.defaultTable, bitOrder := B.bitOrder }] } :: Bs

/-- Place a command record where the next step takes it. An internal operation needs an encoder to be performed on: the
first bank that has a position, or, where none has, the first bank with a position given to it (log 8). -/
def placeCommand (c : RawCommand) (s : State) : State :=
  match Op.ofCode c.op with
  | none => pushInput (.command c) s
  | some m =>
    match m.interface with
    | .host => pushInput (.command c) s
    | .block =>
      match firstWithPosition s.registry with
      | some r => pushInput (.internal { bank := r, position := 0 } c) s
      | none =>
        pushInput (.internal { bank := 0, position := 0 } c)
          (setRegistry (withFirstPosition s.cfg s.registry) s)

end Sys2Proof.Machine
end

