-- ==== Sys2Proof/Machine/Step.lean ====
section
/-!
DEFINITION. One step: the block takes one input and deals with it to completion (R6, R61, R80).
-/

namespace Sys2Proof.Machine

/-- Decode a command record and perform it; a record the decoder refuses sets the mark and does nothing else (R90). -/
def performRecord (f : Interface) (c : RawCommand) (s : State) : Outcome :=
  match decode s.params f c with
  | .error _ => .next (refuse s)
  | .ok i => exec i s

/-- One step (log 7). A command passes the gate first (R151), so after a fault or a refusal there is no step but that of
a new construction (R200, R220) or of the host's own write. With nothing to come the block waits: it does nothing by
itself (R224). -/
def step (s : State) : Host.Outcome State Fault Refusal :=
  match s.inbox with
  | [] => gate s .next
  | .command c :: rest => gate s fun s => performRecord .host c (takeInput rest s)
  | .internal t c :: rest => gate s fun s => performRecord .block c (aimAt t (takeInput rest s))
  | .construct a :: rest =>
    match construct a (takeInput rest s) with
    | some s' => .next s'
    | none => .refused .pinClash
  | .hostWrite w :: rest => .next (landHostWrite w (takeInput rest s))

/-- `s` with the instruction of a table word placed where the next step takes it (log 6). The table's words are one
command code of 8 bits. -/
def State.withFetchWord (s : State) (_nbits w : Nat) : State := placeCommand (tableCommand w) s

end Sys2Proof.Machine
end

