-- ==== Sys2Proof/WellFormed.lean ====
section
/-!
DEFINITION. Well-formedness of command records: the checks of R90, each by name, written apart from the decoder from
the columns of the opcode map. A decoded `Instr` is well formed by its types (naturals, bytes, enumerations); what is
left to check of it is the interface it may arrive on (R92).
-/

namespace Sys2Proof

/-- An operand fits the kind its place asks for (R81). -/
def Operand.fits : Kind → Operand → Bool
  | .key, .key _ => true
  | .natural, .int z => decide (0 ≤ z)
  | .ref, .ref _ => true
  | .table, .table none => true
  | .table, .table (some zs) => zs.all fun z => decide (0 ≤ z ∧ z < 256)
  | .integer, .int _ => true
  | .boolean, .bool _ => true
  | .order, .order _ => true
  | _, _ => false

/-- As many operands as kinds, each fitting its own (R90). -/
def operandsFit : List Kind → List Operand → Bool
  | [], [] => true
  | k :: ks, o :: os => o.fits k && operandsFit ks os
  | _, _ => false

/-- The record's code is in the opcode table (R90). -/
def RawCommand.codeKnown (c : RawCommand) : Bool := (Op.ofCode c.op).isSome

/-- The record arrives on the interface its code belongs to (R90, R92). -/
def RawCommand.codeAllowed (f : Interface) (c : RawCommand) : Bool :=
  match Op.ofCode c.op with
  | none => false
  | some m => decide (m.interface = f)

/-- The record has the operands of its row (R90). -/
def RawCommand.operandsFit (c : RawCommand) : Bool :=
  match Op.ofCode c.op with
  | none => false
  | some m => Sys2Proof.operandsFit m.kinds c.operands

/-- An id or a handle is a value of its type (R7, R81). -/
def Operand.typed (p : Params) : Operand → Bool
  | .key id => p.isId id
  | .int _ => true
  | .ref r => r.all p.isHandle
  | .table _ => true
  | .bool _ => true
  | .order _ => true
  | .other => true

/-- The ids and handles of the record are values of their types (R90: "of the wrong kind"). -/
def RawCommand.keysTyped (p : Params) (c : RawCommand) : Bool := c.operands.all (Operand.typed p)

/-- A record the interface accepts: none of the grounds of R90 applies. -/
def RawCommand.wellFormed (p : Params) (f : Interface) (c : RawCommand) : Bool :=
  c.codeKnown && c.codeAllowed f && c.operandsFit && c.keysTyped p

/-- An instruction may be performed on an interface (R82, R92). -/
def Instr.allowedFrom (f : Interface) (i : Instr) : Bool := decide (i.interface = f)

end Sys2Proof
end

