-- ==== Sys2Proof/Safety.lean ====
section
/-!
DEFINITION. The terms claims use: when the gate is open, the wire format written out apart from the machine's loops (R74
to R76), the closed forms of a bank's digits and status (R131), what the chain shows (R212), the invariants (R29, R32,
R35, R36, R38), what a safe run is, and renamings of the OPEN names of R7.
-/

namespace Sys2Proof.Machine

/-- The gate lets a command through (R151). -/
abbrev State.isOpen (s : State) : Prop := s.fault = none ∧ s.refused = false

/-- A safe run: no fault and no refusal, so every command is performed (R194, R195). -/
abbrev State.isSafe (s : State) : Prop := s.isOpen

/-- The host changes no watched variable during the command (the premise R229 asks for). -/
abbrev State.hostQuiet (s : State) : Prop := s.interference = []

/-! ### The wire format (R73 to R76) -/

/-- The sixteen phases of a byte, written out (R74). -/
def bytePhases (p : Byte) : List Phase :=
  [.setup (p.getLsbD 7), .clock, .setup (p.getLsbD 6), .clock, .setup (p.getLsbD 5), .clock,
   .setup (p.getLsbD 4), .clock, .setup (p.getLsbD 3), .clock, .setup (p.getLsbD 2), .clock,
   .setup (p.getLsbD 1), .clock, .setup (p.getLsbD 0), .clock]

/-- The phases of bytes sent one after another. -/
def streamPhases (ps : List Byte) : List Phase := ps.flatMap bytePhases

/-- The pins after bytes: DATA at bit 0 of the last byte, CLOCK high, LATCH as it was (R107). -/
def pinsWith (ps : List Byte) (x : Pins) : Pins :=
  match ps.getLast? with
  | none => x
  | some p => { x with data := some (Level.ofBit (p.getLsbD 0)), clock := some .high }

/-- The digit of a value at a position: `(V div 10^i) mod 10` (R131). -/
def digitAt (V i : Nat) : Nat := V / 10 ^ i % 10

/-- The bytes of encoders showing a value, position `i` first (R75). -/
def digitBytes (V : Nat) : Nat → List Encoder → List Byte
  | _, [] => []
  | i, E :: es => E.table.toList.getD (digitAt V i) 0#8 :: digitBytes V (i + 1) es

/-- What one bank update makes of the host's values: the bytes it emits and its status, or the fault it raises, as the
closed forms say (R75, R123, R131, R133). -/
inductive BankOutcome where
  | emits (ps : List Byte) (st : Status)
  | faults (k : FaultKind)
deriving DecidableEq, Repr

/-- The outcome of a bank enabled and bound, of at least one position, on the value its read gives (R127, R131). -/
def valueOutcome (B : Bank) : Option Int → BankOutcome
  | none => .faults .danglingSource
  | some V =>
    if V < 0 then .faults .negativeValue
    else .emits (digitBytes V.toNat 0 B.enc) (if V.toNat < 10 ^ B.enc.length then .ok else .overflowError)

/-- The outcome of one bank update while the host is quiet (R75, R123). -/
def bankOutcome (m : Memory) (B : Bank) : BankOutcome :=
  if B.enc.length = 0 then .emits [] .configurationError
  else if B.enabled = false then .emits (List.replicate B.enc.length 0#8) .ok
  else
    match B.source with
    | none => .emits [] .missingSourceError
    | some h => valueOutcome B (m.read h)

/-- A bank update calls `ReadSource` (R52). -/
def Bank.readsSource (B : Bank) : Bool := B.enc.length != 0 && B.enabled && B.source.isSome

/-- A bank that emits its bytes when it does not fault (R133, R237). -/
def Bank.emitsBytes (B : Bank) : Bool := !B.enabled || B.source.isSome

/-- The outcome of a bank whose read, if it reads, gives what its variable holds in `m`, or `draw` if a write overlaps the
read (R58). -/
def drawnOutcome (m : Memory) (draw : Option Int) (B : Bank) : BankOutcome :=
  if B.readsSource then
    match B.source with
    | none => bankOutcome m B
    | some h => valueOutcome B ((m.read h).map fun v => draw.getD v)
  else bankOutcome m B

/-- The outcomes of banks in turn, the host's asynchronous writes landing before each read (R62, R169, R229). -/
def outcomesInTurn : Memory → List Interference → List Bank → List BankOutcome
  | _, _, [] => []
  | m, fs, B :: Bs =>
    match B.readsSource, fs with
    | true, f :: fs =>
      drawnOutcome (m.applyAll f.writes) f.torn B :: outcomesInTurn (m.applyAll f.writes) fs Bs
    | _, _ => bankOutcome m B :: outcomesInTurn m fs Bs

/-- The bytes of a bank update (R75). -/
def BankOutcome.bytes : BankOutcome → List Byte
  | .emits ps _ => ps
  | .faults _ => []

/-- A bank update that fails: any status but `OK` (R167). -/
def BankOutcome.fails : BankOutcome → Bool
  | .emits _ st => st != .ok
  | .faults _ => false

/-- A bank update that faults (R193). -/
def BankOutcome.faulted : BankOutcome → Bool
  | .emits _ _ => false
  | .faults _ => true

/-- The outcomes of the banks in traversal order, `registry[n-1]` first (R166). -/
def State.outcomes (s : State) : List BankOutcome := s.registry.reverse.map (bankOutcome s.values)

/-- The bytes of one UPDATE_ALL, in emission order (R76). -/
def State.updateBytes (s : State) : List Byte := s.outcomes.flatMap BankOutcome.bytes

/-- No bank of the registry faults (R164). -/
abbrev State.noBankFaults (s : State) : Prop := ∀ o ∈ s.outcomes, o.faulted = false

/-- `j` is the traversal position of the last bank to fail (R167). -/
abbrev lastFailure (os : List BankOutcome) (j : Nat) : Prop :=
  (∃ o, os[j]? = some o ∧ o.fails = true) ∧ ∀ k o, j < k → os[k]? = some o → o.fails = false

/-! ### The chain (R210 to R212) -/

/-- The bits of bytes in the order they go on the wire (R74). -/
def wireBits (ps : List Byte) : List Bool :=
  ps.flatMap fun p => [p.getLsbD 7, p.getLsbD 6, p.getLsbD 5, p.getLsbD 4,
    p.getLsbD 3, p.getLsbD 2, p.getLsbD 1, p.getLsbD 0]

/-- The stages after bytes were shifted in: the last bit in is nearest the controller, and what does not fit is lost
(R210, R213). -/
def stagesAfter (ps : List Byte) (sh : List Bool) : List Bool := ((wireBits ps).reverse ++ sh).take sh.length

/-! ### Operands of the registry commands (R120, R153, R154) -/

/-- A table operand without fault: omitted, or of ten entries (R153). -/
def tableLegal : Option (List Byte) → Prop
  | none => True
  | some bs => bs.length = 10

/-- The table a legal table operand stands for (R153). -/
def tableChosen (c : Cfg) (T : DigitTable) : Option (List Byte) → Prop
  | none => T = c.defaultTable
  | some bs => T.toList = bs

/-- `n` is within `MAX_POSITIONS` (R154). -/
abbrev positionsLegal (p : Params) (n : Nat) : Prop := ∀ m, p.maxPositions = some m → n ≤ m

/-- One more bank is within `MAX_BANKS` (R154). -/
abbrev roomFor (p : Params) (R : List Bank) : Prop := ∀ m, p.maxBanks = some m → R.length + 1 ≤ m

/-- A bank of the registry has the id (R150). -/
abbrev idPresent (R : List Bank) (id : Id) : Prop := ∃ B ∈ R, B.id = id

/-- `B` is the first match of its id: none of the banks before it has it (R150). -/
abbrev firstOf (pre : List Bank) (B : Bank) : Prop := ∀ X ∈ pre, X.id ≠ B.id

/-- The state a fault of kind `k` leaves from `s`: the sticky record, an idle sequencer, no result, and nothing else
(R195). -/
def State.faulted (s : State) (k : FaultKind) (op : Byte) : State :=
  { s with fault := some { kind := k, op := op }, cursor := .idle, result := .nothing }

/-- The state a command without result and without fault leaves when it changes nothing (R150). -/
def State.untouched (s : State) : State := { s with cursor := .idle, result := .nothing }

/-- The state after a command that only gives the registry another content. -/
def State.withRegistry (s : State) (R : List Bank) : State :=
  { s with registry := R, cursor := .idle, result := .nothing }

/-! ### What bit orders a registry stores (R105, R142) -/

/-- A bank with every stored bit order taken out. -/
def Bank.forgetOrders (B : Bank) : Bank :=
  { B with bitOrder := .msbFirst, enc := B.enc.map fun E => { E with bitOrder := .msbFirst } }

/-! ### Levels the trace leaves (R36) -/

/-- The level of DATA a trace leaves. -/
def dataAfter (t : List Phase) : Option Level :=
  t.foldl (fun l e => match e with | .setup b => some (Level.ofBit b) | .clock => l | .latch _ => l) none

/-- The level of CLOCK a trace leaves. -/
def clockAfter (t : List Phase) : Option Level :=
  t.foldl (fun l e => match e with | .setup _ => some .low | .clock => some .high | .latch _ => l) none

/-- The level of LATCH a trace leaves. -/
def latchAfter (t : List Phase) : Option Level :=
  t.foldl (fun l e => match e with | .setup _ => l | .clock => l | .latch x => some x) none

/-- The levels a trace leaves on the three pins (R36, R72). -/
def pinsAfter (t : List Phase) : Pins := { data := dataAfter t, clock := clockAfter t, latch := latchAfter t }

/-! ### The cursor (R38) -/

/-- One cell is before another: bank by bank, position by position, bit 7 first, SETUP before CLOCK (R38). -/
def cellBefore (j i k : Nat) (ph : CellPhase) (j' i' k' : Nat) (ph' : CellPhase) : Prop :=
  j < j' ∨ (j = j' ∧ (i < i' ∨ (i = i' ∧ (k' < k ∨ (k = k' ∧ ph = .setup ∧ ph' = .clock)))))

/-- The order in which the cursor advances during UPDATE_ALL (R38). -/
def Cursor.before : Cursor → Cursor → Prop
  | .latchOpen, .cell _ _ _ _ => True
  | .latchOpen, .latchClose => True
  | .cell _ _ _ _, .latchClose => True
  | .cell j i k ph, .cell j' i' k' ph' => cellBefore j i k ph j' i' k' ph'
  | _, _ => False

/-! ### Invariants -/

/-- No two banks of the registry have the same id (R35). -/
abbrev State.idsUnique (s : State) : Prop := (s.registry.map Bank.id).Nodup

/-- Every encoder of a bank holds the bank's bit order, and one table (R29). -/
abbrev Bank.uniform (B : Bank) : Prop :=
  (∀ E ∈ B.enc, E.bitOrder = B.bitOrder) ∧ ∀ E ∈ B.enc, ∀ E' ∈ B.enc, E.table = E'.table

/-- The registry is within the capacities (R32, R154). -/
abbrev State.withinCapacity (s : State) : Prop :=
  (∀ m, s.params.maxBanks = some m → s.registry.length ≤ m) ∧
  ∀ m, s.params.maxPositions = some m → ∀ B ∈ s.registry, B.enc.length ≤ m

/-- Only the host has put anything in the inbox: no internal operation arrives there by itself (R92). -/
abbrev State.hostDriven (s : State) : Prop := ∀ i ∈ s.inbox, ∀ t c, i ≠ .internal t c

/-- The fault, if there is one, was raised during a host command (R33). -/
abbrev State.faultByHost (s : State) : Prop :=
  ∀ f, s.fault = some f → ∃ m : Op, m.interface = .host ∧ m.code = f.op

/-- The invariant of the block as the host drives it. -/
structure State.Inv (s : State) : Prop where
  /-- R92 -/
  driven : s.hostDriven
  /-- R35 -/
  ids : s.idsUnique
  /-- R29 -/
  uniform : ∀ B ∈ s.registry, B.uniform
  /-- R32, R154 -/
  capacity : s.withinCapacity
  /-- R36 -/
  pins : s.pins = pinsAfter s.trace
  /-- R38 -/
  cursor : s.cursor = .idle
  /-- R38: one cursor for each phase -/
  steps : s.cursorLog.length = s.trace.length
  /-- R23 -/
  distinct : s.cfg.pinsDistinct
  /-- R33 -/
  faultOp : s.faultByHost
  /-- the value space keeps its canonical form -/
  memory : s.values.wf

/-- A value the host's integer type can hold (R51, `VALUE_MIN`, `VALUE_MAX`). -/
abbrev inRange (p : Params) (v : Int) : Prop :=
  (∀ m, p.valueMin = some m → m ≤ v) ∧ ∀ m, p.valueMax = some m → v ≤ m

/-- A write gives a variable of the type `Handle` a value of the host's integer type (R7, R51). -/
abbrev HostWrite.typed (p : Params) (w : HostWrite) : Prop :=
  ∀ h v, w = .set h v → p.isHandle h = true ∧ inRange p v

/-- The bank's id and source are values of their types (R7, R26). -/
abbrev Bank.typed (p : Params) (B : Bank) : Prop :=
  p.isId B.id = true ∧ ∀ h, B.source = some h → p.isHandle h = true

/-- Everything that comes of the host is of its types: the ids and sources of the banks (`Id`, `Handle`), its variables, and
what it will write or a read will draw (R7, R51, R58). What ids and handles its commands may carry is the decoder's to
check (R90). -/
structure State.HostTyped (s : State) : Prop where
  banks : ∀ B ∈ s.registry, B.typed s.params
  values : ∀ e ∈ s.values, s.params.isHandle e.1 = true ∧ inRange s.params e.2
  writes : ∀ f ∈ s.interference, ∀ w ∈ f.writes, w.typed s.params
  draws : ∀ f ∈ s.interference, ∀ v, f.torn = some v → inRange s.params v
  inbox : ∀ w, Input.hostWrite w ∈ s.inbox → w.typed s.params

/-! ### Other names for ids, handles and pins (R7) -/

/-- Other names for the host's ids, its handles and the platform's pins, of types `Id` and `Handle` with other last
values: any that keep different ones different. R7 leaves these types OPEN, and a claim that holds under every renaming
leans on none of the names (log 1). -/
structure Renaming where
  idMax : Option Id
  handleMax : Option Handle
  onId : Id → Id
  onHandle : Handle → Handle
  onPin : Pin → Pin
  id_injective : ∀ a b, onId a = onId b → a = b
  handle_injective : ∀ a b, onHandle a = onHandle b → a = b
  pin_injective : ∀ a b, onPin a = onPin b → a = b

namespace Renaming

variable (ρ : Renaming)

def operand : Operand → Operand
  | .key id => .key (ρ.onId id)
  | .int z => .int z
  | .ref r => .ref (r.map ρ.onHandle)
  | .table t => .table t
  | .bool b => .bool b
  | .order bo => .order bo
  | .other => .other

def record (c : RawCommand) : RawCommand := { op := c.op, operands := c.operands.map ρ.operand }

def instr : Instr → Instr
  | .addBank id n ref table => .addBank (ρ.onId id) n (ref.map ρ.onHandle) table
  | .insertBank id n index ref table => .insertBank (ρ.onId id) n index (ref.map ρ.onHandle) table
  | .replaceBank id n ref table => .replaceBank (ρ.onId id) n (ref.map ρ.onHandle) table
  | .removeBank id => .removeBank (ρ.onId id)
  | .clearAll => .clearAll
  | .setBitOrder id order => .setBitOrder (ρ.onId id) order
  | .enableBank id enabled => .enableBank (ρ.onId id) enabled
  | .setSource id ref => .setSource (ρ.onId id) (ref.map ρ.onHandle)
  | .updateAll => .updateAll
  | .printAll => .printAll
  | .encUpdate d => .encUpdate d
  | .encOff => .encOff
  | .encSetBitOrder bo => .encSetBitOrder bo
  | .encGetBitOrder => .encGetBitOrder
  | .bankUpdate => .bankUpdate
  | .bankGetBitOrder => .bankGetBitOrder
  | .bankSetBitOrder bo => .bankSetBitOrder bo
  | .bankSetEnabled enabled => .bankSetEnabled enabled
  | .bankSetSource ref => .bankSetSource (ref.map ρ.onHandle)

def bank (B : Bank) : Bank := { B with id := ρ.onId B.id, source := B.source.map ρ.onHandle }

def write : HostWrite → HostWrite
  | .set h v => .set (ρ.onHandle h) v
  | .destroy h => .destroy (ρ.onHandle h)

/-- The host's variables under their new handles, in canonical form again. -/
def values (m : Memory) : Memory := m.foldr (fun e acc => acc.write (ρ.onHandle e.1) e.2) []

def interference (f : Interference) : Interference := { f with writes := f.writes.map ρ.write }

def args (a : ConstructArgs) : ConstructArgs :=
  { a with dataPin := a.dataPin.map ρ.onPin, clockPin := a.clockPin.map ρ.onPin, latchPin := a.latchPin.map ρ.onPin }

def input : Input → Input
  | .command c => .command (ρ.record c)
  | .internal t c => .internal t (ρ.record c)
  | .construct a => .construct (ρ.args a)
  | .hostWrite w => .hostWrite (ρ.write w)

def result : Result → Result
  | .nothing => .nothing
  | .index n => .index n
  | .listing l => .listing (l.map fun e => (e.1, ρ.onId e.2.1, e.2.2))
  | .order bo => .order bo
  | .status st => .status st

def cfg (c : Cfg) : Cfg :=
  { c with dataPin := ρ.onPin c.dataPin, clockPin := ρ.onPin c.clockPin, latchPin := ρ.onPin c.latchPin }

def params (p : Params) : Params :=
  { p with
    idMax := ρ.idMax
    handleMax := ρ.handleMax
    dataPin := ρ.onPin p.dataPin
    clockPin := ρ.onPin p.clockPin
    latchPin := ρ.onPin p.latchPin }

/-- The new names stand for values of the new types exactly where the old ones did for values of the old (R7). -/
abbrev fits (p : Params) : Prop :=
  (∀ a, (ρ.params p).isId (ρ.onId a) = p.isId a) ∧ ∀ a, (ρ.params p).isHandle (ρ.onHandle a) = p.isHandle a

/-- The state with every id, handle and pin under its new name, and nothing else changed. -/
def state (s : State) : State :=
  { s with
    cfg := ρ.cfg s.cfg
    registry := s.registry.map ρ.bank
    params := ρ.params s.params
    values := ρ.values s.values
    interference := s.interference.map ρ.interference
    inbox := s.inbox.map ρ.input
    result := ρ.result s.result }

def outcome : Outcome → Outcome
  | .next s => .next (ρ.state s)
  | .fault f => .fault f
  | .refused r => .refused r

end Renaming

end Sys2Proof.Machine
end

