-- ==== Sys2Proof/Certificates/Slice0/Obligations.lean ====
section
/-!
DEFINITION. The statements for the provers. Each docstring names the rules of spec/ it formalises. A state is any state,
reached or not, unless a hypothesis says otherwise. `{ s with … }` as a next state says that every other field is
unchanged: it is the frame. The chain (log 5), the port of the last result (log 10) and the recorded cursors (log 11) are
fields of the model's own: what a statement says of them is the model's choice, whatever rules it names.
-/

open Sys2Proof Sys2Proof.Machine

/-! ### The command interface -/

/-- R81, R82: no operand is dropped or changed on the way through the record and back, for every instruction and every
value of its operands, whatever the OPEN types of ids and handles are (R7). -/
def Obligations.DecodeOfEncodeGivesInstruction : Prop :=
  ∀ (p : Params) (i : Instr), i.typed p = true → decode p i.interface (encode i) = .ok i

/-- After R80, R82: each accepted record stands for one instruction, performed on the interface its code belongs to. (That
its id and handle are values of their types, others being refused, is read by inference from R81 and R90, log 1.) -/
def Obligations.EncodeOfDecodeGivesRecord : Prop :=
  ∀ (p : Params) (f : Interface) (c : RawCommand) (i : Instr), decode p f c = .ok i →
    encode i = c ∧ i.interface = f ∧ i.typed p = true

/-- After R90: on the host interface a record to which one of the grounds of R90 applies sets the refusal mark and changes
nothing else (it is taken from the inbox); any other is performed. (That an id or a handle outside its type is an operand
of the wrong kind is read by inference, log 1; the inbox is the model's choice, log 7.) -/
def Obligations.IllFormedCommandIsRefused : Prop :=
  ∀ (s : State) (c : RawCommand) (rest : List Input), s.isOpen → s.inbox = .command c :: rest →
    (c.wellFormed s.params .host = false → step s = .next { s with inbox := rest, refused := true }) ∧
    (c.wellFormed s.params .host = true →
      ∃ i : Instr, i.interface = .host ∧ i.typed s.params = true ∧ encode i = c ∧ step s = exec i { s with inbox := rest })

/-- R82, R94: records and a table word written out from the spec decode to the commands they stand for: the example of
R94, a command of each family, and a code out of place. -/
def Obligations.SpecRecordsDecode : Prop :=
  decode Config.params .host { op := 0x01#8, operands := [.key 7, .int 3, .ref (some 0), .table none] } =
      .ok (.addBank 7 3 (some 0) none) ∧
    decode Config.params .host { op := 0x02#8, operands := [.key 7, .int 2, .int 5, .ref none, .table (some [1])] } =
      .ok (.insertBank 7 2 5 none (some [0x01#8])) ∧
    decode Config.params .host { op := 0x06#8, operands := [.key 7, .int 0] } = .ok (.setBitOrder 7 0) ∧
    decode Config.params .host { op := 0x09#8, operands := [] } = .ok .updateAll ∧
    decode Config.params .block { op := 0x80#8, operands := [.int 2] } = .ok (.encUpdate 2) ∧
    decode Config.params .block { op := 0x93#8, operands := [.bool false] } = .ok (.bankSetEnabled false) ∧
    decode Config.params .host { op := 0x80#8, operands := [.int 2] } = .error .wrongInterface ∧
    decodeTableWord 8 0x0B = none

/-- R94: the written form of ADD_BANK, with its trailing table omitted or written `default`, and the source's method name
as an alias. -/
def Obligations.TrailingTableMayBeOmitted : Prop :=
  ∀ (id : Id) (n : Nat) (h : Handle),
    assemble "ADD_BANK" [.name id, .num n, .handle h] = some (encode (.addBank id n (some h) none)) ∧
    assemble "addBank" [.name id, .num n, .handle h, .default] = some (encode (.addBank id n (some h) none))

/-! ### Steps -/

/-- R61, R80: a step takes the oldest input; when it is a record that decodes, the step is exec of the instruction at the
state with the input taken (and, for an internal operation, aimed at its target). (The inbox, and internal operations as
inputs, are the model's choice, log 7 and log 8.) -/
def Obligations.StepPerformsDecodedCommand : Prop :=
  ∀ (s : State) (c : RawCommand) (i : Instr) (rest : List Input), s.isOpen →
    (s.inbox = .command c :: rest → decode s.params .host c = .ok i → step s = exec i { s with inbox := rest }) ∧
    (∀ t : Target, s.inbox = .internal t c :: rest → decode s.params .block c = .ok i →
      step s = exec i { s with inbox := rest, target := t })

/-- Every row of the opcode table runs as the very next step wherever its word is placed (the model's own placement of a
word, log 6 and log 8, so derived). -/
def Obligations.TableWordRunsNext : Prop :=
  ∀ (s : State) (m : Op), s.isOpen →
    ∃ (i : Instr) (u t : State), decodeTableWord 8 m.code.toNat = some i ∧ i.op = m ∧
      step (s.withFetchWord 8 m.code.toNat) = exec i u ∧ exec i u = .next t

/-- R151: a host command is performed exactly when there is no fault and no refusal; otherwise there is no step for it. -/
def Obligations.HostCommandRunsExactlyWhenOpen : Prop :=
  ∀ (i : Instr) (s : State), i.interface = .host →
    ((s.fault = none ∧ s.refused = false) → ∃ t, exec i s = .next t) ∧
    (¬ (s.fault = none ∧ s.refused = false) → ∀ t, exec i s ≠ .next t)

/-- R224: with no input to come the block does nothing by itself (that waiting is a step which changes nothing is the
model's choice, log 7). -/
def Obligations.IdleBlockWaits : Prop :=
  ∀ s : State, s.isOpen → s.inbox = [] → step s = .next s

/-! ### Segment encoder -/

/-- R100, R102, R107: ENC_UPDATE on the target encoder. A digit in `0..9` puts its pattern on the wire, bit 7 first,
sixteen phases; the encoder is not written and no LATCH phase is emitted. -/
def Obligations.EncUpdateSerialisesPattern : Prop :=
  ∀ (s : State) (B : Bank) (E : Encoder) (d : Int) (p : Byte), s.isOpen → s.targetBank = some B →
    B.enc[s.target.position]? = some E → 0 ≤ d → E.table.toList[d.toNat]? = some p →
    ∃ log : List Cursor, log.length = 16 ∧
      exec (.encUpdate d) s = .next
        { s with
          trace := s.trace ++ bytePhases p
          pins := { data := some (Level.ofBit (p.getLsbD 0)), clock := some .high, latch := s.pins.latch }
          chain := { sh := stagesAfter [p] s.chain.sh, q := s.chain.q }
          cursor := .idle
          cursorLog := s.cursorLog ++ log
          result := .nothing }

/-- R102: a digit outside `0..9` faults before any phase. (Under which code an operation performed by itself records its
fault is the model's choice, log 8; the idle cursor after a fault is read by inference, log 11.) -/
def Obligations.EncUpdateBadDigitFaults : Prop :=
  ∀ (s : State) (B : Bank) (E : Encoder) (d : Int), s.isOpen → s.targetBank = some B →
    B.enc[s.target.position]? = some E → (d < 0 ∨ 10 ≤ d) →
    exec (.encUpdate d) s = .next (s.faulted .badDigitIndex 0x80#8)

/-- R103, R107: ENC_OFF puts eight zero bits on the wire, whatever the table. -/
def Obligations.EncOffSerialisesZeroes : Prop :=
  ∀ (s : State) (B : Bank) (E : Encoder), s.isOpen → s.targetBank = some B →
    B.enc[s.target.position]? = some E →
    ∃ log : List Cursor, log.length = 16 ∧
      exec .encOff s = .next
        { s with
          trace := s.trace ++ [.setup false, .clock, .setup false, .clock, .setup false, .clock, .setup false, .clock,
            .setup false, .clock, .setup false, .clock, .setup false, .clock, .setup false, .clock]
          pins := { data := some .low, clock := some .high, latch := s.pins.latch }
          chain := { sh := stagesAfter [0#8] s.chain.sh, q := s.chain.q }
          cursor := .idle
          cursorLog := s.cursorLog ++ log
          result := .nothing }

/-- R104, R106: ENC_SET_BIT_ORDER stores the order in the target encoder and nowhere else; ENC_GET_BIT_ORDER returns
what is stored. -/
def Obligations.EncBitOrderIsStoredAndRead : Prop :=
  ∀ (s : State) (pre post : List Bank) (B : Bank) (front back : List Encoder) (E : Encoder) (bo : BitOrder),
    s.isOpen → s.registry = pre ++ B :: post → B.enc = front ++ E :: back →
    s.target = { bank := pre.length, position := front.length } →
    exec (.encSetBitOrder bo) s = .next
        (s.withRegistry
          (pre ++ { B with enc := front ++ { table := E.table, bitOrder := bo } :: back } :: post)) ∧
      exec .encGetBitOrder s = .next { s with cursor := .idle, result := .order E.bitOrder }

/-- R101, R105, R142: no operation that emits phases reads a stored bit order: on two registries that differ only in
stored bit orders it does the same. -/
def Obligations.SerialisationIgnoresBitOrder : Prop :=
  ∀ (i : Instr) (s t : State) (R : List Bank),
    (i = .updateAll ∨ i = .bankUpdate ∨ i = .encOff ∨ ∃ d, i = .encUpdate d) →
    R.map Bank.forgetOrders = s.registry.map Bank.forgetOrders →
    exec i s = .next t → exec i { s with registry := R } = .next { t with registry := R }

/-! ### Display bank -/

/-- R124, R125, R126, in the order of R123: the outcomes of BANK_UPDATE that do not read the watched value, whatever the
host does meanwhile: zero positions fails even when disabled, disabled blanks every position and succeeds whatever the
source, enabled without a source fails. -/
def Obligations.BankUpdateWithoutReading : Prop :=
  ∀ (s : State) (B : Bank), s.isOpen → s.targetBank = some B →
    (B.enc = [] →
      exec .bankUpdate s = .next { s with cursor := .idle, result := .status .configurationError }) ∧
    (B.enc ≠ [] → B.enabled = false →
      ∃ log : List Cursor, log.length = 16 * B.enc.length ∧
        exec .bankUpdate s = .next
          { s with
            trace := s.trace ++ streamPhases (List.replicate B.enc.length 0#8)
            pins := { data := some .low, clock := some .high, latch := s.pins.latch }
            chain := { sh := stagesAfter (List.replicate B.enc.length 0#8) s.chain.sh, q := s.chain.q }
            cursor := .idle
            cursorLog := s.cursorLog ++ log
            result := .status .ok }) ∧
    (B.enc ≠ [] → B.enabled = true → B.source = none →
      exec .bankUpdate s = .next { s with cursor := .idle, result := .status .missingSourceError })

/-- R75, R128 to R131: an enabled, bound bank with a non-negative value drives position `i` with digit
`(V div 10^i) mod 10`, zero-padded, position 0 first, and reports overflow exactly when `V >= 10^N`, after driving all
positions; the host is quiet (R229). -/
def Obligations.BankUpdateShowsDigits : Prop :=
  ∀ (s : State) (B : Bank) (h : Handle) (V : Nat), s.isOpen → s.hostQuiet → s.targetBank = some B →
    B.enc ≠ [] → B.enabled = true → B.source = some h → s.values.read h = some (Int.ofNat V) →
    ∃ (ps : List Byte) (log : List Cursor),
      ps.length = B.enc.length ∧
      (∀ (i : Nat) (E : Encoder), B.enc[i]? = some E → ps[i]? = E.table.toList[V / 10 ^ i % 10]?) ∧
      log.length = 16 * B.enc.length ∧
      exec .bankUpdate s = .next
        { s with
          trace := s.trace ++ streamPhases ps
          pins := pinsWith ps s.pins
          chain := { sh := stagesAfter ps s.chain.sh, q := s.chain.q }
          cursor := .idle
          cursorLog := s.cursorLog ++ log
          result := .status (if 10 ^ B.enc.length ≤ V then .overflowError else .ok) }

/-- R53, R127: a dead handle or a negative value faults before any phase. (The code it records when performed by itself is
the model's choice, log 8; the idle cursor after a fault is read by inference, log 11.) -/
def Obligations.BankUpdateReadFaults : Prop :=
  ∀ (s : State) (B : Bank) (h : Handle), s.isOpen → s.hostQuiet → s.targetBank = some B →
    B.enc ≠ [] → B.enabled = true → B.source = some h →
    (s.values.read h = none → exec .bankUpdate s = .next (s.faulted .danglingSource 0x90#8)) ∧
    (∀ V : Int, s.values.read h = some V → V < 0 →
      exec .bankUpdate s = .next (s.faulted .negativeValue 0x90#8))

/-- R51, R58, R62: the value is read at the instant of the update: the host's writes up to it count, and a read that a
host write overlaps gives the value drawn, which the variable need not hold before or after. (The host's writes as part of
the state are the model's choice, log 9 and log 15.) -/
def Obligations.BankReadsAtItsInstant : Prop :=
  ∀ (s : State) (B : Bank) (h : Handle) (f : Interference) (rest : List Interference), s.isOpen →
    s.targetBank = some B → B.enc ≠ [] → B.enabled = true → B.source = some h → s.interference = f :: rest →
    (f.torn = none →
      ∃ t, exec .bankUpdate { s with values := s.values.applyAll f.writes, interference := [] } = .next t ∧
        exec .bankUpdate s = .next { t with interference := rest }) ∧
    (∀ x v : Int, f.torn = some x → (s.values.applyAll f.writes).read h = some v →
      ∃ t, exec .bankUpdate
          { s with values := (s.values.applyAll f.writes).write h x, interference := [] } = .next t ∧
        exec .bankUpdate s = .next { t with values := s.values.applyAll f.writes, interference := rest })

/-- R52: a bank update reads at most once, and not when the bank has no position, is disabled or has no source; no
operation but BANK_UPDATE and UPDATE_ALL reads the value space (each read uses up one entry of the host's interference,
log 9). -/
def Obligations.OnlyBankUpdatesRead : Prop :=
  ∀ (i : Instr) (s t : State), exec i s = .next t →
    (i ≠ .updateAll → i ≠ .bankUpdate → t.values = s.values ∧ t.interference = s.interference) ∧
    (i = .bankUpdate → ∀ B, s.targetBank = some B →
      t.interference = s.interference.drop (if B.readsSource then 1 else 0))

/-- After R134 (of which it is the case of two updates in a row): BANK_UPDATE writes no field of any bank, and a second one
right after the first, on a value the host leaves alone, emits the same phases and returns the same status. -/
def Obligations.BankUpdateIsProjection : Prop :=
  ∀ s t : State, exec .bankUpdate s = .next t →
    t.registry = s.registry ∧
    (s.hostQuiet → t.fault = none →
      ∃ (u : State) (es : List Phase), exec .bankUpdate t = .next u ∧ t.trace = s.trace ++ es ∧
        u.trace = t.trace ++ es ∧ u.result = t.result)

/-- R140, R141, R143, R144: the bank's getter and setters, performed on the target bank: what each writes and that it
writes nothing else. -/
def Obligations.BankSettersWriteTheirField : Prop :=
  ∀ (s : State) (pre post : List Bank) (B : Bank), s.isOpen → s.registry = pre ++ B :: post →
    s.target.bank = pre.length →
    exec .bankGetBitOrder s = .next { s with cursor := .idle, result := .order B.bitOrder } ∧
    (∀ bo, exec (.bankSetBitOrder bo) s = .next
      (s.withRegistry
        (pre ++ { B with bitOrder := bo, enc := B.enc.map fun E => { table := E.table, bitOrder := bo } } :: post))) ∧
    (∀ e, exec (.bankSetEnabled e) s = .next (s.withRegistry (pre ++ { B with enabled := e } :: post))) ∧
    (∀ r, exec (.bankSetSource r) s = .next (s.withRegistry (pre ++ { B with source := r } :: post)))

/-! ### Registry commands -/

/-- After R152, R153, R154, R196, with the creation of R120: ADD_BANK. (A registry longer than MAX_BANKS counts as full too,
as R154 says in words, where the pseudocode of R152 tests equality: read by inference, log 12; so is the idle cursor
after a fault, log 11.) -/
def Obligations.AddBankAppends : Prop :=
  ∀ (s : State) (id : Id) (n : Nat) (ref : Option Handle) (table : Option (List Byte)), s.isOpen →
    (¬ tableLegal table → exec (.addBank id n ref table) s = .next (s.faulted .badTable 0x01#8)) ∧
    (tableLegal table → ¬ positionsLegal s.params n →
      exec (.addBank id n ref table) s = .next (s.faulted .capacity 0x01#8)) ∧
    (tableLegal table → positionsLegal s.params n → idPresent s.registry id →
      exec (.addBank id n ref table) s = .next s.untouched) ∧
    (tableLegal table → positionsLegal s.params n → ¬ idPresent s.registry id → ¬ roomFor s.params s.registry →
      exec (.addBank id n ref table) s = .next (s.faulted .capacity 0x01#8)) ∧
    (tableLegal table → positionsLegal s.params n → ¬ idPresent s.registry id → roomFor s.params s.registry →
      ∃ T, tableChosen s.cfg T table ∧
        exec (.addBank id n ref table) s = .next
          (s.withRegistry
            (s.registry ++
              [{ id := id, enc := List.replicate n { table := T, bitOrder := .msbFirst }, source := ref,
                 bitOrder := .msbFirst, enabled := true }])))

/-- After R155, R154, R196, and R156: INSERT_BANK; the index is checked first, and an index equal to the length appends. (A
registry longer than MAX_BANKS counts as full too, as R154 says in words, where the pseudocode of R155 tests equality:
read by inference, log 12; so is the idle cursor after a fault, log 11.) -/
def Obligations.InsertBankInserts : Prop :=
  ∀ (s : State) (id : Id) (n index : Nat) (ref : Option Handle) (table : Option (List Byte)), s.isOpen →
    (s.registry.length < index →
      exec (.insertBank id n index ref table) s = .next (s.faulted .indexError 0x02#8)) ∧
    (index ≤ s.registry.length →
      (¬ tableLegal table → exec (.insertBank id n index ref table) s = .next (s.faulted .badTable 0x02#8)) ∧
      (tableLegal table → ¬ positionsLegal s.params n →
        exec (.insertBank id n index ref table) s = .next (s.faulted .capacity 0x02#8)) ∧
      (tableLegal table → positionsLegal s.params n → idPresent s.registry id →
        exec (.insertBank id n index ref table) s = .next s.untouched) ∧
      (tableLegal table → positionsLegal s.params n → ¬ idPresent s.registry id → ¬ roomFor s.params s.registry →
        exec (.insertBank id n index ref table) s = .next (s.faulted .capacity 0x02#8)) ∧
      (tableLegal table → positionsLegal s.params n → ¬ idPresent s.registry id → roomFor s.params s.registry →
        ∀ pre post : List Bank, s.registry = pre ++ post → pre.length = index →
          ∃ T, tableChosen s.cfg T table ∧
            exec (.insertBank id n index ref table) s = .next
              (s.withRegistry
                (pre ++
                  { id := id, enc := List.replicate n { table := T, bitOrder := .msbFirst }, source := ref,
                    bitOrder := .msbFirst, enabled := true } :: post))))

/-- After R158, R153, R154: REPLACE_BANK puts a new bank in the place of the first match; the new bank takes the old one's
place and id and none of its other fields. (The idle cursor after a fault is read by inference, log 11.) -/
def Obligations.ReplaceBankSubstitutes : Prop :=
  ∀ (s : State) (id : Id) (n : Nat) (ref : Option Handle) (table : Option (List Byte)), s.isOpen →
    (¬ tableLegal table → exec (.replaceBank id n ref table) s = .next (s.faulted .badTable 0x03#8)) ∧
    (tableLegal table → ¬ positionsLegal s.params n →
      exec (.replaceBank id n ref table) s = .next (s.faulted .capacity 0x03#8)) ∧
    (tableLegal table → positionsLegal s.params n → ¬ idPresent s.registry id →
      exec (.replaceBank id n ref table) s = .next s.untouched) ∧
    (tableLegal table → positionsLegal s.params n →
      ∀ (pre post : List Bank) (B : Bank), s.registry = pre ++ B :: post → B.id = id → firstOf pre B →
        ∃ T, tableChosen s.cfg T table ∧
          exec (.replaceBank id n ref table) s = .next
            (s.withRegistry
              (pre ++
                { id := id, enc := List.replicate n { table := T, bitOrder := .msbFirst }, source := ref,
                  bitOrder := .msbFirst, enabled := true } :: post)))

/-- R159: REMOVE_BANK deletes the first match, and does nothing when there is none. -/
def Obligations.RemoveBankDeletesFirstMatch : Prop :=
  ∀ (s : State) (id : Id), s.isOpen →
    (¬ idPresent s.registry id → exec (.removeBank id) s = .next s.untouched) ∧
    (∀ (pre post : List Bank) (B : Bank), s.registry = pre ++ B :: post → B.id = id → firstOf pre B →
      exec (.removeBank id) s = .next (s.withRegistry (pre ++ post)))

/-- R160: CLEAR_ALL empties the registry and touches nothing else. -/
def Obligations.ClearAllEmptiesRegistry : Prop :=
  ∀ s : State, s.isOpen →
    exec .clearAll s = .next { s with registry := [], cursor := .idle, result := .nothing }

/-- R161: SET_BIT_ORDER stores the order of a code 1 or 0 in the first match and all its encoders; another code or an
absent id does nothing. -/
def Obligations.SetBitOrderStoresInFirstMatch : Prop :=
  ∀ (s : State) (id : Id) (order : Int), s.isOpen →
    (¬ idPresent s.registry id ∨ (order ≠ 0 ∧ order ≠ 1) →
      exec (.setBitOrder id order) s = .next s.untouched) ∧
    (∀ (pre post : List Bank) (B : Bank) (bo : BitOrder), s.registry = pre ++ B :: post → B.id = id →
      firstOf pre B → (order = 1 ∧ bo = .msbFirst ∨ order = 0 ∧ bo = .lsbFirst) →
      exec (.setBitOrder id order) s = .next
        (s.withRegistry
          (pre ++ { B with bitOrder := bo, enc := B.enc.map fun E => { table := E.table, bitOrder := bo } } ::
            post)))

/-- R162: ENABLE_BANK sets the flag of the first match; an absent id does nothing. -/
def Obligations.EnableBankSetsFlag : Prop :=
  ∀ (s : State) (id : Id) (e : Bool), s.isOpen →
    (¬ idPresent s.registry id → exec (.enableBank id e) s = .next s.untouched) ∧
    (∀ (pre post : List Bank) (B : Bank), s.registry = pre ++ B :: post → B.id = id → firstOf pre B →
      exec (.enableBank id e) s = .next (s.withRegistry (pre ++ { B with enabled := e } :: post)))

/-- R163: SET_SOURCE rebinds or unbinds the first match and reads no value; an absent id does nothing. -/
def Obligations.SetSourceRebinds : Prop :=
  ∀ (s : State) (id : Id) (ref : Option Handle), s.isOpen →
    (¬ idPresent s.registry id → exec (.setSource id ref) s = .next s.untouched) ∧
    (∀ (pre post : List Bank) (B : Bank), s.registry = pre ++ B :: post → B.id = id → firstOf pre B →
      exec (.setSource id ref) s = .next (s.withRegistry (pre ++ { B with source := ref } :: post)))

/-- R171: PRINT_ALL returns index, id and position count of each bank, in increasing index, and writes nothing. -/
def Obligations.PrintAllListsRegistry : Prop :=
  ∀ s : State, s.isOpen →
    ∃ l : List (Nat × Id × Nat), l.length = s.registry.length ∧
      (∀ (i : Nat) (B : Bank), s.registry[i]? = some B → l[i]? = some (i, B.id, B.enc.length)) ∧
      exec .printAll s = .next { s with cursor := .idle, result := .listing l }

/-! ### The latch-gated chain update -/

/-- R76, R164, R165, R166, with R75 for each bank: while the host is quiet and no bank faults, UPDATE_ALL puts the bytes
of the banks on the wire in reverse registry order between the two LATCH phases, leaves the pins at the last of them,
shifts the chain and lets its outputs take the stages; nothing else changes but the result. -/
def Obligations.UpdateAllEmitsLatchedStream : Prop :=
  ∀ s : State, s.isOpen → s.hostQuiet → s.noBankFaults →
    ∃ (r : Nat) (log : List Cursor),
      log.length = 2 + 16 * s.updateBytes.length ∧
      exec .updateAll s = .next
        { s with
          trace := s.trace ++ [.latch s.cfg.latchActive] ++ streamPhases s.updateBytes ++
            [.latch s.cfg.latchActive.not]
          pins := { pinsWith s.updateBytes s.pins with latch := some s.cfg.latchActive.not }
          chain := { sh := stagesAfter s.updateBytes s.chain.sh, q := stagesAfter s.updateBytes s.chain.sh }
          cursor := .idle
          cursorLog := s.cursorLog ++ log
          result := .index r }

/-- R167, R168: the result is 0 when no bank fails, else the index of the last bank in traversal order that failed,
counted as `FAIL_INDEX_BASIS` says. -/
def Obligations.UpdateAllReturnsLastFailure : Prop :=
  ∀ s : State, s.isOpen → s.hostQuiet → s.noBankFaults →
    ((∀ o ∈ s.outcomes, o.fails = false) →
      ∃ t, exec .updateAll s = .next t ∧ t.result = .index 0) ∧
    (∀ j, lastFailure s.outcomes j →
      ∃ t, exec .updateAll s = .next t ∧
        (s.params.failIndexBasis = .traversalPosition → t.result = .index j) ∧
        (s.params.failIndexBasis = .registryIndex → t.result = .index (s.registry.length - 1 - j)))

/-- After R195, R197, R199, and for the chain R210, R211: the first bank in traversal order that faults ends UPDATE_ALL: the
phases of the banks before it stand, none of its own is emitted, the latch bracket stays open and nothing is returned.
(The idle cursor after a fault is read by inference, log 11; the chain, whose stages have shifted and whose outputs are as
they were, is the model's environment, log 5.) -/
def Obligations.UpdateAllFaultLeavesBracketOpen : Prop :=
  ∀ (s : State) (pre post : List BankOutcome) (k : FaultKind), s.isOpen → s.hostQuiet →
    s.outcomes = pre ++ .faults k :: post → (∀ o ∈ pre, o.faulted = false) →
    ∃ log : List Cursor,
      exec .updateAll s = .next
        { s with
          fault := some { kind := k, op := 0x09#8 }
          trace := s.trace ++ [.latch s.cfg.latchActive] ++ streamPhases (pre.flatMap BankOutcome.bytes)
          pins := { pinsWith (pre.flatMap BankOutcome.bytes) s.pins with latch := some s.cfg.latchActive }
          chain := { sh := stagesAfter (pre.flatMap BankOutcome.bytes) s.chain.sh, q := s.chain.q }
          cursor := .idle
          cursorLog := s.cursorLog ++ log
          result := .nothing }

/-- R62, R169: each bank reads at its own turn: the host's writes that land before a bank's read show in that bank and the
banks visited after it, not in those visited before. (The host's writes as part of the state are the model's choice,
log 9 and log 15.) -/
def Obligations.UpdateAllReadsEachBankAtItsTurn : Prop :=
  ∀ s : State, s.isOpen →
    (∀ o ∈ outcomesInTurn s.values s.interference s.registry.reverse, o.faulted = false) →
    ∃ t, exec .updateAll s = .next t ∧ t.fault = none ∧ t.registry = s.registry ∧
      t.trace = s.trace ++ [.latch s.cfg.latchActive] ++
        streamPhases
          ((outcomesInTurn s.values s.interference s.registry.reverse).flatMap BankOutcome.bytes) ++
        [.latch s.cfg.latchActive.not]

/-- R165: an UPDATE_ALL that does not fault emits exactly two LATCH phases, the first before any bit and the second after
the last; no other command emits one. -/
def Obligations.LatchPhasesOnlyBracketUpdates : Prop :=
  ∀ (i : Instr) (s t : State), exec i s = .next t →
    ∃ bits : List Phase, (∀ l, Phase.latch l ∉ bits) ∧
      (i ≠ .updateAll → t.trace = s.trace ++ bits) ∧
      (i = .updateAll → t.fault = none →
        t.trace = s.trace ++ [.latch s.cfg.latchActive] ++ bits ++ [.latch s.cfg.latchActive.not]) ∧
      (i = .updateAll → t.fault ≠ none → t.trace = s.trace ++ [.latch s.cfg.latchActive] ++ bits)

/-- R237: the number of phases of an UPDATE_ALL that does not fault, whatever the values are and whatever the host does. -/
def Obligations.UpdateAllPhaseCount : Prop :=
  ∀ s t : State, exec .updateAll s = .next t → t.fault = none →
    t.trace.length = s.trace.length + 2 +
      16 * ((s.registry.filter Bank.emitsBytes).map fun B => B.enc.length).sum

/-- After R212, R170: on a chain of as many registers as bytes are emitted, register `r` shows the byte emitted `r`-th from
the end after UPDATE_ALL: the most significant position of the bank at registry index 0 is nearest the controller. (It is a
claim about what the displays show, so it rests on the informative chain of R209 to R211, which is held in the state by
the model's choice, log 5.) -/
def Obligations.ChainShowsBytesNearestLast : Prop :=
  ∀ s : State, s.isOpen → s.hostQuiet → s.noBankFaults → s.chain.sh.length = 8 * s.updateBytes.length →
    ∃ t, exec .updateAll s = .next t ∧
      ∀ (r : Nat) (p : Byte), s.updateBytes.reverse[r]? = some p → t.chain.register r = some p.toNat

/-- R38: during UPDATE_ALL the cursor only advances, stays on banks of the registry, their positions and bits 7 to 0, and
is idle again afterwards, faulted or not. (The recorded cursors, and the idle cursor after a fault, are the model's, log 11.)
-/
def Obligations.CursorOnlyAdvances : Prop :=
  ∀ s t : State, exec .updateAll s = .next t →
    t.cursor = .idle ∧
    ∃ log : List Cursor, t.cursorLog = s.cursorLog ++ log ∧ log.Pairwise Cursor.before ∧
      ∀ j i k ph, Cursor.cell j i k ph ∈ log →
        k ≤ 7 ∧ ∃ B, s.registry.reverse[j]? = some B ∧ i < B.enc.length

/-! ### Faults -/

/-- R33, R193: a fault records the code of the command that raised it, and each kind is raised only by the commands the
table of R193 names, and BANK_UPDATE when performed by itself (log 8). -/
def Obligations.FaultNamesItsCommand : Prop :=
  ∀ (i : Instr) (s t : State) (f : FaultRecord), exec i s = .next t → t.fault = some f →
    f.op = i.op.code ∧
    (f.kind = .indexError → i.op = .insertBank) ∧
    (f.kind = .badTable ∨ f.kind = .capacity →
      i.op = .addBank ∨ i.op = .insertBank ∨ i.op = .replaceBank) ∧
    (f.kind = .badDigitIndex → i.op = .encUpdate) ∧
    (f.kind = .negativeValue ∨ f.kind = .danglingSource → i.op = .updateAll ∨ i.op = .bankUpdate)

/-- R195: a command that faults leaves the registry and the configuration as they were and returns nothing; only
UPDATE_ALL can have emitted phases before it. -/
def Obligations.FaultLeavesRegistry : Prop :=
  ∀ (i : Instr) (s t : State), exec i s = .next t → t.fault ≠ none →
    t.registry = s.registry ∧ t.cfg = s.cfg ∧ t.refused = s.refused ∧ t.result = .nothing ∧
    (i ≠ .updateAll → t.trace = s.trace ∧ t.pins = s.pins ∧ t.chain = s.chain)

/-- R33, R34, R200: from a faulted or refused state the only step of the block is a new construction; a host write may
still happen to the host's own variables and changes neither mark. (That both are inputs is the model's choice, log 7 and
log 14.) -/
def Obligations.OnlyConstructionLeavesFault : Prop :=
  ∀ s t : State, ¬ s.isOpen → step s = .next t →
    (∃ a rest, s.inbox = .construct a :: rest) ∨
    (∃ w rest, s.inbox = .hostWrite w :: rest ∧
      t = { s with inbox := rest, values := s.values.apply w })

/-! ### Reset -/

/-- R220, R221, R222: a construction with distinct pins gives the block its fields after construction and drives no pin;
with two pins the same no state is produced. The host's values, the chain and the inputs to come are not the block's (what
a construction keeps, and the model's own ports after it, are the model's choice, log 14). -/
def Obligations.ConstructionGivesFreshBlock : Prop :=
  ∀ (s : State) (a : ConstructArgs) (rest : List Input) (c : Cfg), s.inbox = .construct a :: rest →
    c = { dataPin := a.dataPin.getD s.params.dataPin, clockPin := a.clockPin.getD s.params.clockPin,
          latchPin := a.latchPin.getD s.params.latchPin, latchActive := a.latchActive.getD s.params.latchActive,
          defaultTable := s.params.defaultTable } →
    (c.dataPin ≠ c.clockPin ∧ c.dataPin ≠ c.latchPin ∧ c.clockPin ≠ c.latchPin →
      step s = .next
        { s with
          cfg := c, registry := [], pins := { data := none, clock := none, latch := none }, fault := none,
          refused := false, trace := [], cursor := .idle, inbox := rest, target := { bank := 0, position := 0 },
          result := .nothing, cursorLog := [] }) ∧
    (c.dataPin = c.clockPin ∨ c.dataPin = c.latchPin ∨ c.clockPin = c.latchPin → ∀ t, step s ≠ .next t)

/-- After R220, R40: every field of the block has its value after construction. That the state after reset is a
construction without arguments, so that a second one gives it back with its ports and its environment, is the model's
choice, log 14; the default pins and level are the values log 2 names. -/
def Obligations.ResetIsConstruction : Prop :=
  State.reset.registry = [] ∧ State.reset.pins = { data := none, clock := none, latch := none } ∧
    State.reset.fault = none ∧ State.reset.refused = false ∧ State.reset.trace = [] ∧
    State.reset.cursor = .idle ∧ State.reset.cfg.defaultTable = State.reset.params.defaultTable ∧
    construct { dataPin := none, clockPin := none, latchPin := none, latchActive := none } State.reset =
      some State.reset

/-! ### Invariants and whole-machine rules -/

/-- The invariant holds after reset (that the default pins are distinct rests on the values log 2 names, which are the
model's choice). -/
def Obligations.ResetMeetsInvariant : Prop := State.reset.Inv

/-- R29, R32, R33, R35, R36, R38, R23: every step of the block as the host drives it keeps the invariant: ids unique, banks
uniform and within the capacities, pins at the levels the trace leaves, cursor idle, pins distinct, the host's value
space in canonical form. -/
def Obligations.StepKeepsInvariant : Prop :=
  ∀ s t : State, s.Inv → step s = .next t → t.Inv

/-- R7, R51: as long as the host's variables, writes and draws (log 9, log 15) are of its types, and the ids and sources of
the banks are, they stay so: no command brings in an id or a handle that is no value of its OPEN type (log 1). -/
def Obligations.StepKeepsHostTyped : Prop :=
  ∀ s t : State, s.HostTyped → step s = .next t → t.HostTyped

/-- R37: the trace only ever grows, but for a new construction. -/
def Obligations.TraceOnlyGrows : Prop :=
  ∀ s t : State, step s = .next t → (∀ a rest, s.inbox ≠ .construct a :: rest) →
    ∃ es : List Phase, t.trace = s.trace ++ es

/-- After R22: only a construction writes the configuration. (That the OPEN parameters of R7 are a record of the state which
such a step leaves alone too is the model's choice, log 2; a construction does not write them either, log 14.) -/
def Obligations.ConfigurationIsFixed : Prop :=
  ∀ s t : State, step s = .next t → (∀ a rest, s.inbox ≠ .construct a :: rest) →
    t.cfg = s.cfg ∧ t.params = s.params

/-- R224: as the host drives it, nothing happens on the pins or to the chain except by an UPDATE_ALL (a construction
forgets the pins and moves nothing). The inbox and the chain in the state are the model's choice, log 5 and log 7. -/
def Obligations.OnlyUpdatesMovePins : Prop :=
  ∀ s t : State, s.hostDriven → step s = .next t →
    (∃ c rest, s.inbox = .command c :: rest ∧ decode s.params .host c = .ok .updateAll) ∨
    (t.chain = s.chain ∧
      ((∃ a rest, s.inbox = .construct a :: rest) ∨ (t.pins = s.pins ∧ t.trace = s.trace)))

/-- R72: the order of the two pin writes of a SETUP cannot be observed: every command does the same under each
`SETUP_WRITE_ORDER`. -/
def Obligations.SetupWriteOrderUnobservable : Prop :=
  ∀ (i : Instr) (s t : State) (o : SetupWriteOrder), exec i s = .next t →
    exec i { s with params := { s.params with setupWriteOrder := o } } =
      .next { t with params := { t.params with setupWriteOrder := o } }

/-- R36, R41: no command reads the pins, the trace or the chain: whatever they hold, it appends the same phases and leaves
the same everything else. -/
def Obligations.PinsAndTraceAreNotRead : Prop :=
  ∀ (i : Instr) (s t : State) (p : Pins) (c : Chain) (tr : List Phase) (log : List Cursor), exec i s = .next t →
    ∃ (u : State) (es : List Phase) (cs : List Cursor),
      exec i { s with pins := p, chain := c, trace := tr, cursorLog := log } = .next u ∧
      t.trace = s.trace ++ es ∧ u.trace = tr ++ es ∧
      t.cursorLog = s.cursorLog ++ cs ∧ u.cursorLog = log ++ cs ∧
      t = { u with pins := t.pins, chain := t.chain, trace := t.trace, cursorLog := t.cursorLog }

/-- R7: the types of ids, handles and pin identities are OPEN, and no rule may assume anything of them but that they can
be compared: decoding, every instruction and every step do the same under any other names that keep different ones
different, of types `Id` and `Handle` with as many values or more, finite or not. (That the model names them by natural numbers, and keeps the host's variables in the order of their handles, is
the model's choice, log 1 and log 18.) -/
def Obligations.NamesAreOnlyCompared : Prop :=
  ∀ (ρ : Renaming) (s : State), ρ.fits s.params → s.values.wf →
    (∀ (f : Interface) (c : RawCommand),
      decode (ρ.params s.params) f (ρ.record c) = (decode s.params f c).map ρ.instr) ∧
    (∀ i : Instr, exec (ρ.instr i) (ρ.state s) = ρ.outcome (exec i s)) ∧
    step (ρ.state s) = ρ.outcome (step s)
end

