-- ==== Sys2Proof/Laws/Memory.lean ====
section
/-!
SUPPORT. The host's value space: a read after a write, and every operation keeps the canonical form.
-/

namespace Sys2Proof.Machine

theorem Memory.read_write_same (m : Memory) (h : Handle) (v : Int) : (m.write h v).read h = some v := by
  induction m with
  | nil => simp [Memory.write, Memory.read]
  | cons e m ih =>
    obtain ⟨k, x⟩ := e
    simp only [Memory.write]
    split
    · simp [Memory.read]
    · split
      · simp [Memory.read]
      · next h2 => simp [Memory.read, ih, Ne.symm h2]

theorem Memory.read_write_other (m : Memory) (h g : Handle) (v : Int) (hg : g ≠ h) :
    (m.write h v).read g = m.read g := by
  induction m with
  | nil => simp [Memory.write, Memory.read, hg.symm]
  | cons e m ih =>
    obtain ⟨k, x⟩ := e
    simp only [Memory.write]
    split
    · simp [Memory.read, hg.symm]
    · split
      · next h2 => subst h2; simp [Memory.read, hg.symm]
      · simp [Memory.read, ih]

/-- A handle below every listed one is not listed. -/
theorem Memory.read_below (m : Memory) (h : Handle) (hb : ∀ e ∈ m, h < e.1) : m.read h = none := by
  induction m with
  | nil => rfl
  | cons e m ih =>
    have h1 : h < e.1 := hb e List.mem_cons_self
    have h2 : e.1 ≠ h := (Nat.ne_of_lt h1).symm
    simp [Memory.read, h2]
    exact ih fun e he => hb e (List.mem_cons_of_mem _ he)

theorem Memory.read_erase_same (m : Memory) (h : Handle) (hm : m.wf) : (m.erase h).read h = none := by
  induction m with
  | nil => rfl
  | cons e m ih =>
    obtain ⟨k, x⟩ := e
    rw [Memory.wf, List.pairwise_cons] at hm
    simp only [Memory.erase]
    split
    · next h1 => subst h1; exact Memory.read_below m k hm.1
    · next h1 => simp [Memory.read, h1, ih hm.2]

theorem Memory.read_erase_other (m : Memory) (h g : Handle) (hg : g ≠ h) : (m.erase h).read g = m.read g := by
  induction m with
  | nil => rfl
  | cons e m ih =>
    obtain ⟨k, x⟩ := e
    simp only [Memory.erase]
    split
    · next h1 => subst h1; simp [Memory.read, hg.symm]
    · simp [Memory.read, ih]

theorem Memory.mem_write {m : Memory} {h : Handle} {v : Int} {e : Handle × Int} (he : e ∈ m.write h v) :
    e = (h, v) ∨ e ∈ m := by
  induction m with
  | nil => simpa [Memory.write] using he
  | cons a m ih =>
    obtain ⟨k, x⟩ := a
    simp only [Memory.write] at he
    split at he
    · simpa using he
    · split at he
      · rcases List.mem_cons.1 he with h1 | h1
        · exact .inl h1
        · exact .inr (List.mem_cons_of_mem _ h1)
      · rcases List.mem_cons.1 he with h1 | h1
        · exact .inr (h1 ▸ List.mem_cons_self)
        · exact (ih h1).imp_right (List.mem_cons_of_mem _)

theorem Memory.mem_erase {m : Memory} {h : Handle} {e : Handle × Int} (he : e ∈ m.erase h) : e ∈ m := by
  induction m with
  | nil => exact he
  | cons a m ih =>
    obtain ⟨k, x⟩ := a
    simp only [Memory.erase] at he
    split at he
    · exact List.mem_cons_of_mem _ he
    · rcases List.mem_cons.1 he with h1 | h1
      · exact h1 ▸ List.mem_cons_self
      · exact List.mem_cons_of_mem _ (ih h1)

theorem Memory.write_wf (m : Memory) (h : Handle) (v : Int) (hm : m.wf) : (m.write h v).wf := by
  induction m with
  | nil => simp [Memory.write, Memory.wf]
  | cons e m ih =>
    obtain ⟨k, x⟩ := e
    have hm' := hm
    rw [Memory.wf, List.pairwise_cons] at hm'
    simp only [Memory.write]
    split
    · next h1 =>
      refine List.pairwise_cons.2 ⟨fun e he => ?_, hm⟩
      rcases List.mem_cons.1 he with h2 | h2
      · exact h2 ▸ h1
      · exact Nat.lt_trans h1 (hm'.1 e h2)
    · split
      · next h1 => subst h1; exact List.pairwise_cons.2 ⟨hm'.1, hm'.2⟩
      · next h1 h2 =>
        refine List.pairwise_cons.2 ⟨fun e he => ?_, ih hm'.2⟩
        rcases Memory.mem_write he with h3 | h3
        · subst h3
          show k < h
          exact Nat.lt_of_le_of_ne (Nat.le_of_not_lt h1) (Ne.symm h2)
        · exact hm'.1 e h3

theorem Memory.erase_wf (m : Memory) (h : Handle) (hm : m.wf) : (m.erase h).wf := by
  induction m with
  | nil => exact hm
  | cons e m ih =>
    obtain ⟨k, x⟩ := e
    rw [Memory.wf, List.pairwise_cons] at hm
    simp only [Memory.erase]
    split
    · exact hm.2
    · exact List.pairwise_cons.2 ⟨fun e he => hm.1 e (Memory.mem_erase he), ih hm.2⟩

theorem Memory.apply_wf (m : Memory) (w : HostWrite) (hm : m.wf) : (m.apply w).wf := by
  cases w with
  | set h v => exact m.write_wf h v hm
  | destroy h => exact m.erase_wf h hm

theorem Memory.applyAll_wf (ws : List HostWrite) (m : Memory) (hm : m.wf) : (m.applyAll ws).wf := by
  induction ws generalizing m with
  | nil => exact hm
  | cons w ws ih => exact ih (m.apply w) (m.apply_wf w hm)

end Sys2Proof.Machine
end

