-- ==== Sys2Proof/Laws/State.lean ====
section
/-!
SUPPORT. What each update of State does to each field: one lemma per field per update, so that no proof unfolds a record
update.
-/

namespace Sys2Proof.Machine

/-! ### emit -/

@[simp] theorem emit_cfg (c : Cursor) (e : Phase) (s : State) : (emit c e s).cfg = s.cfg := rfl
@[simp] theorem emit_registry (c : Cursor) (e : Phase) (s : State) : (emit c e s).registry = s.registry := rfl
@[simp] theorem emit_pins (c : Cursor) (e : Phase) (s : State) : (emit c e s).pins = s.pins.after s.params.setupWriteOrder e := rfl
@[simp] theorem emit_fault (c : Cursor) (e : Phase) (s : State) : (emit c e s).fault = s.fault := rfl
@[simp] theorem emit_refused (c : Cursor) (e : Phase) (s : State) : (emit c e s).refused = s.refused := rfl
@[simp] theorem emit_trace (c : Cursor) (e : Phase) (s : State) : (emit c e s).trace = s.trace ++ [e] := rfl
@[simp] theorem emit_cursor (c : Cursor) (e : Phase) (s : State) : (emit c e s).cursor = c := rfl
@[simp] theorem emit_params (c : Cursor) (e : Phase) (s : State) : (emit c e s).params = s.params := rfl
@[simp] theorem emit_values (c : Cursor) (e : Phase) (s : State) : (emit c e s).values = s.values := rfl
@[simp] theorem emit_interference (c : Cursor) (e : Phase) (s : State) : (emit c e s).interference = s.interference := rfl
@[simp] theorem emit_chain (c : Cursor) (e : Phase) (s : State) : (emit c e s).chain = s.chain.observe s.cfg.latchActive s.pins e := rfl
@[simp] theorem emit_inbox (c : Cursor) (e : Phase) (s : State) : (emit c e s).inbox = s.inbox := rfl
@[simp] theorem emit_target (c : Cursor) (e : Phase) (s : State) : (emit c e s).target = s.target := rfl
@[simp] theorem emit_result (c : Cursor) (e : Phase) (s : State) : (emit c e s).result = s.result := rfl
@[simp] theorem emit_cursorLog (c : Cursor) (e : Phase) (s : State) : (emit c e s).cursorLog = s.cursorLog ++ [c] := rfl

/-! ### setRegistry -/

@[simp] theorem setRegistry_cfg (R : List Bank) (s : State) : (setRegistry R s).cfg = s.cfg := rfl
@[simp] theorem setRegistry_registry (R : List Bank) (s : State) : (setRegistry R s).registry = R := rfl
@[simp] theorem setRegistry_pins (R : List Bank) (s : State) : (setRegistry R s).pins = s.pins := rfl
@[simp] theorem setRegistry_fault (R : List Bank) (s : State) : (setRegistry R s).fault = s.fault := rfl
@[simp] theorem setRegistry_refused (R : List Bank) (s : State) : (setRegistry R s).refused = s.refused := rfl
@[simp] theorem setRegistry_trace (R : List Bank) (s : State) : (setRegistry R s).trace = s.trace := rfl
@[simp] theorem setRegistry_cursor (R : List Bank) (s : State) : (setRegistry R s).cursor = s.cursor := rfl
@[simp] theorem setRegistry_params (R : List Bank) (s : State) : (setRegistry R s).params = s.params := rfl
@[simp] theorem setRegistry_values (R : List Bank) (s : State) : (setRegistry R s).values = s.values := rfl
@[simp] theorem setRegistry_interference (R : List Bank) (s : State) : (setRegistry R s).interference = s.interference := rfl
@[simp] theorem setRegistry_chain (R : List Bank) (s : State) : (setRegistry R s).chain = s.chain := rfl
@[simp] theorem setRegistry_inbox (R : List Bank) (s : State) : (setRegistry R s).inbox = s.inbox := rfl
@[simp] theorem setRegistry_target (R : List Bank) (s : State) : (setRegistry R s).target = s.target := rfl
@[simp] theorem setRegistry_result (R : List Bank) (s : State) : (setRegistry R s).result = s.result := rfl
@[simp] theorem setRegistry_cursorLog (R : List Bank) (s : State) : (setRegistry R s).cursorLog = s.cursorLog := rfl

/-! ### finish -/

@[simp] theorem finish_cfg (r : Result) (s : State) : (finish r s).cfg = s.cfg := rfl
@[simp] theorem finish_registry (r : Result) (s : State) : (finish r s).registry = s.registry := rfl
@[simp] theorem finish_pins (r : Result) (s : State) : (finish r s).pins = s.pins := rfl
@[simp] theorem finish_fault (r : Result) (s : State) : (finish r s).fault = s.fault := rfl
@[simp] theorem finish_refused (r : Result) (s : State) : (finish r s).refused = s.refused := rfl
@[simp] theorem finish_trace (r : Result) (s : State) : (finish r s).trace = s.trace := rfl
@[simp] theorem finish_cursor (r : Result) (s : State) : (finish r s).cursor = .idle := rfl
@[simp] theorem finish_params (r : Result) (s : State) : (finish r s).params = s.params := rfl
@[simp] theorem finish_values (r : Result) (s : State) : (finish r s).values = s.values := rfl
@[simp] theorem finish_interference (r : Result) (s : State) : (finish r s).interference = s.interference := rfl
@[simp] theorem finish_chain (r : Result) (s : State) : (finish r s).chain = s.chain := rfl
@[simp] theorem finish_inbox (r : Result) (s : State) : (finish r s).inbox = s.inbox := rfl
@[simp] theorem finish_target (r : Result) (s : State) : (finish r s).target = s.target := rfl
@[simp] theorem finish_result (r : Result) (s : State) : (finish r s).result = r := rfl
@[simp] theorem finish_cursorLog (r : Result) (s : State) : (finish r s).cursorLog = s.cursorLog := rfl

/-! ### raiseFault -/

@[simp] theorem raiseFault_cfg (k : FaultKind) (op : Byte) (s : State) : (raiseFault k op s).cfg = s.cfg := rfl
@[simp] theorem raiseFault_registry (k : FaultKind) (op : Byte) (s : State) : (raiseFault k op s).registry = s.registry := rfl
@[simp] theorem raiseFault_pins (k : FaultKind) (op : Byte) (s : State) : (raiseFault k op s).pins = s.pins := rfl
@[simp] theorem raiseFault_fault (k : FaultKind) (op : Byte) (s : State) : (raiseFault k op s).fault = some { kind := k, op := op } := rfl
@[simp] theorem raiseFault_refused (k : FaultKind) (op : Byte) (s : State) : (raiseFault k op s).refused = s.refused := rfl
@[simp] theorem raiseFault_trace (k : FaultKind) (op : Byte) (s : State) : (raiseFault k op s).trace = s.trace := rfl
@[simp] theorem raiseFault_cursor (k : FaultKind) (op : Byte) (s : State) : (raiseFault k op s).cursor = .idle := rfl
@[simp] theorem raiseFault_params (k : FaultKind) (op : Byte) (s : State) : (raiseFault k op s).params = s.params := rfl
@[simp] theorem raiseFault_values (k : FaultKind) (op : Byte) (s : State) : (raiseFault k op s).values = s.values := rfl
@[simp] theorem raiseFault_interference (k : FaultKind) (op : Byte) (s : State) : (raiseFault k op s).interference = s.interference := rfl
@[simp] theorem raiseFault_chain (k : FaultKind) (op : Byte) (s : State) : (raiseFault k op s).chain = s.chain := rfl
@[simp] theorem raiseFault_inbox (k : FaultKind) (op : Byte) (s : State) : (raiseFault k op s).inbox = s.inbox := rfl
@[simp] theorem raiseFault_target (k : FaultKind) (op : Byte) (s : State) : (raiseFault k op s).target = s.target := rfl
@[simp] theorem raiseFault_result (k : FaultKind) (op : Byte) (s : State) : (raiseFault k op s).result = .nothing := rfl
@[simp] theorem raiseFault_cursorLog (k : FaultKind) (op : Byte) (s : State) : (raiseFault k op s).cursorLog = s.cursorLog := rfl

/-! ### refuse -/

@[simp] theorem refuse_cfg (s : State) : (refuse s).cfg = s.cfg := rfl
@[simp] theorem refuse_registry (s : State) : (refuse s).registry = s.registry := rfl
@[simp] theorem refuse_pins (s : State) : (refuse s).pins = s.pins := rfl
@[simp] theorem refuse_fault (s : State) : (refuse s).fault = s.fault := rfl
@[simp] theorem refuse_refused (s : State) : (refuse s).refused = true := rfl
@[simp] theorem refuse_trace (s : State) : (refuse s).trace = s.trace := rfl
@[simp] theorem refuse_cursor (s : State) : (refuse s).cursor = s.cursor := rfl
@[simp] theorem refuse_params (s : State) : (refuse s).params = s.params := rfl
@[simp] theorem refuse_values (s : State) : (refuse s).values = s.values := rfl
@[simp] theorem refuse_interference (s : State) : (refuse s).interference = s.interference := rfl
@[simp] theorem refuse_chain (s : State) : (refuse s).chain = s.chain := rfl
@[simp] theorem refuse_inbox (s : State) : (refuse s).inbox = s.inbox := rfl
@[simp] theorem refuse_target (s : State) : (refuse s).target = s.target := rfl
@[simp] theorem refuse_result (s : State) : (refuse s).result = s.result := rfl
@[simp] theorem refuse_cursorLog (s : State) : (refuse s).cursorLog = s.cursorLog := rfl

/-! ### takeInput -/

@[simp] theorem takeInput_cfg (rest : List Input) (s : State) : (takeInput rest s).cfg = s.cfg := rfl
@[simp] theorem takeInput_registry (rest : List Input) (s : State) : (takeInput rest s).registry = s.registry := rfl
@[simp] theorem takeInput_pins (rest : List Input) (s : State) : (takeInput rest s).pins = s.pins := rfl
@[simp] theorem takeInput_fault (rest : List Input) (s : State) : (takeInput rest s).fault = s.fault := rfl
@[simp] theorem takeInput_refused (rest : List Input) (s : State) : (takeInput rest s).refused = s.refused := rfl
@[simp] theorem takeInput_trace (rest : List Input) (s : State) : (takeInput rest s).trace = s.trace := rfl
@[simp] theorem takeInput_cursor (rest : List Input) (s : State) : (takeInput rest s).cursor = s.cursor := rfl
@[simp] theorem takeInput_params (rest : List Input) (s : State) : (takeInput rest s).params = s.params := rfl
@[simp] theorem takeInput_values (rest : List Input) (s : State) : (takeInput rest s).values = s.values := rfl
@[simp] theorem takeInput_interference (rest : List Input) (s : State) : (takeInput rest s).interference = s.interference := rfl
@[simp] theorem takeInput_chain (rest : List Input) (s : State) : (takeInput rest s).chain = s.chain := rfl
@[simp] theorem takeInput_inbox (rest : List Input) (s : State) : (takeInput rest s).inbox = rest := rfl
@[simp] theorem takeInput_target (rest : List Input) (s : State) : (takeInput rest s).target = s.target := rfl
@[simp] theorem takeInput_result (rest : List Input) (s : State) : (takeInput rest s).result = s.result := rfl
@[simp] theorem takeInput_cursorLog (rest : List Input) (s : State) : (takeInput rest s).cursorLog = s.cursorLog := rfl

/-! ### aimAt -/

@[simp] theorem aimAt_cfg (t : Target) (s : State) : (aimAt t s).cfg = s.cfg := rfl
@[simp] theorem aimAt_registry (t : Target) (s : State) : (aimAt t s).registry = s.registry := rfl
@[simp] theorem aimAt_pins (t : Target) (s : State) : (aimAt t s).pins = s.pins := rfl
@[simp] theorem aimAt_fault (t : Target) (s : State) : (aimAt t s).fault = s.fault := rfl
@[simp] theorem aimAt_refused (t : Target) (s : State) : (aimAt t s).refused = s.refused := rfl
@[simp] theorem aimAt_trace (t : Target) (s : State) : (aimAt t s).trace = s.trace := rfl
@[simp] theorem aimAt_cursor (t : Target) (s : State) : (aimAt t s).cursor = s.cursor := rfl
@[simp] theorem aimAt_params (t : Target) (s : State) : (aimAt t s).params = s.params := rfl
@[simp] theorem aimAt_values (t : Target) (s : State) : (aimAt t s).values = s.values := rfl
@[simp] theorem aimAt_interference (t : Target) (s : State) : (aimAt t s).interference = s.interference := rfl
@[simp] theorem aimAt_chain (t : Target) (s : State) : (aimAt t s).chain = s.chain := rfl
@[simp] theorem aimAt_inbox (t : Target) (s : State) : (aimAt t s).inbox = s.inbox := rfl
@[simp] theorem aimAt_target (t : Target) (s : State) : (aimAt t s).target = t := rfl
@[simp] theorem aimAt_result (t : Target) (s : State) : (aimAt t s).result = s.result := rfl
@[simp] theorem aimAt_cursorLog (t : Target) (s : State) : (aimAt t s).cursorLog = s.cursorLog := rfl

/-! ### landHostWrite -/

@[simp] theorem landHostWrite_cfg (w : HostWrite) (s : State) : (landHostWrite w s).cfg = s.cfg := rfl
@[simp] theorem landHostWrite_registry (w : HostWrite) (s : State) : (landHostWrite w s).registry = s.registry := rfl
@[simp] theorem landHostWrite_pins (w : HostWrite) (s : State) : (landHostWrite w s).pins = s.pins := rfl
@[simp] theorem landHostWrite_fault (w : HostWrite) (s : State) : (landHostWrite w s).fault = s.fault := rfl
@[simp] theorem landHostWrite_refused (w : HostWrite) (s : State) : (landHostWrite w s).refused = s.refused := rfl
@[simp] theorem landHostWrite_trace (w : HostWrite) (s : State) : (landHostWrite w s).trace = s.trace := rfl
@[simp] theorem landHostWrite_cursor (w : HostWrite) (s : State) : (landHostWrite w s).cursor = s.cursor := rfl
@[simp] theorem landHostWrite_params (w : HostWrite) (s : State) : (landHostWrite w s).params = s.params := rfl
@[simp] theorem landHostWrite_values (w : HostWrite) (s : State) : (landHostWrite w s).values = s.values.apply w := rfl
@[simp] theorem landHostWrite_interference (w : HostWrite) (s : State) : (landHostWrite w s).interference = s.interference := rfl
@[simp] theorem landHostWrite_chain (w : HostWrite) (s : State) : (landHostWrite w s).chain = s.chain := rfl
@[simp] theorem landHostWrite_inbox (w : HostWrite) (s : State) : (landHostWrite w s).inbox = s.inbox := rfl
@[simp] theorem landHostWrite_target (w : HostWrite) (s : State) : (landHostWrite w s).target = s.target := rfl
@[simp] theorem landHostWrite_result (w : HostWrite) (s : State) : (landHostWrite w s).result = s.result := rfl
@[simp] theorem landHostWrite_cursorLog (w : HostWrite) (s : State) : (landHostWrite w s).cursorLog = s.cursorLog := rfl

/-! ### pushInput -/

@[simp] theorem pushInput_cfg (i : Input) (s : State) : (pushInput i s).cfg = s.cfg := rfl
@[simp] theorem pushInput_registry (i : Input) (s : State) : (pushInput i s).registry = s.registry := rfl
@[simp] theorem pushInput_pins (i : Input) (s : State) : (pushInput i s).pins = s.pins := rfl
@[simp] theorem pushInput_fault (i : Input) (s : State) : (pushInput i s).fault = s.fault := rfl
@[simp] theorem pushInput_refused (i : Input) (s : State) : (pushInput i s).refused = s.refused := rfl
@[simp] theorem pushInput_trace (i : Input) (s : State) : (pushInput i s).trace = s.trace := rfl
@[simp] theorem pushInput_cursor (i : Input) (s : State) : (pushInput i s).cursor = s.cursor := rfl
@[simp] theorem pushInput_params (i : Input) (s : State) : (pushInput i s).params = s.params := rfl
@[simp] theorem pushInput_values (i : Input) (s : State) : (pushInput i s).values = s.values := rfl
@[simp] theorem pushInput_interference (i : Input) (s : State) : (pushInput i s).interference = s.interference := rfl
@[simp] theorem pushInput_chain (i : Input) (s : State) : (pushInput i s).chain = s.chain := rfl
@[simp] theorem pushInput_inbox (i : Input) (s : State) : (pushInput i s).inbox = i :: s.inbox := rfl
@[simp] theorem pushInput_target (i : Input) (s : State) : (pushInput i s).target = s.target := rfl
@[simp] theorem pushInput_result (i : Input) (s : State) : (pushInput i s).result = s.result := rfl
@[simp] theorem pushInput_cursorLog (i : Input) (s : State) : (pushInput i s).cursorLog = s.cursorLog := rfl

/-! ### landWrites: only the host's values and the interference still to come -/

@[simp] theorem landWrites_cfg (s : State) : (landWrites s).cfg = s.cfg := by
  unfold landWrites; split <;> rfl
@[simp] theorem landWrites_registry (s : State) : (landWrites s).registry = s.registry := by
  unfold landWrites; split <;> rfl
@[simp] theorem landWrites_pins (s : State) : (landWrites s).pins = s.pins := by
  unfold landWrites; split <;> rfl
@[simp] theorem landWrites_fault (s : State) : (landWrites s).fault = s.fault := by
  unfold landWrites; split <;> rfl
@[simp] theorem landWrites_refused (s : State) : (landWrites s).refused = s.refused := by
  unfold landWrites; split <;> rfl
@[simp] theorem landWrites_trace (s : State) : (landWrites s).trace = s.trace := by
  unfold landWrites; split <;> rfl
@[simp] theorem landWrites_cursor (s : State) : (landWrites s).cursor = s.cursor := by
  unfold landWrites; split <;> rfl
@[simp] theorem landWrites_params (s : State) : (landWrites s).params = s.params := by
  unfold landWrites; split <;> rfl
@[simp] theorem landWrites_chain (s : State) : (landWrites s).chain = s.chain := by
  unfold landWrites; split <;> rfl
@[simp] theorem landWrites_inbox (s : State) : (landWrites s).inbox = s.inbox := by
  unfold landWrites; split <;> rfl
@[simp] theorem landWrites_target (s : State) : (landWrites s).target = s.target := by
  unfold landWrites; split <;> rfl
@[simp] theorem landWrites_result (s : State) : (landWrites s).result = s.result := by
  unfold landWrites; split <;> rfl
@[simp] theorem landWrites_cursorLog (s : State) : (landWrites s).cursorLog = s.cursorLog := by
  unfold landWrites; split <;> rfl

/-- While the host is quiet nothing lands. -/
theorem landWrites_quiet (s : State) (h : s.interference = []) : landWrites s = s := by
  unfold landWrites; rw [h]

/-- While the host is quiet no read is torn. -/
theorem tornDraw_quiet (s : State) (h : s.interference = []) : tornDraw s = none := by
  unfold tornDraw; rw [h]

end Sys2Proof.Machine
end

