-- ==== Sys2Proof/Laws/Emit.lean ====
section
/-!
SUPPORT. Sequences of `Emit`: what each does to the trace, the pins and the chain, and what the states a command goes
through have in common with the state it started from (`Reaches`).
-/

namespace Sys2Proof.Machine

/-! ### One phase on the pins -/

@[simp] theorem after_setup (o : SetupWriteOrder) (p : Pins) (b : Bool) :
    p.after o (.setup b) = { p with data := some (Level.ofBit b), clock := some .low } := by
  cases o <;> rfl

@[simp] theorem after_clock (o : SetupWriteOrder) (p : Pins) :
    p.after o .clock = { p with clock := some .high } := rfl

@[simp] theorem after_latch (o : SetupWriteOrder) (p : Pins) (l : Level) :
    p.after o (.latch l) = { p with latch := some l } := rfl

/-- The order of the two pin writes of a SETUP cannot be told from the pins after it (R72). -/
theorem after_order_irrelevant (o o' : SetupWriteOrder) (p : Pins) (e : Phase) : p.after o e = p.after o' e := by
  cases e <;> simp

/-! ### Sequences of phases -/

/-- Emit events in order. -/
def emitAll (es : List (Cursor × Phase)) (s : State) : State := es.foldl (fun s e => emit e.1 e.2 s) s

@[simp] theorem emitAll_nil (s : State) : emitAll [] s = s := rfl

@[simp] theorem emitAll_cons (e : Cursor × Phase) (es : List (Cursor × Phase)) (s : State) :
    emitAll (e :: es) s = emitAll es (emit e.1 e.2 s) := rfl

theorem emitAll_append (es fs : List (Cursor × Phase)) (s : State) :
    emitAll (es ++ fs) s = emitAll fs (emitAll es s) := by
  simp [emitAll]

theorem emitAll_trace (es : List (Cursor × Phase)) (s : State) :
    (emitAll es s).trace = s.trace ++ es.map Prod.snd := by
  induction es generalizing s with
  | nil => simp
  | cons e es ih => simp [ih]

theorem emitAll_cursorLog (es : List (Cursor × Phase)) (s : State) :
    (emitAll es s).cursorLog = s.cursorLog ++ es.map Prod.fst := by
  induction es generalizing s with
  | nil => simp
  | cons e es ih => simp [ih]

/-- The pins after events (R72). -/
def pinsRun (es : List (Cursor × Phase)) (p : Pins) : Pins :=
  es.foldl (fun p e => p.after .simultaneous e.2) p

/-- The chain after events (R210, R211). -/
def chainRun (active : Level) (es : List (Cursor × Phase)) (p : Pins) (c : Chain) : Chain :=
  match es with
  | [] => c
  | e :: es => chainRun active es (p.after .simultaneous e.2) (c.observe active p e.2)

/-- Emitting events changes the five fields that record the pins, and nothing else. -/
theorem emitAll_eq (es : List (Cursor × Phase)) (s : State) :
    emitAll es s =
      { s with
        cursor := ((es.map Prod.fst).getLast?).getD s.cursor
        pins := pinsRun es s.pins
        chain := chainRun s.cfg.latchActive es s.pins s.chain
        trace := s.trace ++ es.map Prod.snd
        cursorLog := s.cursorLog ++ es.map Prod.fst } := by
  induction es generalizing s with
  | nil => simp [pinsRun, chainRun]
  | cons e es ih =>
    rw [emitAll_cons, ih]
    have hp : s.pins.after s.params.setupWriteOrder e.2 = s.pins.after .simultaneous e.2 :=
      after_order_irrelevant _ _ _ _
    have hc : ((es.map Prod.fst).getLast?).getD e.1 = (((e :: es).map Prod.fst).getLast?).getD s.cursor := by
      cases es with
      | nil => simp
      | cons f fs => simp [List.getLast?_cons]
    simp only [emit, pinsRun, chainRun, List.foldl_cons, List.map_cons, List.append_assoc, List.singleton_append, hp]
    simp only [List.map_cons] at hc
    rw [hc]

@[simp] theorem emitAll_cfg (es : List (Cursor × Phase)) (s : State) : (emitAll es s).cfg = s.cfg := by
  rw [emitAll_eq]
@[simp] theorem emitAll_registry (es : List (Cursor × Phase)) (s : State) :
    (emitAll es s).registry = s.registry := by rw [emitAll_eq]
@[simp] theorem emitAll_params (es : List (Cursor × Phase)) (s : State) : (emitAll es s).params = s.params := by
  rw [emitAll_eq]
@[simp] theorem emitAll_values (es : List (Cursor × Phase)) (s : State) : (emitAll es s).values = s.values := by
  rw [emitAll_eq]
@[simp] theorem emitAll_interference (es : List (Cursor × Phase)) (s : State) :
    (emitAll es s).interference = s.interference := by rw [emitAll_eq]

/-- The host's writes land whatever is on the pins. -/
theorem landWrites_emit (c : Cursor) (e : Phase) (s : State) : landWrites (emit c e s) = emit c e (landWrites s) := by
  unfold landWrites
  split <;> next h => simp only [emit_interference] at h; simp [h, emit]

theorem landWrites_emitAll (es : List (Cursor × Phase)) (s : State) :
    landWrites (emitAll es s) = emitAll es (landWrites s) := by
  induction es generalizing s with
  | nil => rfl
  | cons e es ih => simp [ih, landWrites_emit]

theorem tornDraw_emitAll (es : List (Cursor × Phase)) (s : State) : tornDraw (emitAll es s) = tornDraw s := by
  simp [tornDraw]

/-! ### What the states inside a command have in common with its start -/

/-- `t` is a state a command goes through from `s` by pin events and by host writes that land. -/
inductive Reaches (s : State) : State → Prop where
  | refl : Reaches s s
  | emit (c : Cursor) (e : Phase) {t : State} (h : Reaches s t) : Reaches s (emit c e t)
  | land {t : State} (h : Reaches s t) : Reaches s (landWrites t)

namespace Reaches

variable {s t u : State}

theorem trans (h : Reaches s t) (h' : Reaches t u) : Reaches s u := by
  induction h' with
  | refl => exact h
  | emit c e _ ih => exact .emit c e ih
  | land _ ih => exact .land ih

theorem emitAll (es : List (Cursor × Phase)) (h : Reaches s t) : Reaches s (emitAll es t) := by
  induction es generalizing t with
  | nil => exact h
  | cons e es ih => exact ih (.emit e.1 e.2 h)

theorem cfg (h : Reaches s t) : t.cfg = s.cfg := by
  induction h <;> simp [*]
theorem registry (h : Reaches s t) : t.registry = s.registry := by
  induction h <;> simp [*]
theorem fault (h : Reaches s t) : t.fault = s.fault := by
  induction h <;> simp [*]
theorem refused (h : Reaches s t) : t.refused = s.refused := by
  induction h <;> simp [*]
theorem params (h : Reaches s t) : t.params = s.params := by
  induction h <;> simp [*]
theorem inbox (h : Reaches s t) : t.inbox = s.inbox := by
  induction h <;> simp [*]
theorem target (h : Reaches s t) : t.target = s.target := by
  induction h <;> simp [*]
theorem result (h : Reaches s t) : t.result = s.result := by
  induction h <;> simp [*]

/-- The trace only grows, and the small-step trace with it (R37). -/
theorem trace (h : Reaches s t) :
    ∃ es : List (Cursor × Phase), t.trace = s.trace ++ es.map Prod.snd ∧
      t.cursorLog = s.cursorLog ++ es.map Prod.fst := by
  induction h with
  | refl => exact ⟨[], by simp⟩
  | emit c e _ ih =>
    obtain ⟨es, h1, h2⟩ := ih
    exact ⟨es ++ [(c, e)], by simp [h1], by simp [h2]⟩
  | land _ ih => obtain ⟨es, h1, h2⟩ := ih; exact ⟨es, by simp [h1], by simp [h2]⟩

/-- The value space keeps its canonical form. -/
theorem values_wf (h : Reaches s t) (hw : s.values.wf) : t.values.wf := by
  induction h with
  | refl => exact hw
  | emit c e _ ih => exact ih
  | @land t _ ih =>
    unfold landWrites
    split
    · exact ih
    · exact Memory.applyAll_wf _ _ ih

/-- The pins stay the levels the trace leaves (R36). -/
theorem pins (h : Reaches s t) (hp : s.pins = pinsAfter s.trace) : t.pins = pinsAfter t.trace := by
  induction h with
  | refl => exact hp
  | emit c e _ ih =>
    cases e <;> simp [ih, pinsAfter, dataAfter, clockAfter, latchAfter]
  | land _ ih => simpa using ih

end Reaches

end Sys2Proof.Machine
end

