-- ==== Sys2Proof/Laws/Serialise.lean ====
section
/-!
SUPPORT. Serialising bytes: the events of a byte and of a bank's bytes, and what they leave on the trace, the pins and
the chain (R74, R107, R210).
-/

namespace Sys2Proof.Machine

/-- The events of one byte at position `i` of the bank at traversal position `j` (R73, R74). -/
def cellEvents (j i : Nat) (p : Byte) : List (Cursor × Phase) :=
  Config.bitIndices.flatMap fun k =>
    [(.cell j i k .setup, .setup (p.getLsbD k)), (.cell j i k .clock, .clock)]

/-- The events of a bank's bytes, position `i` first (R132). -/
def byteEvents (j : Nat) : Nat → List Byte → List (Cursor × Phase)
  | _, [] => []
  | i, p :: ps => cellEvents j i p ++ byteEvents j (i + 1) ps

theorem serialise_eq (j i : Nat) (p : Byte) (s : State) : serialise j i p s = emitAll (cellEvents j i p) s := rfl

@[simp] theorem cellEvents_phases (j i : Nat) (p : Byte) : (cellEvents j i p).map Prod.snd = bytePhases p := rfl

@[simp] theorem byteEvents_phases (j i : Nat) (ps : List Byte) :
    (byteEvents j i ps).map Prod.snd = streamPhases ps := by
  induction ps generalizing i with
  | nil => rfl
  | cons p ps ih => rw [byteEvents, List.map_append, cellEvents_phases, ih]; rfl

@[simp] theorem bytePhases_length (p : Byte) : (bytePhases p).length = 16 := rfl

theorem streamPhases_length (ps : List Byte) : (streamPhases ps).length = 16 * ps.length := by
  induction ps with
  | nil => rfl
  | cons p ps ih => simp [streamPhases] at ih ⊢; omega

theorem streamPhases_append (ps qs : List Byte) : streamPhases (ps ++ qs) = streamPhases ps ++ streamPhases qs := by
  simp [streamPhases]

theorem byteEvents_length (j i : Nat) (ps : List Byte) : (byteEvents j i ps).length = 16 * ps.length := by
  rw [← streamPhases_length, ← byteEvents_phases j i ps, List.length_map]

/-! ### Pins after bytes (R107) -/

/-- The pins after bytes: those of the last bit of the last byte (R107). -/
theorem pinsRun_cell (j i : Nat) (p : Byte) (x : Pins) :
    pinsRun (cellEvents j i p) x =
      { x with data := some (Level.ofBit (p.getLsbD 0)), clock := some .high } := by
  simp [pinsRun, cellEvents, Config.bitIndices]

theorem pinsRun_append (es fs : List (Cursor × Phase)) (x : Pins) :
    pinsRun (es ++ fs) x = pinsRun fs (pinsRun es x) := by
  simp [pinsRun]

theorem pinsRun_bytes (j i : Nat) (ps : List Byte) (x : Pins) :
    pinsRun (byteEvents j i ps) x = pinsWith ps x := by
  induction ps generalizing i x with
  | nil => rfl
  | cons p ps ih =>
    rw [byteEvents, pinsRun_append, pinsRun_cell, ih]
    cases ps with
    | nil => simp [pinsWith]
    | cons q qs => simp [pinsWith, List.getLast?_cons]

theorem pinsWith_append (ps qs : List Byte) (x : Pins) : pinsWith (ps ++ qs) x = pinsWith qs (pinsWith ps x) := by
  cases qs with
  | nil => simp [pinsWith]
  | cons q qs =>
    cases ps with
    | nil => rfl
    | cons p ps => simp [pinsWith, List.getLast?_append, List.getLast?_cons]

/-- Bytes leave LATCH alone, so it may be set before or after them. -/
theorem pinsWith_latch (ps : List Byte) (x : Pins) (l : Option Level) :
    pinsWith ps { x with latch := l } = { pinsWith ps x with latch := l } := by
  unfold pinsWith
  cases ps.getLast? <;> rfl

theorem pinsWith_latch_eq (ps : List Byte) (x : Pins) : (pinsWith ps x).latch = x.latch := by
  unfold pinsWith
  cases ps.getLast? <;> rfl

/-! ### The chain after bytes (R210) -/

theorem chainRun_append (a : Level) (es fs : List (Cursor × Phase)) (x : Pins) (c : Chain) :
    chainRun a (es ++ fs) x c = chainRun a fs (pinsRun es x) (chainRun a es x c) := by
  induction es generalizing x c with
  | nil => rfl
  | cons e es ih => simp [chainRun, ih, pinsRun]

theorem take_cons_take {α : Type} (x : α) (l : List α) (n : Nat) : (x :: l.take n).take n = (x :: l).take n := by
  cases n with
  | zero => rfl
  | succ n => simp [List.take_take]

theorem take_append_take {α : Type} (l m : List α) (n : Nat) : (l ++ m.take n).take n = (l ++ m).take n := by
  induction l with
  | nil => simp
  | cons x l ih =>
    rw [List.cons_append, List.cons_append, ← take_cons_take x (l ++ m), ← ih, take_cons_take]

/-- Shifting several levels in: the last is nearest the controller (R210). -/
theorem foldl_shift (xs : List Bool) (c : Chain) :
    xs.foldl Chain.shift c = { c with sh := (xs.reverse ++ c.sh).take c.sh.length } := by
  induction xs generalizing c with
  | nil => simp
  | cons x xs ih =>
    rw [List.foldl_cons, ih]
    simp [Chain.shift, take_append_take]

@[simp] theorem toBit_ofBit (b : Bool) : (Level.ofBit b).toBit = b := by cases b <;> rfl

theorem chainRun_cell (a : Level) (j i : Nat) (p : Byte) (x : Pins) (c : Chain) :
    chainRun a (cellEvents j i p) x c = { c with sh := stagesAfter [p] c.sh } := by
  have h : chainRun a (cellEvents j i p) x c =
      (wireBits [p]).foldl Chain.shift c := by
    simp [cellEvents, Config.bitIndices, chainRun, Chain.observe, Chain.sample, wireBits]
  rw [h, foldl_shift, stagesAfter]

theorem stagesAfter_length (ps : List Byte) (sh : List Bool) : (stagesAfter ps sh).length = sh.length := by
  simp [stagesAfter]

theorem stagesAfter_append (ps qs : List Byte) (sh : List Bool) :
    stagesAfter (ps ++ qs) sh = stagesAfter qs (stagesAfter ps sh) := by
  simp only [stagesAfter, List.length_take, List.length_append, List.length_reverse]
  rw [Nat.min_eq_left (by omega), take_append_take]
  simp [wireBits]

theorem chainRun_bytes (a : Level) (j i : Nat) (ps : List Byte) (x : Pins) (c : Chain) :
    chainRun a (byteEvents j i ps) x c = { c with sh := stagesAfter ps c.sh } := by
  induction ps generalizing i x c with
  | nil => simp [byteEvents, chainRun, stagesAfter, wireBits]
  | cons p ps ih =>
    rw [byteEvents, chainRun_append, chainRun_cell, ih]
    have h := stagesAfter_append [p] ps c.sh
    simp only [List.singleton_append] at h
    rw [h]

/-! ### The state after a bank's bytes -/

theorem emitAll_bytes (j i : Nat) (ps : List Byte) (s : State) :
    emitAll (byteEvents j i ps) s =
      { s with
        cursor := (((byteEvents j i ps).map Prod.fst).getLast?).getD s.cursor
        pins := pinsWith ps s.pins
        chain := { s.chain with sh := stagesAfter ps s.chain.sh }
        trace := s.trace ++ streamPhases ps
        cursorLog := s.cursorLog ++ (byteEvents j i ps).map Prod.fst } := by
  rw [emitAll_eq, pinsRun_bytes, chainRun_bytes, byteEvents_phases]

end Sys2Proof.Machine
end

