-- ==== Sys2Proof/Laws/Bank.lean ====
section
/-!
SUPPORT. What one BANK_UPDATE does: the closed form of the digits it drives (R131), and the one lemma that says its
whole effect, whatever the host does meanwhile (`bankUpdate_eq`).
-/

namespace Sys2Proof.Machine

/-! ### Done -/

@[simp] theorem andThen_returned {α β : Type} (a : α) (s : State) (k : α → State → Done β) :
    (Done.returned a s).andThen k = k a s := rfl
@[simp] theorem andThen_raised {α β : Type} (f : FaultKind) (s : State) (k : α → State → Done β) :
    (Done.raised f s).andThen k = .raised f s := rfl
@[simp] theorem map_returned {α β : Type} (f : α → β) (a : α) (s : State) :
    (Done.returned a s).map f = .returned (f a) s := rfl
@[simp] theorem map_raised {α β : Type} (f : α → β) (k : FaultKind) (s : State) :
    (Done.raised k s : Done α).map f = .raised k s := rfl

/-! ### Digits -/

theorem digitBytes_length (V i : Nat) (es : List Encoder) : (digitBytes V i es).length = es.length := by
  induction es generalizing i with
  | nil => rfl
  | cons E es ih => simp [digitBytes, ih]

/-- Position `i + k` of a bank shows its own table's pattern of its digit (R131). -/
theorem digitBytes_get {V : Nat} {es : List Encoder} {i k : Nat} {E : Encoder} (h : es[k]? = some E) :
    (digitBytes V i es)[k]? = E.table.toList[V / 10 ^ (i + k) % 10]? := by
  induction es generalizing i k with
  | nil => simp at h
  | cons F es ih =>
    cases k with
    | zero =>
      simp only [List.getElem?_cons_zero, Option.some.injEq] at h
      subst h
      have h1 : V / 10 ^ i % 10 < F.table.toList.length := by simp; exact Nat.mod_lt _ (by decide)
      simp only [digitBytes, digitAt, List.getElem?_cons_zero, Nat.add_zero, List.getD_eq_getElem?_getD]
      rw [List.getElem?_eq_getElem h1]
      rfl
    | succ k =>
      simp only [List.getElem?_cons_succ] at h
      simp only [digitBytes, List.getElem?_cons_succ, ih h]
      rw [show i + 1 + k = i + (k + 1) by omega]

/-- A digit below ten has its pattern (R102). -/
theorem patternOf_digit (t : DigitTable) (d : Nat) (hd : d < 10) :
    patternOf t (Int.ofNat d) = some (t.toList.getD d 0#8) := by
  have h0 : ¬ (Int.ofNat d < 0) := by simp
  have h1 : d < t.toList.length := by simp; exact hd
  have h2 : (Int.ofNat d).toNat = d := rfl
  rw [patternOf, if_neg h0, h2, List.getD_eq_getElem?_getD, List.getElem?_eq_getElem h1]
  have h3 : t[d]? = some t[d] := Vector.getElem?_eq_getElem hd
  rw [h3]
  simp

/-- BANK_UPDATE never performs ENC_UPDATE with a digit index outside `0..9` (R102). -/
theorem encUpdate_digit (j i : Nat) (E : Encoder) (q : Nat) (s : State) :
    encUpdate j i E (Int.ofNat (q % 10)) s =
      .returned () (emitAll (cellEvents j i (E.table.toList.getD (q % 10) 0#8)) s) := by
  rw [encUpdate, patternOf_digit _ _ (Nat.mod_lt _ (by decide))]
  rfl

/-- The closed form of the decomposition loop: position `i` shows `(V div 10^i) mod 10` (R131). -/
theorem driveFrom_eq (j V : Nat) (es : List Encoder) (i : Nat) (s : State) :
    driveFrom j i es (V / 10 ^ i) s =
      .returned (V / 10 ^ (i + es.length)) (emitAll (byteEvents j i (digitBytes V i es)) s) := by
  induction es generalizing i s with
  | nil => rfl
  | cons E es ih =>
    have hq : V / 10 ^ i / Config.radix = V / 10 ^ (i + 1) := by
      rw [Nat.div_div_eq_div_mul, pow_succ]
    rw [driveFrom, encUpdate_digit, andThen_returned, hq, ih, digitBytes, byteEvents, emitAll_append, digitAt]
    rw [List.length_cons, show i + (es.length + 1) = i + 1 + es.length by omega]

theorem blankFrom_eq (j : Nat) (es : List Encoder) (i : Nat) (s : State) :
    blankFrom j i es s = emitAll (byteEvents j i (List.replicate es.length 0#8)) s := by
  induction es generalizing i s with
  | nil => rfl
  | cons E es ih =>
    rw [blankFrom, ih, List.length_cons, List.replicate_succ, byteEvents, emitAll_append]
    rfl

/-- The remaining quotient is zero exactly when the value fits (R131). -/
theorem statusOfQuotient_eq (V N : Nat) :
    statusOfQuotient (V / 10 ^ N) = if V < 10 ^ N then .ok else .overflowError := by
  have h : V / 10 ^ N = 0 ↔ V < 10 ^ N := Nat.div_eq_zero_iff_lt (Nat.pos_of_ne_zero (by positivity))
  simp [statusOfQuotient, h]

/-! ### BANK_UPDATE -/

/-- What `ReadSource` gives now (R51, R53, R58). -/
def readNow (s : State) (h : Handle) : Option Int :=
  ((landWrites s).values.read h).map fun v => (tornDraw s).getD v

/-- The outcome of a bank update at a state, whatever the host does meanwhile. -/
def bankEffect (s : State) (B : Bank) : BankOutcome :=
  if B.enc.length = 0 then .emits [] .configurationError
  else if B.enabled = false then .emits (List.replicate B.enc.length 0#8) .ok
  else
    match B.source with
    | none => .emits [] .missingSourceError
    | some h => valueOutcome B (readNow s h)

/-- The state once a bank update has read, or passed by without reading (R52). -/
def afterRead (s : State) (B : Bank) : State :=
  if B.enc.length = 0 ∨ B.enabled = false ∨ B.source = none then s else landWrites s

/-- All that a bank update does: it returns a status with its bytes emitted, or raises a fault with no phase emitted
(R122, R133). -/
theorem bankUpdate_eq (j : Nat) (B : Bank) (s : State) :
    bankUpdate j B s =
      match bankEffect s B with
      | .emits ps st => .returned st (emitAll (byteEvents j 0 ps) (afterRead s B))
      | .faults k => .raised k (afterRead s B) := by
  by_cases h0 : B.enc = []
  · simp [bankUpdate, bankEffect, afterRead, h0, byteEvents]
  · have h0' : B.enc.length ≠ 0 := by simpa using h0
    by_cases h1 : B.enabled = false
    · simp [bankUpdate, bankEffect, afterRead, h0, h1, blankFrom_eq]
    · cases h2 : B.source with
      | none => simp [bankUpdate, bankEffect, afterRead, h0, h1, h2, byteEvents]
      | some h =>
        simp only [bankUpdate, bankEffect, afterRead, h0, h0', h1, h2, if_false, or_self, reduceCtorEq, readSource,
          readNow]
        cases h3 : (landWrites s).values.read h with
        | none => simp [valueOutcome]
        | some v =>
          simp only [andThen_returned, Option.map_some, valueOutcome, renderValue]
          split
          · rfl
          · have hd := driveFrom_eq j ((tornDraw s).getD v).toNat B.enc 0 (landWrites s)
            rw [pow_zero, Nat.div_one, Nat.zero_add] at hd
            rw [hd, map_returned, statusOfQuotient_eq]

/-- The only faults of a bank update are those of its read (R127, R193). -/
theorem bankEffect_fault {s : State} {B : Bank} {k : FaultKind} (h : bankEffect s B = .faults k) :
    k = .negativeValue ∨ k = .danglingSource := by
  unfold bankEffect at h
  split at h
  · cases h
  · split at h
    · cases h
    · split at h
      · cases h
      · next src _ =>
        cases hr : readNow s src with
        | none => rw [hr] at h; simp only [valueOutcome, BankOutcome.faults.injEq] at h; exact .inr h.symm
        | some V =>
          rw [hr] at h
          simp only [valueOutcome] at h
          split at h
          · simp only [BankOutcome.faults.injEq] at h; exact .inl h.symm
          · cases h

theorem readNow_quiet (s : State) (hq : s.hostQuiet) (h : Handle) : readNow s h = s.values.read h := by
  rw [readNow, landWrites_quiet s hq, tornDraw_quiet s hq]
  cases s.values.read h <;> rfl

theorem bankEffect_quiet (s : State) (hq : s.hostQuiet) (B : Bank) : bankEffect s B = bankOutcome s.values B := by
  cases hs : B.source <;> simp only [bankEffect, bankOutcome, readNow_quiet s hq, hs]

theorem afterRead_quiet (s : State) (hq : s.hostQuiet) (B : Bank) : afterRead s B = s := by
  simp [afterRead, landWrites_quiet s hq]

theorem afterRead_reaches (s : State) (B : Bank) : Reaches s (afterRead s B) := by
  unfold afterRead
  split
  · exact .refl
  · exact .land .refl

/-- Pin events before a bank update do not change what it does (R36: no command reads the pins). -/
theorem bankEffect_emitAll (es : List (Cursor × Phase)) (s : State) (B : Bank) :
    bankEffect (emitAll es s) B = bankEffect s B := by
  simp [bankEffect, readNow, landWrites_emitAll, tornDraw_emitAll]

theorem afterRead_emitAll (es : List (Cursor × Phase)) (s : State) (B : Bank) :
    afterRead (emitAll es s) B = emitAll es (afterRead s B) := by
  unfold afterRead
  split <;> simp [landWrites_emitAll]

end Sys2Proof.Machine
end

