-- ==== Sys2Proof/Laws/Chain.lean ====
section
/-!
SUPPORT. What a register of the chain shows (R209): the stages after bytes, least significant bit of the last byte first,
and the value of a register from its eight outputs.
-/

namespace Sys2Proof.Machine

theorem wireBits_length (ps : List Byte) : (wireBits ps).length = 8 * ps.length := by
  induction ps with
  | nil => rfl
  | cons p ps ih => simp [wireBits] at ih ⊢; omega

/-- The bits of bytes as they lie in the stages, bit 0 first (R209). -/
def stageBits (ps : List Byte) : List Bool :=
  ps.flatMap fun p => [0, 1, 2, 3, 4, 5, 6, 7].map fun k => p.getLsbD k

theorem wireBits_reverse (ps : List Byte) : (wireBits ps).reverse = stageBits ps.reverse := by
  induction ps with
  | nil => rfl
  | cons p ps ih =>
    have h : wireBits (p :: ps) = wireBits [p] ++ wireBits ps := by simp [wireBits]
    rw [h, List.reverse_append, ih, List.reverse_cons]
    simp [stageBits, wireBits]

theorem stageBits_length (ps : List Byte) : (stageBits ps).length = 8 * ps.length := by
  have h := congrArg List.length (wireBits_reverse ps.reverse)
  rw [List.length_reverse, wireBits_length, List.length_reverse, List.reverse_reverse] at h
  exact h.symm

/-- Bytes that fill the chain are all it holds (R212). -/
theorem stagesAfter_full (ps : List Byte) (sh : List Bool) (h : sh.length = 8 * ps.length) :
    stagesAfter ps sh = stageBits ps.reverse := by
  have hl : (stageBits ps.reverse).length = sh.length := by rw [stageBits_length, List.length_reverse, h]
  rw [stagesAfter, wireBits_reverse, ← hl, List.take_left]

theorem stageBits_get {ps : List Byte} {r : Nat} {p : Byte} (h : ps[r]? = some p) {k : Nat} (hk : k < 8) :
    (stageBits ps)[8 * r + k]? = some (p.getLsbD k) := by
  induction ps generalizing r with
  | nil => simp at h
  | cons q ps ih =>
    cases r with
    | zero =>
      simp only [List.getElem?_cons_zero, Option.some.injEq] at h
      subst h
      have hc : k = 0 ∨ k = 1 ∨ k = 2 ∨ k = 3 ∨ k = 4 ∨ k = 5 ∨ k = 6 ∨ k = 7 := by omega
      rcases hc with rfl | rfl | rfl | rfl | rfl | rfl | rfl | rfl <;> rfl
    | succ r =>
      rw [show 8 * (r + 1) + k = (8 * r + k) + 8 by omega]
      exact ih h

theorem byte_value (p : Byte) :
    p.toNat = [7, 6, 5, 4, 3, 2, 1, 0].foldl (fun v k => 2 * v + (p.getLsbD k).toNat) 0 := by
  revert p
  decide

/-- A register whose eight outputs are the bits of a byte shows that byte (R209). -/
theorem register_eq {c : Chain} {r : Nat} {p : Byte}
    (h : ∀ k, k < 8 → c.q[8 * r + k]? = some (p.getLsbD k)) : c.register r = some p.toNat := by
  rw [byte_value]
  unfold Chain.register
  have key : ∀ (l : List Nat) (v : Nat), (∀ k ∈ l, k < 8) →
      l.foldl (fun acc k =>
        match acc, c.q[8 * r + k]? with
        | some v, some b => some (2 * v + b.toNat)
        | _, _ => none) (some v) = some (l.foldl (fun v k => 2 * v + (p.getLsbD k).toNat) v) := by
    intro l
    induction l with
    | nil => intro v _; rfl
    | cons k l ih =>
      intro v hk
      rw [List.foldl_cons, List.foldl_cons, h k (hk k List.mem_cons_self)]
      exact ih _ fun x hx => hk x (List.mem_cons_of_mem _ hx)
  exact key _ _ (by decide)

end Sys2Proof.Machine
end

