-- ==== Sys2Proof/Laws/Update.lean ====
section
/-!
SUPPORT. What UPDATE_ALL does: the loop over the banks in closed form, whatever the host does meanwhile (`visitFrom_eq`)
and while it is quiet (`visitFrom_quiet`).
-/

namespace Sys2Proof.Machine

/-- The outcomes of the banks still to visit, the host's writes landing at each read in turn (R62, R169). -/
def effects : State → List Bank → List BankOutcome
  | _, [] => []
  | s, B :: Bs => bankEffect s B :: effects (afterRead s B) Bs

/-- The state once the banks have read in turn. -/
def afterReads : State → List Bank → State
  | s, [] => s
  | s, B :: Bs => afterReads (afterRead s B) Bs

/-- The events of banks that do not fault, from traversal position `j` on (R76). -/
def bankEvents : Nat → List BankOutcome → List (Cursor × Phase)
  | _, [] => []
  | j, o :: os => byteEvents j 0 o.bytes ++ bankEvents (j + 1) os

/-- The failure index after the outcomes from traversal position `j` on (R167). -/
def failFold (b : FailIndexBasis) (n : Nat) : Nat → List BankOutcome → Nat → Nat
  | _, [], r => r
  | j, o :: os, r => failFold b n (j + 1) os (if o.fails then failIndex b n j else r)

theorem effects_emitAll (es : List (Cursor × Phase)) (s : State) (Bs : List Bank) :
    effects (emitAll es s) Bs = effects s Bs := by
  induction Bs generalizing s with
  | nil => rfl
  | cons B Bs ih => simp [effects, bankEffect_emitAll, afterRead_emitAll, ih]

theorem afterReads_emitAll (es : List (Cursor × Phase)) (s : State) (Bs : List Bank) :
    afterReads (emitAll es s) Bs = emitAll es (afterReads s Bs) := by
  induction Bs generalizing s with
  | nil => rfl
  | cons B Bs ih => simp [afterReads, afterRead_emitAll, ih]

theorem afterReads_reaches (s : State) (Bs : List Bank) : Reaches s (afterReads s Bs) := by
  induction Bs generalizing s with
  | nil => exact .refl
  | cons B Bs ih => exact (afterRead_reaches s B).trans (ih _)

theorem foldStatus_emits (b : FailIndexBasis) (n j r : Nat) (ps : List Byte) (st : Status) :
    foldStatus b n j r st = if (BankOutcome.emits ps st).fails then failIndex b n j else r := by
  cases st <;> rfl

/-- The loop over banks none of which faults: all their bytes in turn, and the index of the last failure (R164, R168). -/
theorem visitFrom_eq (b : FailIndexBasis) (n : Nat) (Bs : List Bank) (j r : Nat) (s : State)
    (h : ∀ o ∈ effects s Bs, o.faulted = false) :
    visitFrom b n j Bs r s =
      .returned (failFold b n j (effects s Bs) r) (emitAll (bankEvents j (effects s Bs)) (afterReads s Bs)) := by
  induction Bs generalizing j r s with
  | nil => rfl
  | cons B Bs ih =>
    have h1 : (bankEffect s B).faulted = false := h _ List.mem_cons_self
    rw [visitFrom, bankUpdate_eq, effects, afterReads, bankEvents, failFold]
    cases he : bankEffect s B with
    | faults k => rw [he] at h1; simp [BankOutcome.faulted] at h1
    | emits ps st =>
      simp only [andThen_returned]
      rw [ih, effects_emitAll, afterReads_emitAll, emitAll_append, foldStatus_emits b n j r ps st]
      · rfl
      · intro o ho
        rw [effects_emitAll] at ho
        exact h o (List.mem_cons_of_mem _ ho)

/-- The loop up to the first bank that faults: the bytes of the banks before it, and none of its own (R199). -/
theorem visitFrom_fault (b : FailIndexBasis) (n : Nat) (Bs : List Bank) (j r : Nat) (s : State)
    (pre post : List BankOutcome) (k : FaultKind) (h : effects s Bs = pre ++ .faults k :: post)
    (hpre : ∀ o ∈ pre, o.faulted = false) :
    visitFrom b n j Bs r s =
      .raised k (emitAll (bankEvents j pre) (afterReads s (Bs.take (pre.length + 1)))) := by
  induction Bs generalizing j r s pre with
  | nil => cases pre <;> simp [effects] at h
  | cons B Bs ih =>
    rw [visitFrom, bankUpdate_eq]
    rw [effects] at h
    cases pre with
    | nil =>
      rw [List.nil_append, List.cons.injEq] at h
      simp only [h.1, andThen_raised]
      rfl
    | cons o pre =>
      rw [List.cons_append, List.cons.injEq] at h
      have h1 : o.faulted = false := hpre _ List.mem_cons_self
      rw [h.1]
      cases o with
      | faults k => simp [BankOutcome.faulted] at h1
      | emits ps st =>
        simp only [andThen_returned]
        rw [ih (j + 1) _ _ pre (by rw [effects_emitAll]; exact h.2) (fun o ho => hpre o (List.mem_cons_of_mem _ ho)),
          afterReads_emitAll, bankEvents, emitAll_append]
        rfl

/-- Every run of the loop ends in a state the pin events and the host's writes lead to (R168). -/
theorem visitFrom_reaches (b : FailIndexBasis) (n : Nat) (Bs : List Bank) (j r : Nat) (s : State) :
    (∃ r' t, visitFrom b n j Bs r s = .returned r' t ∧ Reaches s t) ∨
    (∃ k t, visitFrom b n j Bs r s = .raised k t ∧ Reaches s t ∧ (k = .negativeValue ∨ k = .danglingSource)) := by
  induction Bs generalizing j r s with
  | nil => exact .inl ⟨r, s, rfl, .refl⟩
  | cons B Bs ih =>
    rw [visitFrom, bankUpdate_eq]
    have ha := afterRead_reaches s B
    cases he : bankEffect s B with
    | faults k => exact .inr ⟨k, _, rfl, ha, bankEffect_fault he⟩
    | emits ps st =>
      have hb := Reaches.emitAll (byteEvents j 0 ps) ha
      rcases ih (j + 1) (foldStatus b n j r st) (emitAll (byteEvents j 0 ps) (afterRead s B)) with
        ⟨r', t, h1, h2⟩ | ⟨k, t, h1, h2, h3⟩
      · exact .inl ⟨r', t, h1, hb.trans h2⟩
      · exact .inr ⟨k, t, h1, hb.trans h2, h3⟩

/-! ### The events of several banks -/

theorem bankEvents_phases (j : Nat) (os : List BankOutcome) :
    (bankEvents j os).map Prod.snd = streamPhases (os.flatMap BankOutcome.bytes) := by
  induction os generalizing j with
  | nil => rfl
  | cons o os ih =>
    rw [bankEvents, List.map_append, byteEvents_phases, ih, List.flatMap_cons, streamPhases_append]

theorem bankEvents_length (j : Nat) (os : List BankOutcome) :
    (bankEvents j os).length = 16 * (os.flatMap BankOutcome.bytes).length := by
  rw [← streamPhases_length, ← bankEvents_phases j os, List.length_map]

theorem pinsRun_bankEvents (j : Nat) (os : List BankOutcome) (x : Pins) :
    pinsRun (bankEvents j os) x = pinsWith (os.flatMap BankOutcome.bytes) x := by
  induction os generalizing j x with
  | nil => rfl
  | cons o os ih => rw [bankEvents, pinsRun_append, pinsRun_bytes, ih, List.flatMap_cons, pinsWith_append]

theorem chainRun_bankEvents (a : Level) (j : Nat) (os : List BankOutcome) (x : Pins) (c : Chain) :
    chainRun a (bankEvents j os) x c = { c with sh := stagesAfter (os.flatMap BankOutcome.bytes) c.sh } := by
  induction os generalizing j x c with
  | nil => simp [bankEvents, chainRun, stagesAfter, wireBits]
  | cons o os ih =>
    rw [bankEvents, chainRun_append, chainRun_bytes, ih, List.flatMap_cons, stagesAfter_append]

/-- The state after the bytes of several banks (R76). -/
theorem emitAll_bankEvents (j : Nat) (os : List BankOutcome) (s : State) :
    emitAll (bankEvents j os) s =
      { s with
        cursor := (((bankEvents j os).map Prod.fst).getLast?).getD s.cursor
        pins := pinsWith (os.flatMap BankOutcome.bytes) s.pins
        chain := { s.chain with sh := stagesAfter (os.flatMap BankOutcome.bytes) s.chain.sh }
        trace := s.trace ++ streamPhases (os.flatMap BankOutcome.bytes)
        cursorLog := s.cursorLog ++ (bankEvents j os).map Prod.fst } := by
  rw [emitAll_eq, pinsRun_bankEvents, chainRun_bankEvents, bankEvents_phases]

/-! ### While the host is quiet -/

theorem effects_quiet (s : State) (hq : s.hostQuiet) (Bs : List Bank) :
    effects s Bs = Bs.map (bankOutcome s.values) := by
  induction Bs with
  | nil => rfl
  | cons B Bs ih => simp [effects, bankEffect_quiet s hq, afterRead_quiet s hq, ih]

theorem afterReads_quiet (s : State) (hq : s.hostQuiet) (Bs : List Bank) : afterReads s Bs = s := by
  induction Bs with
  | nil => rfl
  | cons B Bs ih => simp [afterReads, afterRead_quiet s hq, ih]

end Sys2Proof.Machine
end

