-- ==== Sys2Proof/Laws/Exec.lean ====
section
/-!
SUPPORT. What any instruction can do, said once: `exec_next` and the edits of the registry behind it; provers cite it
instead of unfolding the meanings.
-/

namespace Sys2Proof.Machine

/-! ### The gate and the end of a command -/

theorem gate_open (s : State) (h : s.isOpen) (k : State → Outcome) : gate s k = k s := by
  simp [gate, h.1, h.2]

theorem gate_next {s t : State} {k : State → Outcome} (h : gate s k = .next t) : s.isOpen ∧ k s = .next t := by
  unfold gate at h
  split at h
  · cases h
  · next hf =>
    split at h
    · cases h
    · next hr => exact ⟨⟨hf, by simpa using hr⟩, h⟩

theorem gate_closed (s : State) (h : ¬ s.isOpen) (k : State → Outcome) (t : State) : gate s k ≠ .next t :=
  fun hn => h (gate_next hn).1

theorem conclude_next {op : Byte} {d : Done Result} {t : State} (h : conclude op d = .next t) :
    (∃ r m, d = .returned r m ∧ t = finish r m) ∨ (∃ k m, d = .raised k m ∧ t = raiseFault k op m) := by
  cases d with
  | returned r m => simp only [conclude, Host.Outcome.next.injEq] at h; exact .inl ⟨r, m, rfl, h.symm⟩
  | raised k m => simp only [conclude, Host.Outcome.next.injEq] at h; exact .inr ⟨k, m, rfl, h.symm⟩

theorem onBank_next {s t : State} {k : Bank → Outcome} (h : onBank s k = .next t) :
    ∃ B, s.targetBank = some B ∧ k B = .next t := by
  unfold onBank at h
  cases hb : s.targetBank with
  | none => rw [hb] at h; cases h
  | some B => rw [hb] at h; exact ⟨B, rfl, h⟩

theorem onEncoder_next {s t : State} {k : Bank → Encoder → Outcome} (h : onEncoder s k = .next t) :
    ∃ B E, s.targetBank = some B ∧ B.enc[s.target.position]? = some E ∧ k B E = .next t := by
  unfold onEncoder at h
  cases hb : s.targetBank with
  | none => rw [hb] at h; cases h
  | some B =>
    rw [hb] at h
    simp only at h
    cases he : B.enc[s.target.position]? with
    | none => rw [he] at h; cases h
    | some E => rw [he] at h; exact ⟨B, E, rfl, he, h⟩

theorem onBank_target {s : State} {B : Bank} (h : s.targetBank = some B) (k : Bank → Outcome) : onBank s k = k B := by
  simp [onBank, h]

theorem onEncoder_target {s : State} {B : Bank} {E : Encoder} (hb : s.targetBank = some B)
    (he : B.enc[s.target.position]? = some E) (k : Bank → Encoder → Outcome) : onEncoder s k = k B E := by
  simp [onEncoder, hb, he]

/-! ### First match (R150) -/

theorem firstMatch_none_iff (R : List Bank) (id : Id) : firstMatch R id = none ↔ ∀ B ∈ R, B.id ≠ id := by
  simp [firstMatch, List.findIdx?_eq_none_iff]

/-- The first match splits the registry: no bank before it has the id. -/
theorem firstMatch_split (pre post : List Bank) (B : Bank) (h : ∀ X ∈ pre, X.id ≠ B.id) :
    firstMatch (pre ++ B :: post) B.id = some pre.length := by
  have hn : firstMatch pre B.id = none := (firstMatch_none_iff _ _).2 h
  unfold firstMatch at hn ⊢
  rw [List.findIdx?_append, hn]
  simp [List.findIdx?_cons]

theorem firstMatch_lt {R : List Bank} {id : Id} {i : Nat} (h : firstMatch R id = some i) :
    ∃ pre B post, R = pre ++ B :: post ∧ pre.length = i ∧ B.id = id ∧ ∀ X ∈ pre, X.id ≠ id := by
  induction R generalizing i with
  | nil => simp [firstMatch] at h
  | cons B R ih =>
    simp only [firstMatch, List.findIdx?_cons] at h
    split at h
    · next hb => exact ⟨[], B, R, rfl, by simpa using h, by simpa using hb, by simp⟩
    · next hb =>
      rw [Option.map_eq_some_iff] at h
      obtain ⟨k, hk, rfl⟩ := h
      obtain ⟨pre, C, post, h1, h2, h3, h4⟩ := ih hk
      refine ⟨B :: pre, C, post, by simp [h1], by simp [h2], h3, ?_⟩
      intro X hX
      rcases List.mem_cons.1 hX with rfl | hX
      · simpa using hb
      · exact h4 X hX

theorem modify_split (pre post : List Bank) (B : Bank) (f : Bank → Bank) :
    (pre ++ B :: post).modify pre.length f = pre ++ f B :: post := by
  induction pre with
  | nil => rfl
  | cons X pre ih => simp [ih]

theorem removeAt_split (pre post : List Bank) (B : Bank) : removeAt (pre ++ B :: post) pre.length = pre ++ post := by
  induction pre with
  | nil => rfl
  | cons X pre ih => simp [removeAt]

/-! ### Edits of the registry -/

/-- What a command may make of the registry (R32, R92). -/
inductive Edit (s : State) : Instr → List Bank → Prop where
  | same (i : Instr) : Edit s i s.registry
  /-- a new bank where its id was absent and there was room (R152, R155) -/
  | place (i : Instr) (pre post : List Bank) (id : Id) (n : Nat) (ref : Option Handle) (T : DigitTable)
      (hR : s.registry = pre ++ post) (absent : ∀ B ∈ s.registry, B.id ≠ id)
      (room : registryFull s.params s.registry = false) (fits : overPositions s.params n = false)
      (hk : i.key = some id) (hh : i.handle = ref) : Edit s i (pre ++ newBank id n ref T :: post)
  /-- a new bank in the place of one with its id (R158) -/
  | replace (i : Instr) (pre post : List Bank) (B : Bank) (n : Nat) (ref : Option Handle) (T : DigitTable)
      (hR : s.registry = pre ++ B :: post) (fits : overPositions s.params n = false)
      (hh : i.handle = ref) : Edit s i (pre ++ newBank B.id n ref T :: post)
  /-- one bank's order, flag or source (R141, R143, R144) -/
  | order (i : Instr) (pre post : List Bank) (B : Bank) (bo : BitOrder) (hR : s.registry = pre ++ B :: post) :
      Edit s i (pre ++ B.setBitOrder bo :: post)
  | flag (i : Instr) (pre post : List Bank) (B : Bank) (e : Bool) (hR : s.registry = pre ++ B :: post) :
      Edit s i (pre ++ B.setEnabled e :: post)
  | source (i : Instr) (pre post : List Bank) (B : Bank) (ref : Option Handle) (hR : s.registry = pre ++ B :: post)
      (hh : i.handle = ref) : Edit s i (pre ++ B.setSource ref :: post)
  /-- one bank less (R159) -/
  | remove (i : Instr) (pre post : List Bank) (B : Bank) (hR : s.registry = pre ++ B :: post) :
      Edit s i (pre ++ post)
  /-- none left (R160) -/
  | clear (i : Instr) : Edit s i []
  /-- the order of a single encoder, only by an ENC_SET_BIT_ORDER performed by itself (R104) -/
  | encoder (bo : BitOrder) (pre post : List Bank) (B : Bank) (p : Nat) (E : Encoder)
      (hR : s.registry = pre ++ B :: post) (hE : B.enc[p]? = some E) :
      Edit s (.encSetBitOrder bo) (pre ++ { B with enc := B.enc.set p (E.setBitOrder bo) } :: post)

/-- Which commands raise which fault (R193). -/
def mayRaise (m : Op) : FaultKind → Prop
  | .indexError => m = .insertBank
  | .badTable => m = .addBank ∨ m = .insertBank ∨ m = .replaceBank
  | .capacity => m = .addBank ∨ m = .insertBank ∨ m = .replaceBank
  | .badDigitIndex => m = .encUpdate
  | .negativeValue => m = .updateAll ∨ m = .bankUpdate
  | .danglingSource => m = .updateAll ∨ m = .bankUpdate

/-- `m` is a state instruction `i` goes through from `s`: only four rows move the pins, only two read the host's values
(R52, R224). -/
structure Moved (i : Instr) (s m : State) : Prop where
  reaches : Reaches s m
  still : i.op ≠ .updateAll → i.op ≠ .bankUpdate → i.op ≠ .encUpdate → i.op ≠ .encOff → m = s
  unread : i.op ≠ .updateAll → i.op ≠ .bankUpdate → m.values = s.values ∧ m.interference = s.interference

theorem Moved.refl (i : Instr) (s : State) : Moved i s s := ⟨.refl, fun _ _ _ _ => rfl, fun _ _ => ⟨rfl, rfl⟩⟩

/-- The end of a command: its result after an edit of the registry (R32). -/
def endsWell (i : Instr) (s m t : State) : Prop := ∃ r R, Edit s i R ∧ t = finish r (setRegistry R m)

/-- The end of a command: a fault, the registry as it was, and but for UPDATE_ALL nothing done before it other than the
host's own writes (R195, R199). -/
def endsInFault (i : Instr) (s m t : State) : Prop :=
  ∃ k, mayRaise i.op k ∧ (i.op ≠ .updateAll → m = s ∨ m = landWrites s) ∧ t = raiseFault k i.op.code m

/-- All that an instruction can do when it answers a next state: the gate was open, and it ends well or in a fault. -/
structure ExecEffect (i : Instr) (s t : State) : Prop where
  opened : s.isOpen
  ends : ∃ m, Moved i s m ∧ (endsWell i s m t ∨ endsInFault i s m t)

theorem setRegistry_same (s : State) : setRegistry s.registry s = s := rfl

theorem split_of_getElem? {R : List Bank} {r : Nat} {B : Bank} (h : R[r]? = some B) :
    ∃ pre post, R = pre ++ B :: post ∧ pre.length = r := by
  obtain ⟨hr, hb⟩ := List.getElem?_eq_some_iff.1 h
  refine ⟨R.take r, R.drop (r + 1), ?_, by simp; omega⟩
  rw [← hb, List.getElem_cons_drop, List.take_append_drop]

theorem set_split (pre post : List Bank) (B X : Bank) : (pre ++ B :: post).set pre.length X = pre ++ X :: post := by
  simp

/-- A first match edited in place, or nothing at all (R150). -/
theorem onFirstMatch_edit (i : Instr) (id : Id) (f : Bank → Bank) (s : State)
    (h : ∀ pre B post, s.registry = pre ++ B :: post → B.id = id → Edit s i (pre ++ f B :: post)) :
    ∃ R, Edit s i R ∧ onFirstMatch id f s = setRegistry R s := by
  unfold onFirstMatch
  cases hm : firstMatch s.registry id with
  | none => exact ⟨s.registry, .same i, rfl⟩
  | some k =>
    obtain ⟨pre, B, post, h1, h2, h3, _⟩ := firstMatch_lt hm
    refine ⟨_, h pre B post h1 h3, ?_⟩
    simp only
    rw [h1, ← h2, modify_split]

theorem checkedTable_cases (n : Nat) (table : Option (List Byte)) (s : State) :
    (∃ k, (k = .badTable ∨ k = .capacity) ∧ checkedTable n table s = .raised k s) ∨
    (∃ T, resolveTable s.cfg table = some T ∧ overPositions s.params n = false ∧
      checkedTable n table s = .returned T s) := by
  unfold checkedTable
  cases resolveTable s.cfg table with
  | none => exact .inl ⟨_, .inl rfl, rfl⟩
  | some T =>
    cases hp : overPositions s.params n with
    | true => exact .inl ⟨.capacity, .inr rfl, by simp⟩
    | false => exact .inr ⟨T, rfl, rfl, by simp⟩

/-- An effect without pin events. -/
theorem ExecEffect.ofDone {i : Instr} {s t : State} {d : Done Result} (ho : s.isOpen)
    (hd : (∃ k, mayRaise i.op k ∧ d = .raised k s) ∨ (∃ r R, Edit s i R ∧ d = .returned r (setRegistry R s)))
    (h : conclude i.op.code d = .next t) : ExecEffect i s t := by
  refine ⟨ho, s, .refl i s, ?_⟩
  rcases conclude_next h with ⟨r, m, h1, h2⟩ | ⟨k, m, h1, h2⟩
  · rcases hd with ⟨k, _, h3⟩ | ⟨r', R, hE, h3⟩
    · rw [h3] at h1; cases h1
    · rw [h3] at h1; cases h1; exact .inl ⟨_, R, hE, h2⟩
  · rcases hd with ⟨k', hk, h3⟩ | ⟨r', R, hE, h3⟩
    · rw [h3] at h1; cases h1; exact .inr ⟨k, hk, fun _ => .inl rfl, h2⟩
    · rw [h3] at h1; cases h1

theorem placeBank_cases (i : Instr) (id : Id) (n : Nat) (ref : Option Handle) (T : DigitTable) (s : State)
    (pre post : List Bank) (place : List Bank → List Bank) (hR : s.registry = pre ++ post)
    (hp : place s.registry = pre ++ newBank id n ref T :: post) (fits : overPositions s.params n = false)
    (hk : i.key = some id) (hh : i.handle = ref) :
    placeBank (newBank id n ref T) place s = .raised .capacity s ∨
    (∃ r R, Edit s i R ∧ placeBank (newBank id n ref T) place s = .returned r (setRegistry R s)) := by
  unfold placeBank
  have hid : (newBank id n ref T).id = id := rfl
  rw [hid]
  cases hm : firstMatch s.registry id with
  | some k => exact .inr ⟨.nothing, s.registry, .same i, rfl⟩
  | none =>
    cases hf : registryFull s.params s.registry with
    | true => exact .inl (by simp)
    | false =>
      refine .inr ⟨.nothing, _, .place i pre post id n ref T hR ((firstMatch_none_iff _ _).1 hm) hf fits hk hh, ?_⟩
      simp [hp]

theorem Reaches.setRegistry_comm {s m : State} (h : Reaches s m) : setRegistry s.registry m = m := by
  rw [← h.registry]; rfl

/-- Say once what an instruction can do. -/
theorem exec_next {i : Instr} {s t : State} (h : exec i s = .next t) : ExecEffect i s t := by
  cases i with
  | addBank id n ref table =>
    simp only [exec, execAddBank] at h
    obtain ⟨ho, h⟩ := gate_next h
    refine .ofDone ho ?_ h
    rcases checkedTable_cases n table s with ⟨k, hk', hk⟩ | ⟨T, _, hp, hk⟩
    · exact .inl ⟨k, by rcases hk' with rfl | rfl <;> exact .inl rfl, by simp [addBank, hk]⟩
    · simp only [addBank, hk, andThen_returned]
      rcases placeBank_cases (.addBank id n ref table) id n ref T s s.registry [] (fun R => R ++ [newBank id n ref T])
        (by simp) rfl hp rfl rfl with h1 | h1
      · exact .inl ⟨.capacity, .inl rfl, h1⟩
      · exact .inr h1
  | insertBank id n index ref table =>
    simp only [exec, execInsertBank] at h
    obtain ⟨ho, h⟩ := gate_next h
    refine .ofDone ho ?_ h
    unfold insertBank
    split
    · exact .inl ⟨.indexError, rfl, rfl⟩
    · rcases checkedTable_cases n table s with ⟨k, hk', hk⟩ | ⟨T, _, hp, hk⟩
      · exact .inl ⟨k, by rcases hk' with rfl | rfl <;> exact .inr (.inl rfl), by simp [hk]⟩
      · simp only [hk, andThen_returned]
        rcases placeBank_cases (.insertBank id n index ref table) id n ref T s (s.registry.take index)
          (s.registry.drop index) (fun R => insertAt R index (newBank id n ref T)) (by simp) rfl hp rfl rfl with h1 | h1
        · exact .inl ⟨.capacity, .inr (.inl rfl), h1⟩
        · exact .inr h1
  | replaceBank id n ref table =>
    simp only [exec, execReplaceBank] at h
    obtain ⟨ho, h⟩ := gate_next h
    refine .ofDone ho ?_ h
    rcases checkedTable_cases n table s with ⟨k, hk', hk⟩ | ⟨T, _, hp, hk⟩
    · exact .inl ⟨k, by rcases hk' with rfl | rfl <;> exact .inr (.inr rfl), by simp [replaceBank, hk]⟩
    · simp only [replaceBank, hk, andThen_returned]
      obtain ⟨R, hE, hR⟩ := onFirstMatch_edit (.replaceBank id n ref table) id (fun _ => newBank id n ref T) s
        (fun pre B post h1 h2 => h2 ▸ Edit.replace _ pre post B n ref T h1 hp rfl)
      exact .inr ⟨_, R, hE, by rw [hR]⟩
  | removeBank id =>
    simp only [exec, execRemoveBank] at h
    obtain ⟨ho, h⟩ := gate_next h
    refine .ofDone ho (.inr ?_) h
    unfold removeBank
    cases hm : firstMatch s.registry id with
    | none => exact ⟨_, s.registry, .same _, rfl⟩
    | some k =>
      obtain ⟨pre, B, post, h1, h2, _, _⟩ := firstMatch_lt hm
      refine ⟨.nothing, _, .remove _ pre post B h1, ?_⟩
      simp only [h1, ← h2, removeAt_split]
  | clearAll =>
    simp only [exec, execClearAll] at h
    obtain ⟨ho, h⟩ := gate_next h
    exact .ofDone ho (.inr ⟨_, [], .clear _, rfl⟩) h
  | setBitOrder id order =>
    simp only [exec, execSetBitOrder] at h
    obtain ⟨ho, h⟩ := gate_next h
    refine .ofDone ho (.inr ?_) h
    unfold setBitOrder
    cases orderOfCode order with
    | none => exact ⟨_, s.registry, .same _, rfl⟩
    | some bo =>
      obtain ⟨R, hE, hR⟩ := onFirstMatch_edit (.setBitOrder id order) id (Bank.setBitOrder bo) s
        (fun pre B post h1 _ => .order _ pre post B bo h1)
      exact ⟨.nothing, R, hE, by simp only [hR]⟩
  | enableBank id enabled =>
    simp only [exec, execEnableBank] at h
    obtain ⟨ho, h⟩ := gate_next h
    obtain ⟨R, hE, hR⟩ := onFirstMatch_edit (.enableBank id enabled) id (Bank.setEnabled enabled) s
      (fun pre B post h1 _ => .flag _ pre post B enabled h1)
    exact .ofDone ho (.inr ⟨_, R, hE, by rw [hR]⟩) h
  | setSource id ref =>
    simp only [exec, execSetSource] at h
    obtain ⟨ho, h⟩ := gate_next h
    obtain ⟨R, hE, hR⟩ := onFirstMatch_edit (.setSource id ref) id (Bank.setSource ref) s
      (fun pre B post h1 _ => .source _ pre post B ref h1 rfl)
    exact .ofDone ho (.inr ⟨_, R, hE, by rw [hR]⟩) h
  | updateAll =>
    simp only [exec, execUpdateAll] at h
    obtain ⟨ho, h⟩ := gate_next h
    have h0 : Reaches s (openLatch s) := .emit _ _ .refl
    rcases conclude_next h with ⟨r, m, h1, h2⟩ | ⟨k, m, h1, h2⟩ <;>
      rcases visitFrom_reaches s.params.failIndexBasis s.registry.length s.registry.reverse 0 0 (openLatch s) with
        ⟨r', u, h3, h4⟩ | ⟨k', u, h3, h4, h6⟩ <;>
      simp only [updateAll, h3, andThen_returned, andThen_raised, map_returned, map_raised, Done.returned.injEq,
        Done.raised.injEq, reduceCtorEq] at h1
    · obtain ⟨rfl, rfl⟩ := h1
      have h5 : Reaches s (closeLatch u) := .emit _ _ (h0.trans h4)
      exact ⟨ho, _, ⟨h5, fun h => absurd rfl h, fun h => absurd rfl h⟩,
        .inl ⟨_, _, .same _, by rw [h5.setRegistry_comm]; exact h2⟩⟩
    · obtain ⟨rfl, rfl⟩ := h1
      exact ⟨ho, _, ⟨h0.trans h4, fun h => absurd rfl h, fun h => absurd rfl h⟩,
        .inr ⟨_, by rcases h6 with rfl | rfl <;> exact .inl rfl, fun h => absurd rfl h, h2⟩⟩
  | printAll =>
    simp only [exec, execPrintAll] at h
    obtain ⟨ho, h⟩ := gate_next h
    exact .ofDone ho (.inr ⟨_, s.registry, .same _, rfl⟩) h
  | encUpdate d =>
    simp only [exec, execEncUpdate] at h
    obtain ⟨ho, h⟩ := gate_next h
    obtain ⟨B, E, _, _, h⟩ := onEncoder_next h
    simp only [encUpdate] at h
    rcases hp : patternOf E.table d with _ | p
    · rw [hp] at h
      exact .ofDone (i := .encUpdate d) ho (.inl ⟨.badDigitIndex, rfl, rfl⟩) h
    · rw [hp] at h
      simp only [serialise_eq, map_returned, conclude, Host.Outcome.next.injEq] at h
      have h5 := Reaches.emitAll (cellEvents (traversalOf s s.target.bank) s.target.position p) (.refl (s := s))
      exact ⟨ho, _, ⟨h5, fun _ _ h => absurd rfl h, fun _ _ => by simp⟩, .inl ⟨_, _, .same _, by rw [h5.setRegistry_comm]; exact h.symm⟩⟩
  | encOff =>
    simp only [exec, execEncOff] at h
    obtain ⟨ho, h⟩ := gate_next h
    obtain ⟨B, E, _, _, h⟩ := onEncoder_next h
    simp only [encOff, serialise_eq, conclude, Host.Outcome.next.injEq] at h
    have h5 := Reaches.emitAll (cellEvents (traversalOf s s.target.bank) s.target.position 0#8) (.refl (s := s))
    exact ⟨ho, _, ⟨h5, fun _ _ _ h => absurd rfl h, fun _ _ => by simp⟩, .inl ⟨_, _, .same _, by rw [h5.setRegistry_comm]; exact h.symm⟩⟩
  | encSetBitOrder bo =>
    simp only [exec, execEncSetBitOrder] at h
    obtain ⟨ho, h⟩ := gate_next h
    obtain ⟨B, E, hb, he, h⟩ := onEncoder_next h
    obtain ⟨pre, post, h1, h2⟩ := split_of_getElem? hb
    refine .ofDone (i := .encSetBitOrder bo) ho (.inr ⟨.nothing, _, .encoder bo pre post B _ E h1 he, ?_⟩) h
    rw [h1, ← h2, set_split]
  | encGetBitOrder =>
    simp only [exec, execEncGetBitOrder] at h
    obtain ⟨ho, h⟩ := gate_next h
    obtain ⟨B, E, _, _, h⟩ := onEncoder_next h
    exact .ofDone (i := .encGetBitOrder) ho (.inr ⟨_, s.registry, .same _, rfl⟩) h
  | bankUpdate =>
    simp only [exec, execBankUpdate] at h
    obtain ⟨ho, h⟩ := gate_next h
    obtain ⟨B, _, h⟩ := onBank_next h
    rw [bankUpdate_eq] at h
    have ha := afterRead_reaches s B
    cases he : bankEffect s B with
    | faults k =>
      rw [he] at h
      simp only [map_raised, conclude, Host.Outcome.next.injEq] at h
      refine ⟨ho, _, ⟨ha, fun _ h => absurd rfl h, fun _ h => absurd rfl h⟩, .inr ⟨k, ?_, fun _ => ?_, h.symm⟩⟩
      · rcases bankEffect_fault he with rfl | rfl <;> exact .inr rfl
      · unfold afterRead
        split
        · exact .inl rfl
        · exact .inr rfl
    | emits ps st =>
      rw [he] at h
      simp only [map_returned, conclude, Host.Outcome.next.injEq] at h
      have h5 := Reaches.emitAll (byteEvents (traversalOf s s.target.bank) 0 ps) ha
      exact ⟨ho, _, ⟨h5, fun _ h => absurd rfl h, fun _ h => absurd rfl h⟩,
        .inl ⟨_, _, .same _, by rw [h5.setRegistry_comm]; exact h.symm⟩⟩
  | bankGetBitOrder =>
    simp only [exec, execBankGetBitOrder] at h
    obtain ⟨ho, h⟩ := gate_next h
    obtain ⟨B, _, h⟩ := onBank_next h
    exact .ofDone (i := .bankGetBitOrder) ho (.inr ⟨_, s.registry, .same _, rfl⟩) h
  | bankSetBitOrder bo =>
    simp only [exec, execBankSetBitOrder] at h
    obtain ⟨ho, h⟩ := gate_next h
    obtain ⟨B, hb, h⟩ := onBank_next h
    obtain ⟨pre, post, h1, h2⟩ := split_of_getElem? hb
    refine .ofDone (i := .bankSetBitOrder bo) ho (.inr ⟨.nothing, _, .order _ pre post B bo h1, ?_⟩) h
    rw [h1, ← h2, set_split]
  | bankSetEnabled enabled =>
    simp only [exec, execBankSetEnabled] at h
    obtain ⟨ho, h⟩ := gate_next h
    obtain ⟨B, hb, h⟩ := onBank_next h
    obtain ⟨pre, post, h1, h2⟩ := split_of_getElem? hb
    refine .ofDone (i := .bankSetEnabled enabled) ho (.inr ⟨.nothing, _, .flag _ pre post B enabled h1, ?_⟩) h
    rw [h1, ← h2, set_split]
  | bankSetSource ref =>
    simp only [exec, execBankSetSource] at h
    obtain ⟨ho, h⟩ := gate_next h
    obtain ⟨B, hb, h⟩ := onBank_next h
    obtain ⟨pre, post, h1, h2⟩ := split_of_getElem? hb
    refine .ofDone (i := .bankSetSource ref) ho (.inr ⟨.nothing, _, .source _ pre post B ref h1 rfl, ?_⟩) h
    rw [h1, ← h2, set_split]

end Sys2Proof.Machine
end

