-- ==== Sys2Proof/Laws/UpdateAll.lean ====
section
/-!
SUPPORT. The whole of UPDATE_ALL (R164): the state it ends in when no bank faults, and when one does, whatever the host
does meanwhile (`execUpdateAll_next`).
-/

namespace Sys2Proof.Machine

theorem openLatch_eq (s : State) : openLatch s = emitAll [(.latchOpen, .latch s.cfg.latchActive)] s := rfl

theorem closeLatch_eq (s : State) : closeLatch s = emitAll [(.latchClose, .latch s.cfg.latchActive.not)] s := rfl

theorem effects_openLatch (s : State) (Bs : List Bank) : effects (openLatch s) Bs = effects s Bs := by
  rw [openLatch_eq, effects_emitAll]

theorem afterReads_openLatch (s : State) (Bs : List Bank) :
    afterReads (openLatch s) Bs = openLatch (afterReads s Bs) := by
  rw [openLatch_eq, afterReads_emitAll, openLatch_eq, (afterReads_reaches s Bs).cfg]

/-- The reads of banks leave the trace alone. -/
theorem afterReads_trace (s : State) (Bs : List Bank) :
    (afterReads s Bs).trace = s.trace ∧ (afterReads s Bs).cursorLog = s.cursorLog := by
  induction Bs generalizing s with
  | nil => exact ⟨rfl, rfl⟩
  | cons B Bs ih =>
    rw [afterReads, (ih _).1, (ih _).2]
    unfold afterRead
    split <;> simp

/-- The state of an UPDATE_ALL in which no bank faults, `os` being the outcomes of its banks in turn. -/
def updated (s : State) (os : List BankOutcome) : State :=
  finish (.index (failFold s.params.failIndexBasis s.registry.length 0 os 0))
    (closeLatch (emitAll (bankEvents 0 os) (openLatch (afterReads s s.registry.reverse))))

/-- The state of an UPDATE_ALL whose bank after the outcomes `pre` faults. -/
def brokenOff (s : State) (pre : List BankOutcome) (k : FaultKind) : State :=
  raiseFault k 0x09#8
    (emitAll (bankEvents 0 pre) (openLatch (afterReads s (s.registry.reverse.take (pre.length + 1)))))

theorem execUpdateAll_returns {s : State} (ho : s.isOpen)
    (hn : ∀ o ∈ effects s s.registry.reverse, o.faulted = false) :
    exec .updateAll s = .next (updated s (effects s s.registry.reverse)) := by
  have h := visitFrom_eq s.params.failIndexBasis s.registry.length s.registry.reverse 0 0 (openLatch s)
    (by rw [effects_openLatch]; exact hn)
  simp only [exec, execUpdateAll, gate_open s ho, updateAll, h, andThen_returned, map_returned, conclude,
    effects_openLatch, afterReads_openLatch]
  rfl

theorem execUpdateAll_faults {s : State} (ho : s.isOpen) {pre post : List BankOutcome} {k : FaultKind}
    (hn : effects s s.registry.reverse = pre ++ .faults k :: post) (hpre : ∀ o ∈ pre, o.faulted = false) :
    exec .updateAll s = .next (brokenOff s pre k) := by
  have h := visitFrom_fault s.params.failIndexBasis s.registry.length s.registry.reverse 0 0 (openLatch s) pre post k
    (by rw [effects_openLatch]; exact hn) hpre
  simp only [exec, execUpdateAll, gate_open s ho, updateAll, h, andThen_raised, map_raised, conclude,
    afterReads_openLatch]
  rfl

/-- Outcomes without a fault, or with a first one. -/
theorem faulted_split (os : List BankOutcome) :
    (∀ o ∈ os, o.faulted = false) ∨
    ∃ pre k post, os = pre ++ .faults k :: post ∧ ∀ o ∈ pre, o.faulted = false := by
  induction os with
  | nil => exact .inl (by simp)
  | cons o os ih =>
    cases o with
    | faults k => exact .inr ⟨[], k, os, rfl, by simp⟩
    | emits ps st =>
      rcases ih with h | ⟨pre, k, post, h1, h2⟩
      · exact .inl (by simpa [BankOutcome.faulted] using h)
      · exact .inr ⟨.emits ps st :: pre, k, post, by rw [h1]; rfl, by simpa [BankOutcome.faulted] using h2⟩

/-- Say once what UPDATE_ALL can do. -/
theorem execUpdateAll_next {s t : State} (h : exec .updateAll s = .next t) :
    s.isOpen ∧
    (((∀ o ∈ effects s s.registry.reverse, o.faulted = false) ∧ t = updated s (effects s s.registry.reverse)) ∨
      ∃ pre k post, effects s s.registry.reverse = pre ++ .faults k :: post ∧ (∀ o ∈ pre, o.faulted = false) ∧
        t = brokenOff s pre k) := by
  have ho : s.isOpen := (exec_next h).opened
  refine ⟨ho, ?_⟩
  rcases faulted_split (effects s s.registry.reverse) with hn | ⟨pre, k, post, he, hpre⟩
  · rw [execUpdateAll_returns ho hn, Host.Outcome.next.injEq] at h
    exact .inl ⟨hn, h.symm⟩
  · rw [execUpdateAll_faults ho he hpre, Host.Outcome.next.injEq] at h
    exact .inr ⟨pre, k, post, he, hpre, h.symm⟩

/-! ### What it leaves -/

theorem updated_trace (s : State) (os : List BankOutcome) :
    (updated s os).trace = s.trace ++ [.latch s.cfg.latchActive] ++ streamPhases (os.flatMap BankOutcome.bytes) ++
      [.latch s.cfg.latchActive.not] := by
  simp [updated, closeLatch, openLatch, emitAll_trace, bankEvents_phases, (afterReads_trace s _).1,
    (afterReads_reaches s _).cfg]

theorem updated_cursorLog (s : State) (os : List BankOutcome) :
    (updated s os).cursorLog = s.cursorLog ++ (.latchOpen :: (bankEvents 0 os).map Prod.fst ++ [.latchClose]) := by
  simp [updated, closeLatch, openLatch, emitAll_cursorLog, (afterReads_trace s _).2]

theorem updated_fault (s : State) (os : List BankOutcome) : (updated s os).fault = s.fault := by
  have h : Reaches s (closeLatch (emitAll (bankEvents 0 os) (openLatch (afterReads s s.registry.reverse)))) :=
    .emit _ _ (.emitAll _ (.emit _ _ (afterReads_reaches s _)))
  exact h.fault

theorem brokenOff_trace (s : State) (pre : List BankOutcome) (k : FaultKind) :
    (brokenOff s pre k).trace = s.trace ++ [.latch s.cfg.latchActive] ++
      streamPhases (pre.flatMap BankOutcome.bytes) := by
  simp [brokenOff, openLatch, emitAll_trace, bankEvents_phases, (afterReads_trace s _).1, (afterReads_reaches s _).cfg]

theorem brokenOff_cursorLog (s : State) (pre : List BankOutcome) (k : FaultKind) :
    (brokenOff s pre k).cursorLog = s.cursorLog ++ (.latchOpen :: (bankEvents 0 pre).map Prod.fst) := by
  simp [brokenOff, openLatch, emitAll_cursorLog, (afterReads_trace s _).2]

theorem brokenOff_fault (s : State) (pre : List BankOutcome) (k : FaultKind) : (brokenOff s pre k).fault ≠ none := by
  simp [brokenOff]

end Sys2Proof.Machine
end

