-- ==== Sys2Proof/Laws/Cursor.lean ====
section
/-!
SUPPORT. Where the cursor stands during an UPDATE_ALL (R38): the cursors of a byte, of a bank and of several banks are in
order, and within the positions and bits there are.
-/

namespace Sys2Proof.Machine

theorem cellEvents_cursors (j i : Nat) (p : Byte) :
    (cellEvents j i p).map Prod.fst = Config.bitIndices.flatMap fun k => [.cell j i k .setup, .cell j i k .clock] := rfl

theorem cell_mem {j i : Nat} {p : Byte} {c : Cursor} (h : c ∈ (cellEvents j i p).map Prod.fst) :
    ∃ k ph, k ≤ 7 ∧ c = .cell j i k ph := by
  rw [cellEvents_cursors, List.mem_flatMap] at h
  obtain ⟨k, hk, hc⟩ := h
  have h7 : ∀ k ∈ Config.bitIndices, k ≤ 7 := by decide
  simp only [List.mem_cons, List.not_mem_nil, or_false] at hc
  rcases hc with rfl | rfl
  · exact ⟨k, _, h7 k hk, rfl⟩
  · exact ⟨k, _, h7 k hk, rfl⟩

/-- Within a byte: bit 7 first, SETUP before CLOCK. -/
theorem cell_ordered (j i : Nat) (p : Byte) : ((cellEvents j i p).map Prod.fst).Pairwise Cursor.before := by
  rw [cellEvents_cursors, List.pairwise_flatMap]
  refine ⟨fun k _ => ?_, ?_⟩
  · simp [Cursor.before, cellBefore]
  · have hd : Config.bitIndices.Pairwise (fun k k' => k' < k) := by decide
    refine hd.imp fun {k k'} hk x hx y hy => ?_
    simp only [List.mem_cons, List.not_mem_nil, or_false] at hx hy
    rcases hx with rfl | rfl <;> rcases hy with rfl | rfl <;> exact .inr ⟨rfl, .inr ⟨rfl, .inl hk⟩⟩

theorem bytes_mem {j i : Nat} {ps : List Byte} {c : Cursor} (h : c ∈ (byteEvents j i ps).map Prod.fst) :
    ∃ i' k ph, k ≤ 7 ∧ i ≤ i' ∧ i' < i + ps.length ∧ c = .cell j i' k ph := by
  induction ps generalizing i with
  | nil => simp [byteEvents] at h
  | cons p ps ih =>
    rw [byteEvents, List.map_append, List.mem_append] at h
    rw [List.length_cons]
    rcases h with h | h
    · obtain ⟨k, ph, h1, h2⟩ := cell_mem h
      exact ⟨i, k, ph, h1, le_refl _, by omega, h2⟩
    · obtain ⟨i', k, ph, h1, h2, h3, h4⟩ := ih h
      exact ⟨i', k, ph, h1, by omega, by omega, h4⟩

/-- Within a bank: position by position. -/
theorem bytes_ordered (j i : Nat) (ps : List Byte) : ((byteEvents j i ps).map Prod.fst).Pairwise Cursor.before := by
  induction ps generalizing i with
  | nil => simp [byteEvents]
  | cons p ps ih =>
    rw [byteEvents, List.map_append, List.pairwise_append]
    refine ⟨cell_ordered _ _ _, ih _, fun a ha b hb => ?_⟩
    obtain ⟨k, ph, _, rfl⟩ := cell_mem ha
    obtain ⟨i', k', ph', _, h, _, rfl⟩ := bytes_mem hb
    exact .inr ⟨rfl, .inl (by omega)⟩

theorem banks_mem {j : Nat} {os : List BankOutcome} {c : Cursor} (h : c ∈ (bankEvents j os).map Prod.fst) :
    ∃ j' i k ph o, k ≤ 7 ∧ os[j']? = some o ∧ i < o.bytes.length ∧ c = .cell (j + j') i k ph := by
  induction os generalizing j with
  | nil => simp [bankEvents] at h
  | cons o os ih =>
    rw [bankEvents, List.map_append, List.mem_append] at h
    rcases h with h | h
    · obtain ⟨i', k, ph, h1, h2, h3, h4⟩ := bytes_mem h
      exact ⟨0, i', k, ph, o, h1, rfl, by omega, h4⟩
    · obtain ⟨j', i, k, ph, o', h1, h2, h3, h4⟩ := ih h
      exact ⟨j' + 1, i, k, ph, o', h1, h2, h3, by rw [h4, Nat.add_assoc, Nat.add_comm 1]⟩

/-- Bank by bank. -/
theorem banks_ordered (j : Nat) (os : List BankOutcome) :
    ((bankEvents j os).map Prod.fst).Pairwise Cursor.before := by
  induction os generalizing j with
  | nil => simp [bankEvents]
  | cons o os ih =>
    rw [bankEvents, List.map_append, List.pairwise_append]
    refine ⟨bytes_ordered _ _ _, ih _, fun a ha b hb => ?_⟩
    obtain ⟨i, k, ph, _, _, _, rfl⟩ := bytes_mem ha
    obtain ⟨j', i', k', ph', o, _, _, _, rfl⟩ := banks_mem hb
    exact .inl (by omega)

/-- A bank emits at most one byte for each of its positions (R133). -/
theorem effects_get {Bs : List Bank} {s : State} {j : Nat} {o : BankOutcome} (h : (effects s Bs)[j]? = some o) :
    ∃ B, Bs[j]? = some B ∧ o.bytes.length ≤ B.enc.length := by
  induction Bs generalizing s j with
  | nil => simp [effects] at h
  | cons B Bs ih =>
    rw [effects] at h
    cases j with
    | succ j => exact ih h
    | zero =>
      simp only [List.getElem?_cons_zero, Option.some.injEq] at h
      subst h
      refine ⟨B, rfl, ?_⟩
      unfold bankEffect
      split
      · exact Nat.zero_le _
      split
      · simp [BankOutcome.bytes]
      split
      · exact Nat.zero_le _
      · next a _ =>
        cases readNow s a with
        | none => exact Nat.zero_le _
        | some V =>
          simp only [valueOutcome]
          split <;> simp [BankOutcome.bytes, digitBytes_length]

/-- A bank that does not fault emits one byte for each position, or none (R133). -/
theorem bankEffect_length {s : State} {B : Bank} (h : (bankEffect s B).faulted = false) :
    (bankEffect s B).bytes.length = if B.emitsBytes then B.enc.length else 0 := by
  unfold bankEffect at h ⊢
  by_cases h0 : B.enc.length = 0
  · simp [h0, BankOutcome.bytes]
  · rw [if_neg h0] at h ⊢
    by_cases h1 : B.enabled = false
    · simp [h1, BankOutcome.bytes, Bank.emitsBytes]
    · rw [if_neg h1] at h ⊢
      cases h2 : B.source with
      | none => simp [h1, h2, BankOutcome.bytes, Bank.emitsBytes]
      | some a =>
        rw [h2] at h
        simp only at h ⊢
        cases h3 : readNow s a with
        | none => rw [h3] at h; simp [valueOutcome, BankOutcome.faulted] at h
        | some V =>
          rw [h3] at h
          simp only [valueOutcome] at h ⊢
          by_cases h4 : V < 0
          · rw [if_pos h4] at h; simp [BankOutcome.faulted] at h
          · rw [if_neg h4]; simp [BankOutcome.bytes, digitBytes_length, Bank.emitsBytes, h2]

end Sys2Proof.Machine
end

