-- ==== Sys2Proof/Laws/Decode.lean ====
section
/-!
SUPPORT. The opcode map is one to one, and each operand decoder accepts exactly the operands that fit its kind (R81).
-/

namespace Sys2Proof

/-- Every row's code leads back to the row (R82). -/
theorem ofCode_code (m : Op) : Op.ofCode m.code = some m := by cases m <;> rfl

/-- A code leads to a row only if it is the row's code (R82). -/
theorem code_of_ofCode {c : Byte} {m : Op} (h : Op.ofCode c = some m) : m.code = c := by
  simpa using List.find?_some h

/-- No two rows share a code (R82). -/
theorem code_injective {m m' : Op} (h : m.code = m'.code) : m = m' := by
  have h1 := ofCode_code m
  rw [h, ofCode_code] at h1
  exact (Option.some.inj h1).symm

theorem asNatural_natOperand (n : Nat) : asNatural (natOperand n) = .ok n := by
  simp [asNatural, natOperand]

/-- A byte list survives being written as integers and read back. -/
theorem asBytes_toNat (bs : List Byte) : asBytes (bs.map fun b => Int.ofNat b.toNat) = .ok bs := by
  induction bs with
  | nil => rfl
  | cons b bs ih =>
    have hb : (0 : Int) ≤ Int.ofNat b.toNat ∧ Int.ofNat b.toNat < 256 := by
      have := b.isLt
      constructor
      · simp
      · simp; omega
    simp only [List.map_cons, asBytes, if_pos hb, ih]
    simp

theorem asTable_tableOperand (t : Option (List Byte)) : asTable (tableOperand t) = .ok t := by
  cases t with
  | none => rfl
  | some bs =>
    show (asBytes (bs.map fun b => Int.ofNat b.toNat)).map some = .ok (some bs)
    rw [asBytes_toNat]
    rfl

/-- `asBytes` accepts exactly the lists all of whose elements are in `0..255` (R81). -/
theorem asBytes_ok_iff (zs : List Int) :
    (∃ bs, asBytes zs = .ok bs) ↔ (zs.all fun z => decide (0 ≤ z ∧ z < 256)) = true := by
  induction zs with
  | nil => simp [asBytes]
  | cons z zs ih =>
    simp only [asBytes, List.all_cons, Bool.and_eq_true, decide_eq_true_eq, ← ih]
    by_cases hz : 0 ≤ z ∧ z < 256
    · rw [if_pos hz]
      cases asBytes zs <;> simp [hz]
    · rw [if_neg hz]
      simp [hz]

/-- What `asBytes` reads is what was written. -/
theorem asBytes_ok {zs : List Int} {bs : List Byte} (h : asBytes zs = .ok bs) :
    (bs.map fun b => Int.ofNat b.toNat) = zs := by
  induction zs generalizing bs with
  | nil => simp [asBytes] at h; simp [← h]
  | cons z zs ih =>
    simp only [asBytes] at h
    split at h
    · next hz =>
      cases hb : asBytes zs with
      | error e => rw [hb] at h; cases h
      | ok cs =>
        rw [hb] at h
        simp only [Except.ok.injEq] at h
        rw [← h, List.map_cons, ih hb]
        congr 1
        have h1 : z.toNat < 256 := by omega
        simp only [BitVec.toNat_ofNat, Nat.reducePow, Nat.mod_eq_of_lt h1]
        exact Int.toNat_of_nonneg hz.1
    · cases h

theorem key_fits (id : Id) : (Operand.key id).fits .key = true := rfl
theorem ref_fits (r : Option Handle) : (Operand.ref r).fits .ref = true := rfl

/-- An encoded natural number fits (R81). -/
theorem natOperand_fits (n : Nat) : (natOperand n).fits .natural = true := by
  simp [natOperand, Operand.fits]

/-- An encoded table fits (R81). -/
theorem tableOperand_fits (t : Option (List Byte)) : (tableOperand t).fits .table = true := by
  cases t with
  | none => rfl
  | some bs => exact (asBytes_ok_iff _).1 ⟨bs, asBytes_toNat bs⟩

/-! ### What the operand decoders read -/

theorem asKey_ok {o : Operand} {id : Id} (h : asKey o = .ok id) : o = .key id := by
  unfold asKey at h
  split at h <;> cases h
  rfl

theorem asNatural_ok {o : Operand} {n : Nat} (h : asNatural o = .ok n) : o = natOperand n := by
  unfold asNatural at h
  split at h
  · split at h
    · next z hz => cases h; simp [natOperand]; omega
    · cases h
  · cases h

theorem asRef_ok {o : Operand} {r : Option Handle} (h : asRef o = .ok r) : o = .ref r := by
  unfold asRef at h
  split at h <;> cases h
  rfl

theorem asTable_ok {o : Operand} {t : Option (List Byte)} (h : asTable o = .ok t) : o = tableOperand t := by
  unfold asTable at h
  split at h
  · cases h; rfl
  · next zs =>
    cases hb : asBytes zs with
    | error e => rw [hb] at h; cases h
    | ok bs => rw [hb] at h; cases h; simp [tableOperand]; exact (asBytes_ok hb).symm
  · cases h

theorem asInteger_ok {o : Operand} {z : Int} (h : asInteger o = .ok z) : o = .int z := by
  unfold asInteger at h
  split at h <;> cases h
  rfl

theorem asBoolean_ok {o : Operand} {b : Bool} (h : asBoolean o = .ok b) : o = .bool b := by
  unfold asBoolean at h
  split at h <;> cases h
  rfl

theorem asOrder_ok {o : Operand} {bo : BitOrder} (h : asOrder o = .ok bo) : o = .order bo := by
  unfold asOrder at h
  split at h <;> cases h
  rfl

theorem take0_ok {j i : Instr} {os : List Operand} (h : take0 j os = .ok i) : os = [] ∧ i = j := by
  unfold take0 at h
  split at h
  · cases h; exact ⟨rfl, rfl⟩
  · cases h

theorem take1_ok {α : Type} {fa : Operand → Except Reject α} {mk : α → Instr} {i : Instr} {os : List Operand}
    (h : take1 fa mk os = .ok i) : ∃ o a, os = [o] ∧ fa o = .ok a ∧ i = mk a := by
  unfold take1 at h
  split at h
  · next o =>
    cases ha : fa o with
    | error e => rw [ha] at h; cases h
    | ok a => rw [ha] at h; cases h; exact ⟨o, a, rfl, ha, rfl⟩
  · cases h

theorem take2_ok {α β : Type} {fa : Operand → Except Reject α} {fb : Operand → Except Reject β}
    {mk : α → β → Instr} {i : Instr} {os : List Operand} (h : take2 fa fb mk os = .ok i) :
    ∃ o o' a b, os = [o, o'] ∧ fa o = .ok a ∧ fb o' = .ok b ∧ i = mk a b := by
  unfold take2 at h
  split at h
  · next o o' =>
    cases ha : fa o with
    | error e => rw [ha] at h; cases h
    | ok a =>
      cases hb : fb o' with
      | error e => rw [ha, hb] at h; cases h
      | ok b => rw [ha, hb] at h; cases h; exact ⟨o, o', a, b, rfl, ha, hb, rfl⟩
  · cases h

theorem takeBank_ok {mk : Id → Nat → Option Handle → Option (List Byte) → Instr} {i : Instr} {os : List Operand}
    (h : takeBank mk os = .ok i) :
    ∃ id n r t, os = [.key id, natOperand n, .ref r, tableOperand t] ∧ i = mk id n r t := by
  unfold takeBank at h
  split at h
  · next a b c d =>
    cases ha : asKey a with
    | error e => rw [ha] at h; cases h
    | ok x =>
      cases hb : asNatural b with
      | error e => rw [ha, hb] at h; cases h
      | ok y =>
        cases hc : asRef c with
        | error e => rw [ha, hb, hc] at h; cases h
        | ok z =>
          cases hd : asTable d with
          | error e => rw [ha, hb, hc, hd] at h; cases h
          | ok w =>
            rw [ha, hb, hc, hd] at h
            cases h
            exact ⟨x, y, z, w, by rw [asKey_ok ha, asNatural_ok hb, asRef_ok hc, asTable_ok hd], rfl⟩
  · cases h

theorem takeBankAt_ok {mk : Id → Nat → Nat → Option Handle → Option (List Byte) → Instr} {i : Instr}
    {os : List Operand} (h : takeBankAt mk os = .ok i) :
    ∃ id n k r t, os = [.key id, natOperand n, natOperand k, .ref r, tableOperand t] ∧ i = mk id n k r t := by
  unfold takeBankAt at h
  split at h
  · next a b e c d =>
    cases ha : asKey a with
    | error e => rw [ha] at h; cases h
    | ok x =>
      cases hb : asNatural b with
      | error e => rw [ha, hb] at h; cases h
      | ok y =>
        cases he : asNatural e with
        | error e => rw [ha, hb, he] at h; cases h
        | ok k =>
          cases hc : asRef c with
          | error e => rw [ha, hb, he, hc] at h; cases h
          | ok z =>
            cases hd : asTable d with
            | error e => rw [ha, hb, he, hc, hd] at h; cases h
            | ok w =>
              rw [ha, hb, he, hc, hd] at h
              cases h
              exact ⟨x, y, k, z, w,
                by rw [asKey_ok ha, asNatural_ok hb, asNatural_ok he, asRef_ok hc, asTable_ok hd], rfl⟩
  · cases h

/-- What a row's operand decoder accepts is an instruction of the row, and its operands are those read (R81). -/
theorem decodeOperands_ok {m : Op} {os : List Operand} {i : Instr} (h : decodeOperands m os = .ok i) :
    i.op = m ∧ encodeOperands i = os := by
  cases m <;> simp only [decodeOperands] at h
  case addBank => obtain ⟨_, _, _, _, rfl, rfl⟩ := takeBank_ok h; exact ⟨rfl, rfl⟩
  case insertBank => obtain ⟨_, _, _, _, _, rfl, rfl⟩ := takeBankAt_ok h; exact ⟨rfl, rfl⟩
  case replaceBank => obtain ⟨_, _, _, _, rfl, rfl⟩ := takeBank_ok h; exact ⟨rfl, rfl⟩
  case removeBank => obtain ⟨_, _, rfl, h1, rfl⟩ := take1_ok h; exact ⟨rfl, by rw [asKey_ok h1]; rfl⟩
  case setBitOrder =>
    obtain ⟨_, _, _, _, rfl, h1, h2, rfl⟩ := take2_ok h
    exact ⟨rfl, by rw [asKey_ok h1, asInteger_ok h2]; rfl⟩
  case enableBank =>
    obtain ⟨_, _, _, _, rfl, h1, h2, rfl⟩ := take2_ok h
    exact ⟨rfl, by rw [asKey_ok h1, asBoolean_ok h2]; rfl⟩
  case setSource =>
    obtain ⟨_, _, _, _, rfl, h1, h2, rfl⟩ := take2_ok h
    exact ⟨rfl, by rw [asKey_ok h1, asRef_ok h2]; rfl⟩
  case encUpdate => obtain ⟨_, _, rfl, h1, rfl⟩ := take1_ok h; exact ⟨rfl, by rw [asInteger_ok h1]; rfl⟩
  case encSetBitOrder => obtain ⟨_, _, rfl, h1, rfl⟩ := take1_ok h; exact ⟨rfl, by rw [asOrder_ok h1]; rfl⟩
  case bankSetBitOrder => obtain ⟨_, _, rfl, h1, rfl⟩ := take1_ok h; exact ⟨rfl, by rw [asOrder_ok h1]; rfl⟩
  case bankSetEnabled => obtain ⟨_, _, rfl, h1, rfl⟩ := take1_ok h; exact ⟨rfl, by rw [asBoolean_ok h1]; rfl⟩
  case bankSetSource => obtain ⟨_, _, rfl, h1, rfl⟩ := take1_ok h; exact ⟨rfl, by rw [asRef_ok h1]; rfl⟩
  all_goals (obtain ⟨rfl, rfl⟩ := take0_ok h; exact ⟨rfl, rfl⟩)

/-- The ids and handles of a record are those of its instruction. -/
theorem keysTyped_operands (p : Params) (i : Instr) : (encodeOperands i).all (Operand.typed p) = i.typed p := by
  cases i <;> simp [encodeOperands, Operand.typed, Instr.typed, Instr.key, Instr.handle, natOperand, tableOperand]

/-- What the decoder accepts is what the record spells, its id and handle being values of their types (R81, R90). -/
theorem decode_ok_iff {p : Params} {f : Interface} {c : RawCommand} {i : Instr} :
    decode p f c = .ok i ↔ decodeRow f c = .ok i ∧ i.typed p = true := by
  unfold decode
  cases decodeRow f c with
  | error e => simp
  | ok j =>
    simp only [Except.ok.injEq]
    split
    · next h => exact ⟨fun e => by cases e; exact ⟨rfl, h⟩, fun e => by cases e.1; rfl⟩
    · next h => exact ⟨fun e => (by cases e), fun e => absurd (e.1 ▸ e.2) h⟩

end Sys2Proof
end

