-- ==== Sys2Proof/Laws/PerInstr.lean ====
section
/-!
SUPPORT. The per-instruction family EncodedFits: the record an instruction encodes to is one its interface accepts (R90).
-/

namespace Sys2Proof.Laws.EncodedFits

/-- The record of an instruction whose id and handle are values of their types passes the checks of R90 on the
instruction's interface. -/
def Statement (i : Instr) : Prop := ∀ p : Params, i.typed p = true → (encode i).wellFormed p i.interface = true

theorem of_operands (i : Instr) (h : operandsFit i.op.kinds (encodeOperands i) = true) : Statement i := by
  intro p hp
  simp [RawCommand.wellFormed, RawCommand.codeKnown, RawCommand.codeAllowed, RawCommand.operandsFit, encode,
    ofCode_code, Instr.interface, h, RawCommand.keysTyped, keysTyped_operands, hp]

theorem addBank (id : Id) (n : Nat) (ref : Option Handle) (table : Option (List Byte)) :
    Statement (.addBank id n ref table) :=
  of_operands _ (by simp [Instr.op, Op.kinds, encodeOperands, operandsFit, natOperand_fits, tableOperand_fits,
    key_fits, ref_fits])
theorem insertBank (id : Id) (n index : Nat) (ref : Option Handle) (table : Option (List Byte)) :
    Statement (.insertBank id n index ref table) :=
  of_operands _ (by simp [Instr.op, Op.kinds, encodeOperands, operandsFit, natOperand_fits, tableOperand_fits,
    key_fits, ref_fits])
theorem replaceBank (id : Id) (n : Nat) (ref : Option Handle) (table : Option (List Byte)) :
    Statement (.replaceBank id n ref table) :=
  of_operands _ (by simp [Instr.op, Op.kinds, encodeOperands, operandsFit, natOperand_fits, tableOperand_fits,
    key_fits, ref_fits])
theorem removeBank (id : Id) : Statement (.removeBank id) := of_operands _ rfl
theorem clearAll : Statement .clearAll := of_operands _ rfl
theorem setBitOrder (id : Id) (order : Int) : Statement (.setBitOrder id order) := of_operands _ rfl
theorem enableBank (id : Id) (enabled : Bool) : Statement (.enableBank id enabled) := of_operands _ rfl
theorem setSource (id : Id) (ref : Option Handle) : Statement (.setSource id ref) := of_operands _ rfl
theorem updateAll : Statement .updateAll := of_operands _ rfl
theorem printAll : Statement .printAll := of_operands _ rfl
theorem encUpdate (d : Int) : Statement (.encUpdate d) := of_operands _ rfl
theorem encOff : Statement .encOff := of_operands _ rfl
theorem encSetBitOrder (bo : BitOrder) : Statement (.encSetBitOrder bo) := of_operands _ rfl
theorem encGetBitOrder : Statement .encGetBitOrder := of_operands _ rfl
theorem bankUpdate : Statement .bankUpdate := of_operands _ rfl
theorem bankGetBitOrder : Statement .bankGetBitOrder := of_operands _ rfl
theorem bankSetBitOrder (bo : BitOrder) : Statement (.bankSetBitOrder bo) := of_operands _ rfl
theorem bankSetEnabled (enabled : Bool) : Statement (.bankSetEnabled enabled) := of_operands _ rfl
theorem bankSetSource (ref : Option Handle) : Statement (.bankSetSource ref) := of_operands _ rfl

end Sys2Proof.Laws.EncodedFits
end

