-- ==== Sys2Proof/Laws/Registry.lean ====
section
/-!
SUPPORT. The registry commands' shared operations, one lemma for each thing they can answer (R150, R153, R154), and what
an edit of the registry keeps (R29, R32, R35).
-/

namespace Sys2Proof.Machine

/-! ### Tables and capacities -/

theorem resolveTable_bad {c : Cfg} {table : Option (List Byte)} (h : ¬ tableLegal table) :
    resolveTable c table = none := by
  cases table with
  | none => exact absurd trivial h
  | some bs =>
    have h' : ¬ bs.length = Config.tableSize := h
    simp only [resolveTable, tableOfBytes]
    rw [dif_neg h']

theorem resolveTable_good {c : Cfg} {table : Option (List Byte)} (h : tableLegal table) :
    ∃ T, resolveTable c table = some T ∧ tableChosen c T table := by
  cases table with
  | none => exact ⟨_, rfl, rfl⟩
  | some bs =>
    have h' : bs.length = Config.tableSize := h
    refine ⟨⟨bs.toArray, by simpa using h'⟩, by simp only [resolveTable, tableOfBytes]; rw [dif_pos h'], ?_⟩
    simp [tableChosen, Vector.toList]

theorem overPositions_iff {p : Params} {n : Nat} : overPositions p n = true ↔ ¬ positionsLegal p n := by
  unfold overPositions positionsLegal
  cases p.maxPositions <;> simp

theorem registryFull_iff {p : Params} {R : List Bank} : registryFull p R = true ↔ ¬ roomFor p R := by
  unfold registryFull roomFor
  cases p.maxBanks <;> simp

theorem overPositions_false {p : Params} {n : Nat} (h : positionsLegal p n) : overPositions p n = false := by
  cases hh : overPositions p n with
  | false => rfl
  | true => exact absurd h (overPositions_iff.1 hh)

theorem registryFull_false {p : Params} {R : List Bank} (h : roomFor p R) : registryFull p R = false := by
  cases hh : registryFull p R with
  | false => rfl
  | true => exact absurd h (registryFull_iff.1 hh)

theorem checkedTable_bad {n : Nat} {table : Option (List Byte)} {s : State} (h : ¬ tableLegal table) :
    checkedTable n table s = .raised .badTable s := by
  simp [checkedTable, resolveTable_bad h]

theorem checkedTable_capacity {n : Nat} {table : Option (List Byte)} {s : State} (h : tableLegal table)
    (hp : ¬ positionsLegal s.params n) : checkedTable n table s = .raised .capacity s := by
  obtain ⟨T, hT, _⟩ := resolveTable_good (c := s.cfg) h
  simp [checkedTable, hT, overPositions_iff.2 hp]

theorem checkedTable_good {n : Nat} {table : Option (List Byte)} {s : State} (h : tableLegal table)
    (hp : positionsLegal s.params n) :
    ∃ T, tableChosen s.cfg T table ∧ checkedTable n table s = .returned T s := by
  obtain ⟨T, hT, hc⟩ := resolveTable_good (c := s.cfg) h
  exact ⟨T, hc, by simp [checkedTable, hT, overPositions_false hp]⟩

/-! ### The id of a bank to place -/

theorem firstMatch_present {R : List Bank} {id : Id} (h : idPresent R id) : ∃ k, firstMatch R id = some k := by
  cases hh : firstMatch R id with
  | some k => exact ⟨k, rfl⟩
  | none =>
    obtain ⟨B, h1, h2⟩ := h
    exact absurd h2 ((firstMatch_none_iff _ _).1 hh B h1)

theorem firstMatch_absent {R : List Bank} {id : Id} (h : ¬ idPresent R id) : firstMatch R id = none := by
  rw [firstMatch_none_iff]
  intro B hB hid
  exact h ⟨B, hB, hid⟩

theorem placeBank_present {B : Bank} {place : List Bank → List Bank} {s : State} (h : idPresent s.registry B.id) :
    placeBank B place s = .returned .nothing s := by
  obtain ⟨k, hk⟩ := firstMatch_present h
  simp [placeBank, hk]

theorem placeBank_full {B : Bank} {place : List Bank → List Bank} {s : State} (h : ¬ idPresent s.registry B.id)
    (hf : ¬ roomFor s.params s.registry) : placeBank B place s = .raised .capacity s := by
  simp [placeBank, firstMatch_absent h, registryFull_iff.2 hf]

theorem placeBank_placed {B : Bank} {place : List Bank → List Bank} {s : State} (h : ¬ idPresent s.registry B.id)
    (hf : roomFor s.params s.registry) :
    placeBank B place s = .returned .nothing (setRegistry (place s.registry) s) := by
  simp [placeBank, firstMatch_absent h, registryFull_false hf]

/-! ### First match -/

theorem onFirstMatch_split {s : State} {pre post : List Bank} {B : Bank} (f : Bank → Bank)
    (hR : s.registry = pre ++ B :: post) (hf : firstOf pre B) :
    onFirstMatch B.id f s = setRegistry (pre ++ f B :: post) s := by
  unfold onFirstMatch
  rw [hR, firstMatch_split _ _ _ hf]
  simp only [modify_split]

theorem onFirstMatch_absent {s : State} {id : Id} (f : Bank → Bank) (h : ¬ idPresent s.registry id) :
    onFirstMatch id f s = s := by
  unfold onFirstMatch
  rw [firstMatch_absent h]

/-! ### The listing (R171) -/

theorem listingFrom_length (R : List Bank) (i : Nat) : (listingFrom i R).length = R.length := by
  induction R generalizing i with
  | nil => rfl
  | cons B R ih => simp [listingFrom, ih]

theorem listingFrom_get {R : List Bank} {i k : Nat} {B : Bank} (h : R[k]? = some B) :
    (listingFrom i R)[k]? = some (i + k, B.id, B.enc.length) := by
  induction R generalizing i k with
  | nil => simp at h
  | cons C R ih =>
    cases k with
    | zero =>
      simp only [List.getElem?_cons_zero, Option.some.injEq] at h
      simp [listingFrom, h]
    | succ k =>
      simp only [List.getElem?_cons_succ] at h
      simp [listingFrom, ih h]
      omega

/-! ### What edits keep -/

theorem mem_place {P : Bank → Prop} {pre post : List Bank} {X : Bank} (h : ∀ B ∈ pre ++ post, P B) (hX : P X) :
    ∀ B ∈ pre ++ X :: post, P B := by
  intro B hB
  simp only [List.mem_append, List.mem_cons] at hB h
  rcases hB with hB | rfl | hB
  · exact h B (.inl hB)
  · exact hX
  · exact h B (.inr hB)

theorem mem_without {P : Bank → Prop} {pre post : List Bank} {X : Bank} (h : ∀ B ∈ pre ++ X :: post, P B) :
    (∀ B ∈ pre ++ post, P B) ∧ P X := by
  refine ⟨fun B hB => h B ?_, h X (by simp)⟩
  simp only [List.mem_append, List.mem_cons] at hB ⊢
  tauto

/-- Ids stay unique (R35). -/
theorem Edit.ids {s : State} {i : Instr} {R : List Bank} (h : Edit s i R) (hs : (s.registry.map Bank.id).Nodup) :
    (R.map Bank.id).Nodup := by
  cases h with
  | same => exact hs
  | place _ pre post id n ref T hR absent room fits hk hh =>
    rw [hR] at hs absent
    simp only [List.map_append, List.map_cons] at hs ⊢
    rw [List.nodup_middle, List.nodup_cons]
    refine ⟨?_, hs⟩
    rw [← List.map_append]
    simp only [List.mem_map]
    rintro ⟨B, hB, e⟩
    exact absent B hB e
  | replace _ pre post B n ref T hR fits hh => rw [hR] at hs; simpa [newBank] using hs
  | order _ pre post B bo hR => rw [hR] at hs; simpa [Bank.setBitOrder] using hs
  | flag _ pre post B e hR => rw [hR] at hs; simpa [Bank.setEnabled] using hs
  | source _ pre post B ref hR hh => rw [hR] at hs; simpa [Bank.setSource] using hs
  | remove _ pre post B hR =>
    rw [hR] at hs
    refine List.Sublist.nodup ?_ hs
    simp
  | clear => simp
  | encoder bo pre post B p E hR hE => rw [hR] at hs; simpa using hs

/-- A property of every bank that new banks have and the setters keep stays one of every bank, unless a single encoder's
order is set by itself. -/
theorem Edit.all {P : Bank → Prop} {s : State} {i : Instr} {R : List Bank} (h : Edit s i R)
    (hi : ∀ bo, i ≠ .encSetBitOrder bo) (hs : ∀ B ∈ s.registry, P B)
    (hnew : ∀ id n ref T, overPositions s.params n = false → P (newBank id n ref T))
    (ho : ∀ B bo, P B → P (B.setBitOrder bo)) (he : ∀ B e, P B → P (B.setEnabled e))
    (hsrc : ∀ B r, P B → P (B.setSource r)) : ∀ B ∈ R, P B := by
  cases h with
  | same => exact hs
  | place _ pre post id n ref T hR absent room fits hk hh => rw [hR] at hs; exact mem_place hs (hnew _ _ _ _ fits)
  | replace _ pre post B n ref T hR fits hh =>
    rw [hR] at hs
    exact mem_place (mem_without hs).1 (hnew _ _ _ _ fits)
  | order _ pre post B bo hR => rw [hR] at hs; exact mem_place (mem_without hs).1 (ho _ _ (mem_without hs).2)
  | flag _ pre post B e hR => rw [hR] at hs; exact mem_place (mem_without hs).1 (he _ _ (mem_without hs).2)
  | source _ pre post B ref hR hh => rw [hR] at hs; exact mem_place (mem_without hs).1 (hsrc _ _ (mem_without hs).2)
  | remove _ pre post B hR => rw [hR] at hs; exact (mem_without hs).1
  | clear => simp
  | encoder bo pre post B p E hR hE => exact absurd rfl (hi bo)

/-- The registry stays within `MAX_BANKS` (R154). -/
theorem Edit.capacity {s : State} {i : Instr} {R : List Bank} (h : Edit s i R)
    (hs : ∀ m, s.params.maxBanks = some m → s.registry.length ≤ m) :
    ∀ m, s.params.maxBanks = some m → R.length ≤ m := by
  intro m hm
  have hl := hs m hm
  cases h with
  | same => exact hl
  | place _ pre post id n ref T hR absent room fits hk hh =>
    simp only [registryFull, hm, decide_eq_false_iff_not] at room
    rw [hR] at room
    simp only [List.length_append, List.length_cons] at room ⊢
    omega
  | replace _ pre post B n ref T hR fits hh => rw [hR] at hl; simpa using hl
  | order _ pre post B bo hR => rw [hR] at hl; simpa using hl
  | flag _ pre post B e hR => rw [hR] at hl; simpa using hl
  | source _ pre post B ref hR hh => rw [hR] at hl; simpa using hl
  | remove _ pre post B hR => rw [hR] at hl; simp at hl ⊢; omega
  | clear => simp
  | encoder bo pre post B p E hR hE => rw [hR] at hl; simpa using hl

/-- The ids and sources of the banks stay values of their types, those of the instruction being so (R7, R81). -/
theorem Edit.typed {s : State} {i : Instr} {R : List Bank} (h : Edit s i R) (hi : i.typed s.params = true)
    (hs : ∀ B ∈ s.registry, B.typed s.params) : ∀ B ∈ R, B.typed s.params := by
  obtain ⟨hi, hi'⟩ := Bool.and_eq_true_iff.1 hi
  have hkey : ∀ {id : Id}, i.key = some id → s.params.isId id = true := by
    intro id hk; rw [hk] at hi; exact hi
  have hhandle : ∀ {a : Handle}, i.handle = some a → s.params.isHandle a = true := by
    intro a hh; rw [hh] at hi'; exact hi'
  cases h with
  | same => exact hs
  | place _ pre post id n ref T hR absent room fits hk hh =>
    rw [hR] at hs; exact mem_place hs ⟨hkey hk, fun a ha => hhandle (hh.trans ha)⟩
  | replace _ pre post B n ref T hR fits hh =>
    rw [hR] at hs
    exact mem_place (mem_without hs).1 ⟨(mem_without hs).2.1, fun a ha => hhandle (hh.trans ha)⟩
  | order _ pre post B bo hR => rw [hR] at hs; exact mem_place (mem_without hs).1 (mem_without hs).2
  | flag _ pre post B e hR => rw [hR] at hs; exact mem_place (mem_without hs).1 (mem_without hs).2
  | source _ pre post B ref hR hh =>
    rw [hR] at hs
    exact mem_place (mem_without hs).1 ⟨(mem_without hs).2.1, fun a ha => hhandle (hh.trans ha)⟩
  | remove _ pre post B hR => rw [hR] at hs; exact (mem_without hs).1
  | clear => simp
  | encoder bo pre post B p E hR hE => rw [hR] at hs; exact mem_place (mem_without hs).1 (mem_without hs).2

end Sys2Proof.Machine
end

