-- ==== Sys2Proof/Laws/Simulation.lean ====
section
/-!
SUPPORT. Two runs side by side: a relation that the shared operations keep is kept by every instruction. `Sim` is what
the pin-moving operations need, whatever bit orders the two registries store (R105, R142); `SimAll` adds one registry for
both, and then every instruction keeps the relation (`exec_sim`).
-/

namespace Sys2Proof.Machine

/-- A relation that pin events, landing writes and the end of a command keep, between states a command cannot tell
apart but for their registries. -/
structure Sim (r : State → State → Prop) : Prop where
  opened : ∀ {s u}, r s u → u.fault = s.fault ∧ u.refused = s.refused
  cfg : ∀ {s u}, r s u → u.cfg = s.cfg
  limits : ∀ {s u}, r s u → u.params.maxPositions = s.params.maxPositions ∧ u.params.maxBanks = s.params.maxBanks ∧
    u.params.failIndexBasis = s.params.failIndexBasis
  target : ∀ {s u}, r s u → u.target = s.target
  host : ∀ {s u}, r s u → u.values = s.values ∧ u.interference = s.interference
  emit : ∀ {s u} (c : Cursor) (e : Phase), r s u → r (emit c e s) (emit c e u)
  land : ∀ {s u}, r s u → r (landWrites s) (landWrites u)
  finish : ∀ {s u} (x : Result), r s u → r (finish x s) (finish x u)
  raise : ∀ {s u} (k : FaultKind) (op : Byte), r s u → r (raiseFault k op s) (raiseFault k op u)

/-- The two operations end alike, in related states. -/
inductive DoneSim {α : Type} (r : State → State → Prop) : Done α → Done α → Prop where
  | returned (a : α) {s u : State} (h : r s u) : DoneSim r (.returned a s) (.returned a u)
  | raised (k : FaultKind) {s u : State} (h : r s u) : DoneSim r (.raised k s) (.raised k u)

/-- The second run answers a related next state whenever the first answers one. -/
def OutcomeSim (r : State → State → Prop) (o o' : Outcome) : Prop := ∀ t, o = .next t → ∃ v, o' = .next v ∧ r t v

theorem DoneSim.andThen {α β : Type} {r : State → State → Prop} {d d' : Done α} {k k' : α → State → Done β}
    (h : DoneSim r d d') (hk : ∀ a s u, r s u → DoneSim r (k a s) (k' a u)) :
    DoneSim r (d.andThen k) (d'.andThen k') := by
  cases h with
  | returned a h => exact hk a _ _ h
  | raised f h => exact .raised f h

theorem DoneSim.map {α β : Type} {r : State → State → Prop} {d d' : Done α} (f : α → β) (h : DoneSim r d d') :
    DoneSim r (d.map f) (d'.map f) := by
  cases h with
  | returned a h => exact .returned _ h
  | raised k h => exact .raised k h

namespace Sim

variable {r : State → State → Prop} {s u : State}

theorem conclude (hr : Sim r) (op : Byte) {d d' : Done Result} (h : DoneSim r d d') :
    OutcomeSim r (Machine.conclude op d) (Machine.conclude op d') := by
  intro t ht
  cases h with
  | returned x h => cases ht; exact ⟨_, rfl, hr.finish x h⟩
  | raised k h => cases ht; exact ⟨_, rfl, hr.raise k op h⟩

/-- Both gates are open, or both shut (R151). -/
theorem gate (hr : Sim r) (h : r s u) {k k' : State → Outcome} (hk : OutcomeSim r (k s) (k' u)) :
    OutcomeSim r (Machine.gate s k) (Machine.gate u k') := by
  intro t ht
  obtain ⟨ho, ht⟩ := gate_next ht
  have ho' : u.isOpen := ⟨by rw [(hr.opened h).1]; exact ho.1, by rw [(hr.opened h).2]; exact ho.2⟩
  rw [gate_open u ho']
  exact hk t ht

theorem emitAll (hr : Sim r) (es : List (Cursor × Phase)) (h : r s u) :
    r (Machine.emitAll es s) (Machine.emitAll es u) := by
  induction es generalizing s u with
  | nil => exact h
  | cons e es ih => exact ih (hr.emit e.1 e.2 h)

theorem readSource (hr : Sim r) (a : Handle) (h : r s u) :
    DoneSim r (Machine.readSource a s) (Machine.readSource a u) := by
  have h1 := hr.land h
  unfold Machine.readSource
  rw [(hr.host h1).1]
  have h2 : tornDraw u = tornDraw s := by unfold tornDraw; rw [(hr.host h).2]
  rw [h2]
  cases (landWrites s).values.read a with
  | none => exact .raised _ h1
  | some v => exact .returned _ h1

theorem blankFrom (hr : Sim r) (j : Nat) {es es' : List Encoder} (hl : es.length = es'.length) (i : Nat) (h : r s u) :
    r (Machine.blankFrom j i es s) (Machine.blankFrom j i es' u) := by
  rw [blankFrom_eq, blankFrom_eq, hl]
  exact hr.emitAll _ h

theorem encUpdate (hr : Sim r) (j i : Nat) {E E' : Encoder} (ht : E.table = E'.table) (d : Int) (h : r s u) :
    DoneSim r (Machine.encUpdate j i E d s) (Machine.encUpdate j i E' d u) := by
  unfold Machine.encUpdate
  rw [ht]
  cases patternOf E'.table d with
  | none => exact .raised _ h
  | some p => exact .returned _ (by rw [serialise_eq, serialise_eq]; exact hr.emitAll _ h)

theorem driveFrom (hr : Sim r) (j : Nat) (es es' : List Encoder)
    (ht : es.map Encoder.table = es'.map Encoder.table) (i q : Nat) (h : r s u) :
    DoneSim r (Machine.driveFrom j i es q s) (Machine.driveFrom j i es' q u) := by
  induction es generalizing es' i q s u with
  | nil =>
    cases es' with
    | nil => exact .returned _ h
    | cons E' es' => simp at ht
  | cons E es ih =>
    cases es' with
    | nil => simp at ht
    | cons E' es' =>
      simp only [List.map_cons, List.cons.injEq] at ht
      exact (hr.encUpdate j i ht.1 _ h).andThen fun _ _ _ h => ih es' ht.2 _ _ h

/-- A bank update does not tell banks apart that differ only in stored bit orders (R142). -/
theorem bankUpdate (hr : Sim r) (j : Nat) {B B' : Bank} (hB : B.forgetOrders = B'.forgetOrders) (h : r s u) :
    DoneSim r (Machine.bankUpdate j B s) (Machine.bankUpdate j B' u) := by
  simp only [Bank.forgetOrders, Bank.mk.injEq] at hB
  obtain ⟨_, henc, hsrc, _, hen⟩ := hB
  have hl : B.enc.length = B'.enc.length := by simpa using congrArg List.length henc
  have ht : B.enc.map Encoder.table = B'.enc.map Encoder.table := by
    have := congrArg (List.map Encoder.table) henc
    simpa [Function.comp_def] using this
  have hnil : B.enc = [] ↔ B'.enc = [] := by rw [← List.length_eq_zero_iff, ← List.length_eq_zero_iff, hl]
  unfold Machine.bankUpdate
  by_cases h0 : B.enc = []
  · rw [if_pos h0, if_pos (hnil.1 h0)]; exact .returned _ h
  · rw [if_neg h0, if_neg (fun h' => h0 (hnil.2 h')), ← hen, ← hsrc]
    by_cases h1 : B.enabled = false
    · rw [if_pos h1, if_pos h1]; exact .returned _ (hr.blankFrom j hl 0 h)
    · rw [if_neg h1, if_neg h1]
      cases B.source with
      | none => exact .returned _ h
      | some a =>
        refine (hr.readSource a h).andThen fun V s u h => ?_
        unfold renderValue
        split
        · exact .raised _ h
        · exact (hr.driveFrom j B.enc B'.enc ht 0 _ h).map _

theorem visitFrom (hr : Sim r) (b : FailIndexBasis) (n : Nat) (Bs Bs' : List Bank)
    (hB : Bs.map Bank.forgetOrders = Bs'.map Bank.forgetOrders) (j x : Nat) (h : r s u) :
    DoneSim r (Machine.visitFrom b n j Bs x s) (Machine.visitFrom b n j Bs' x u) := by
  induction Bs generalizing Bs' j x s u with
  | nil =>
    cases Bs' with
    | nil => exact .returned _ h
    | cons B' Bs' => simp at hB
  | cons B Bs ih =>
    cases Bs' with
    | nil => simp at hB
    | cons B' Bs' =>
      simp only [List.map_cons, List.cons.injEq] at hB
      exact (hr.bankUpdate j hB.1 h).andThen fun _ _ _ h => ih Bs' hB.2 _ _ h

/-- UPDATE_ALL does not tell registries apart that differ only in stored bit orders (R142). -/
theorem updateAll (hr : Sim r) (h : r s u)
    (hR : s.registry.map Bank.forgetOrders = u.registry.map Bank.forgetOrders) :
    DoneSim r (Machine.updateAll s) (Machine.updateAll u) := by
  unfold Machine.updateAll
  have hl : s.registry.length = u.registry.length := by simpa using congrArg List.length hR
  rw [(hr.limits h).2.2, ← hl]
  have h1 : r (openLatch s) (openLatch u) := by
    unfold openLatch; rw [hr.cfg h]; exact hr.emit _ _ h
  refine (hr.visitFrom _ _ _ _ (by rw [List.map_reverse, hR, List.map_reverse]) 0 0 h1).andThen fun x s u h => ?_
  refine .returned x ?_
  unfold closeLatch
  rw [hr.cfg h]
  exact hr.emit _ _ h

end Sim

/-- A `Sim` between states with one registry, kept when both get the same new one. -/
structure SimAll (r : State → State → Prop) : Prop extends Sim r where
  registry : ∀ {s u}, r s u → u.registry = s.registry
  set : ∀ {s u} (R : List Bank), r s u → r (setRegistry R s) (setRegistry R u)

namespace SimAll

variable {r : State → State → Prop} {s u : State}

theorem onFirstMatch (hr : SimAll r) (id : Id) (f : Bank → Bank) (h : r s u) :
    r (Machine.onFirstMatch id f s) (Machine.onFirstMatch id f u) := by
  unfold Machine.onFirstMatch
  rw [hr.registry h]
  cases firstMatch s.registry id with
  | none => exact h
  | some k => exact hr.set _ h

theorem checkedTable (hr : SimAll r) (n : Nat) (table : Option (List Byte)) (h : r s u) :
    DoneSim r (Machine.checkedTable n table s) (Machine.checkedTable n table u) := by
  unfold Machine.checkedTable
  rw [hr.cfg h]
  cases resolveTable s.cfg table with
  | none => exact .raised _ h
  | some T =>
    have hl : overPositions u.params n = overPositions s.params n := by
      unfold overPositions; rw [(hr.limits h).1]
    simp only [hl]
    split
    · exact .raised _ h
    · exact .returned _ h

theorem placeBank (hr : SimAll r) (B : Bank) (place : List Bank → List Bank) (h : r s u) :
    DoneSim r (Machine.placeBank B place s) (Machine.placeBank B place u) := by
  unfold Machine.placeBank
  rw [hr.registry h]
  cases firstMatch s.registry B.id with
  | some k => exact .returned _ h
  | none =>
    have hl : registryFull u.params s.registry = registryFull s.params s.registry := by
      unfold registryFull; rw [(hr.limits h).2.1]
    simp only [hl]
    split
    · exact .raised _ h
    · exact .returned _ (hr.set _ h)

theorem onBank (hr : SimAll r) (h : r s u) {k k' : Bank → Outcome} (hk : ∀ B, OutcomeSim r (k B) (k' B)) :
    OutcomeSim r (Machine.onBank s k) (Machine.onBank u k') := by
  intro t ht
  obtain ⟨B, hb, ht⟩ := onBank_next ht
  have hb' : u.targetBank = some B := by rw [← hb]; unfold State.targetBank; rw [hr.registry h, hr.target h]
  rw [onBank_target hb']
  exact hk B t ht

theorem onEncoder (hr : SimAll r) (h : r s u) {k k' : Bank → Encoder → Outcome}
    (hk : ∀ B E, OutcomeSim r (k B E) (k' B E)) : OutcomeSim r (Machine.onEncoder s k) (Machine.onEncoder u k') := by
  intro t ht
  obtain ⟨B, E, hb, he, ht⟩ := onEncoder_next ht
  have hb' : u.targetBank = some B := by rw [← hb]; unfold State.targetBank; rw [hr.registry h, hr.target h]
  rw [onEncoder_target hb' (by rw [hr.target h]; exact he)]
  exact hk B E t ht

theorem traversal (hr : SimAll r) (h : r s u) (b : Nat) : traversalOf u b = traversalOf s b := by
  unfold traversalOf; rw [hr.registry h]

/-- Every instruction keeps the relation. -/
theorem exec_sim (hr : SimAll r) (i : Instr) (h : r s u) : OutcomeSim r (exec i s) (exec i u) := by
  cases i with
  | addBank id n ref table =>
    simp only [exec, execAddBank]
    refine hr.gate h ?_
    exact (hr.conclude _ ((hr.checkedTable n table h).andThen fun _ _ _ h => hr.placeBank _ _ h))
  | insertBank id n index ref table =>
    simp only [exec, execInsertBank]
    refine hr.gate h ?_
    refine (hr.conclude _ ?_)
    unfold insertBank
    rw [hr.registry h]
    split
    · exact .raised _ h
    · exact (hr.checkedTable n table h).andThen fun _ _ _ h => hr.placeBank _ _ h
  | replaceBank id n ref table =>
    simp only [exec, execReplaceBank]
    refine hr.gate h ?_
    exact (hr.conclude _
      ((hr.checkedTable n table h).andThen fun _ _ _ h => .returned _ (hr.onFirstMatch _ _ h)))
  | removeBank id =>
    simp only [exec, execRemoveBank]
    refine hr.gate h ?_
    refine (hr.conclude _ (.returned _ ?_))
    unfold removeBank
    rw [hr.registry h]
    cases firstMatch s.registry id with
    | none => exact h
    | some k => exact hr.set _ h
  | clearAll =>
    simp only [exec, execClearAll]
    refine hr.gate h ?_
    exact (hr.conclude _ (.returned _ (hr.set _ h)))
  | setBitOrder id order =>
    simp only [exec, execSetBitOrder]
    refine hr.gate h ?_
    refine (hr.conclude _ (.returned _ ?_))
    unfold setBitOrder
    cases orderOfCode order with
    | none => exact h
    | some bo => exact hr.onFirstMatch _ _ h
  | enableBank id enabled =>
    simp only [exec, execEnableBank]
    refine hr.gate h ?_
    exact (hr.conclude _ (.returned _ (hr.onFirstMatch _ _ h)))
  | setSource id ref =>
    simp only [exec, execSetSource]
    refine hr.gate h ?_
    exact (hr.conclude _ (.returned _ (hr.onFirstMatch _ _ h)))
  | updateAll =>
    simp only [exec, execUpdateAll]
    refine hr.gate h ?_
    exact (hr.conclude _ ((hr.updateAll h (by rw [hr.registry h])).map _))
  | printAll =>
    simp only [exec, execPrintAll]
    refine hr.gate h ?_
    refine (hr.conclude _ ?_)
    rw [hr.registry h]
    exact .returned _ h
  | encUpdate d =>
    simp only [exec, execEncUpdate]
    refine hr.gate h ?_
    refine (hr.onEncoder h fun B E => hr.conclude _ ?_)
    rw [hr.target h, hr.traversal h]
    exact (hr.encUpdate _ _ rfl d h).map _
  | encOff =>
    simp only [exec, execEncOff]
    refine hr.gate h ?_
    refine (hr.onEncoder h fun B E => hr.conclude _ (.returned _ ?_))
    rw [hr.target h, hr.traversal h]
    exact hr.emitAll (cellEvents _ _ 0#8) h
  | encSetBitOrder bo =>
    simp only [exec, execEncSetBitOrder]
    refine hr.gate h ?_
    refine (hr.onEncoder h fun B E => hr.conclude _ (.returned _ ?_))
    rw [hr.target h, hr.registry h]
    exact hr.set _ h
  | encGetBitOrder =>
    simp only [exec, execEncGetBitOrder]
    refine hr.gate h ?_
    exact (hr.onEncoder h fun B E => hr.conclude _ (.returned _ h))
  | bankUpdate =>
    simp only [exec, execBankUpdate]
    refine hr.gate h ?_
    refine (hr.onBank h fun B => hr.conclude _ ?_)
    rw [hr.target h, hr.traversal h]
    exact (hr.bankUpdate _ rfl h).map _
  | bankGetBitOrder =>
    simp only [exec, execBankGetBitOrder]
    refine hr.gate h ?_
    exact (hr.onBank h fun B => hr.conclude _ (.returned _ h))
  | bankSetBitOrder bo =>
    simp only [exec, execBankSetBitOrder]
    refine hr.gate h ?_
    refine (hr.onBank h fun B => hr.conclude _ (.returned _ ?_))
    rw [hr.target h, hr.registry h]
    exact hr.set _ h
  | bankSetEnabled enabled =>
    simp only [exec, execBankSetEnabled]
    refine hr.gate h ?_
    refine (hr.onBank h fun B => hr.conclude _ (.returned _ ?_))
    rw [hr.target h, hr.registry h]
    exact hr.set _ h
  | bankSetSource ref =>
    simp only [exec, execBankSetSource]
    refine hr.gate h ?_
    refine (hr.onBank h fun B => hr.conclude _ (.returned _ ?_))
    rw [hr.target h, hr.registry h]
    exact hr.set _ h

end SimAll

end Sys2Proof.Machine
end

