-- ==== Sys2Proof/Laws/Step.lean ====
section
/-!
SUPPORT. What one step can do, said once: `step_next` for any input, `performRecord_next` for a record. Provers cite them
instead of unfolding the step.
-/

namespace Sys2Proof.Machine

/-- A record is refused, or performed as the instruction it decodes to (R90). -/
theorem performRecord_next {f : Interface} {c : RawCommand} {s t : State} (h : performRecord f c s = .next t) :
    ((∃ e, decode s.params f c = .error e) ∧ t = refuse s) ∨ ∃ i, decode s.params f c = .ok i ∧ exec i s = .next t := by
  unfold performRecord at h
  cases hd : decode s.params f c with
  | error e => rw [hd] at h; simp only [Host.Outcome.next.injEq] at h; exact .inl ⟨⟨e, rfl⟩, h.symm⟩
  | ok i => rw [hd] at h; exact .inr ⟨i, rfl, h⟩

/-- All that a step can do when it answers a next state, one case for each kind of input. -/
inductive StepEffect (s t : State) : Prop where
  /-- nothing to come (R224) -/
  | waits (ho : s.isOpen) (hi : s.inbox = []) (ht : t = s)
  /-- a command of the host (R151) -/
  | command (ho : s.isOpen) (c : RawCommand) (rest : List Input) (hi : s.inbox = .command c :: rest)
      (h : performRecord .host c (takeInput rest s) = .next t)
  /-- an internal operation (R92) -/
  | internal (ho : s.isOpen) (g : Target) (c : RawCommand) (rest : List Input) (hi : s.inbox = .internal g c :: rest)
      (h : performRecord .block c (aimAt g (takeInput rest s)) = .next t)
  /-- a construction (R220) -/
  | construct (a : ConstructArgs) (rest : List Input) (hi : s.inbox = .construct a :: rest)
      (h : Machine.construct a (takeInput rest s) = some t)
  /-- a write of the host (R50) -/
  | hostWrite (w : HostWrite) (rest : List Input) (hi : s.inbox = .hostWrite w :: rest)
      (ht : t = landHostWrite w (takeInput rest s))

/-- Say once what a step can do. -/
theorem step_next {s t : State} (h : step s = .next t) : StepEffect s t := by
  unfold step at h
  split at h
  · next hi =>
    obtain ⟨ho, h⟩ := gate_next h
    exact .waits ho hi (by simpa using h.symm)
  · next c rest hi =>
    obtain ⟨ho, h⟩ := gate_next h
    exact .command ho c rest hi h
  · next g c rest hi =>
    obtain ⟨ho, h⟩ := gate_next h
    exact .internal ho g c rest hi h
  · next a rest hi =>
    split at h
    · next u hu =>
      simp only [Host.Outcome.next.injEq] at h
      exact .construct a rest hi (h ▸ hu)
    · cases h
  · next w rest hi =>
    simp only [Host.Outcome.next.injEq] at h
    exact .hostWrite w rest hi h.symm

/-- A construction that produces a state had distinct pins (R221). -/
theorem construct_some {a : ConstructArgs} {s t : State} (h : construct a s = some t) :
    (cfgOf a s.params).pinsDistinct ∧
      t = { s with
        cfg := cfgOf a s.params, registry := [], pins := Pins.undriven, fault := none, refused := false, trace := [],
        cursor := .idle, target := { bank := 0, position := 0 }, result := .nothing, cursorLog := [] } := by
  unfold construct at h
  split at h
  · next hp => exact ⟨hp, by simpa using h.symm⟩
  · cases h

/-! ### What every instruction leaves alone -/

theorem Moved.cfg {i : Instr} {s m : State} (h : Moved i s m) : m.cfg = s.cfg := h.reaches.cfg

/-- No instruction writes the configuration, the parameters, the inbox or the target (R22, R40). -/
theorem exec_fixed {i : Instr} {s t : State} (h : exec i s = .next t) :
    t.cfg = s.cfg ∧ t.params = s.params ∧ t.inbox = s.inbox ∧ t.target = s.target ∧ t.refused = s.refused := by
  obtain ⟨_, m, hm, ⟨r, R, _, rfl⟩ | ⟨k, _, _, rfl⟩⟩ := exec_next h <;>
    simp [hm.reaches.cfg, hm.reaches.params, hm.reaches.inbox, hm.reaches.target, hm.reaches.refused]

/-- Every instruction appends to the trace and to the small-step trace alike (R37, R38). -/
theorem exec_trace {i : Instr} {s t : State} (h : exec i s = .next t) :
    ∃ es : List (Cursor × Phase), t.trace = s.trace ++ es.map Prod.snd ∧
      t.cursorLog = s.cursorLog ++ es.map Prod.fst := by
  obtain ⟨_, m, hm, ⟨r, R, _, rfl⟩ | ⟨k, _, _, rfl⟩⟩ := exec_next h <;> exact hm.reaches.trace

end Sys2Proof.Machine
end

