-- ==== Sys2Proof/Laws/Renaming.lean ====
section
/-!
SUPPORT. Renaming ids, handles and pins (R7): each shared operation does the same under other names. `Renamed ρ` relates
a state to the one under the new names; `exec_renamed` says that every instruction keeps it, with its result renamed.
-/

namespace Sys2Proof.Machine

/-! ### The host's variables -/

/-- Two value spaces in canonical form that read the same are the same. -/
theorem Memory.ext_of_read {m m' : Memory} (hm : m.wf) (hm' : m'.wf) (h : ∀ a, m.read a = m'.read a) : m = m' := by
  induction m generalizing m' with
  | nil =>
    cases m' with
    | nil => rfl
    | cons e' m' => simpa [Memory.read] using h e'.1
  | cons e m ih =>
    cases m' with
    | nil => simpa [Memory.read] using h e.1
    | cons e' m' =>
      obtain ⟨k, v⟩ := e
      obtain ⟨k', v'⟩ := e'
      rw [Memory.wf, List.pairwise_cons] at hm hm'
      have hk : k = k' := by
        rcases Nat.lt_trichotomy k k' with hlt | heq | hgt
        · have h1 := h k
          have h2 : Memory.read m' k = none :=
            Memory.read_below m' k fun e he => Nat.lt_trans hlt (hm'.1 e he)
          simp [Memory.read, Nat.ne_of_gt hlt, h2] at h1
        · exact heq
        · have h1 := h k'
          have h2 : Memory.read m k' = none :=
            Memory.read_below m k' fun e he => Nat.lt_trans hgt (hm.1 e he)
          simp [Memory.read, Nat.ne_of_gt hgt, h2] at h1
      subst hk
      have hv : v = v' := by simpa [Memory.read] using h k
      subst hv
      rw [ih hm.2 hm'.2 fun a => ?_]
      by_cases ha : k = a
      · subst ha; rw [Memory.read_below m k hm.1, Memory.read_below m' k hm'.1]
      · simpa [Memory.read, ha] using h a

namespace Renaming

variable (ρ : Renaming)

theorem values_wf (m : Memory) : (ρ.values m).wf := by
  induction m with
  | nil => exact List.Pairwise.nil
  | cons e m ih => exact Memory.write_wf _ _ _ ih

/-- A variable keeps its value under its new handle. -/
theorem values_read (m : Memory) (h : Handle) : (ρ.values m).read (ρ.onHandle h) = m.read h := by
  induction m with
  | nil => rfl
  | cons e m ih =>
    obtain ⟨k, v⟩ := e
    show ((ρ.values m).write (ρ.onHandle k) v).read (ρ.onHandle h) = _
    by_cases hk : k = h
    · subst hk; simp [Memory.read_write_same, Memory.read]
    · rw [Memory.read_write_other _ _ _ _ fun hc => hk (ρ.handle_injective _ _ hc).symm, ih]
      simp [Memory.read, hk]

/-- A handle that is no new name designates nothing. -/
theorem values_read_other (m : Memory) (a : Handle) (ha : ∀ h, ρ.onHandle h ≠ a) : (ρ.values m).read a = none := by
  induction m with
  | nil => rfl
  | cons e m ih => exact (Memory.read_write_other _ _ _ _ (ha e.1).symm).trans ih

/-- What renamed variables read, settled once for both kinds of handle. -/
theorem values_ext {m m' : Memory} (hm' : m'.wf) (hn : ∀ h, m'.read (ρ.onHandle h) = m.read h)
    (ho : ∀ a, (∀ h, ρ.onHandle h ≠ a) → m'.read a = none) : ρ.values m = m' := by
  refine Memory.ext_of_read (ρ.values_wf m) hm' fun a => ?_
  by_cases ha : ∃ h, ρ.onHandle h = a
  · obtain ⟨h, rfl⟩ := ha; rw [ρ.values_read, hn]
  · have ha' : ∀ h, ρ.onHandle h ≠ a := fun h hc => ha ⟨h, hc⟩
    rw [ρ.values_read_other m a ha', ho a ha']

theorem values_apply (m : Memory) (hm : m.wf) (w : HostWrite) :
    ρ.values (m.apply w) = (ρ.values m).apply (ρ.write w) := by
  refine ρ.values_ext (Memory.apply_wf _ _ (ρ.values_wf m)) (fun h => ?_) fun a ha => ?_
  · cases w with
    | set k v =>
      show ((ρ.values m).write (ρ.onHandle k) v).read _ = (m.write k v).read h
      by_cases hk : h = k
      · subst hk; rw [Memory.read_write_same, Memory.read_write_same]
      · rw [Memory.read_write_other _ _ _ _ fun hc => hk (ρ.handle_injective _ _ hc),
          Memory.read_write_other _ _ _ _ hk, ρ.values_read]
    | destroy k =>
      show ((ρ.values m).erase (ρ.onHandle k)).read _ = (m.erase k).read h
      by_cases hk : h = k
      · subst hk; rw [Memory.read_erase_same _ _ (ρ.values_wf m), Memory.read_erase_same _ _ hm]
      · rw [Memory.read_erase_other _ _ _ fun hc => hk (ρ.handle_injective _ _ hc),
          Memory.read_erase_other _ _ _ hk, ρ.values_read]
  · cases w with
    | set k v => exact (Memory.read_write_other _ _ _ _ (ha k).symm).trans (ρ.values_read_other m a ha)
    | destroy k => exact (Memory.read_erase_other _ _ _ (ha k).symm).trans (ρ.values_read_other m a ha)

theorem values_applyAll (ws : List HostWrite) (m : Memory) (hm : m.wf) :
    ρ.values (m.applyAll ws) = (ρ.values m).applyAll (ws.map ρ.write) := by
  induction ws generalizing m with
  | nil => rfl
  | cons w ws ih =>
    show ρ.values ((m.apply w).applyAll ws) = ((ρ.values m).apply (ρ.write w)).applyAll _
    rw [ih _ (Memory.apply_wf m w hm), ρ.values_apply m hm]

/-! ### First match -/

theorem firstMatch_map (R : List Bank) (id : Id) : firstMatch (R.map ρ.bank) (ρ.onId id) = firstMatch R id := by
  unfold firstMatch
  rw [List.findIdx?_map]
  congr 1
  funext B
  have : (ρ.onId B.id = ρ.onId id) ↔ B.id = id := ⟨ρ.id_injective _ _, fun h => h ▸ rfl⟩
  simp [bank, this, Bool.beq_eq_decide_eq]

theorem map_modify (R : List Bank) (k : Nat) {f f' : Bank → Bank} (hf : ∀ B, ρ.bank (f B) = f' (ρ.bank B)) :
    (R.modify k f).map ρ.bank = (R.map ρ.bank).modify k f' := by
  induction R generalizing k with
  | nil => simp
  | cons B R ih => cases k <;> simp [hf, ih]

/-! ### The decoder -/

theorem asKey_operand (o : Operand) : asKey (ρ.operand o) = (asKey o).map ρ.onId := by cases o <;> rfl

theorem asNatural_operand (o : Operand) : asNatural (ρ.operand o) = asNatural o := by cases o <;> rfl

theorem asRef_operand (o : Operand) : asRef (ρ.operand o) = (asRef o).map (Option.map ρ.onHandle) := by
  cases o <;> rfl

theorem asTable_operand (o : Operand) : asTable (ρ.operand o) = asTable o := by cases o <;> rfl

theorem asInteger_operand (o : Operand) : asInteger (ρ.operand o) = asInteger o := by cases o <;> rfl

theorem asBoolean_operand (o : Operand) : asBoolean (ρ.operand o) = asBoolean o := by cases o <;> rfl

theorem asOrder_operand (o : Operand) : asOrder (ρ.operand o) = asOrder o := by cases o <;> rfl

theorem take0_map (i : Instr) (hi : ρ.instr i = i) (os : List Operand) :
    take0 i (os.map ρ.operand) = (take0 i os).map ρ.instr := by
  cases os with
  | nil => simp [take0, Except.map, hi]
  | cons o os => rfl

theorem take1_map {α : Type} (fa : Operand → Except Reject α) (ga : α → α) (mk : α → Instr)
    (hf : ∀ o, fa (ρ.operand o) = (fa o).map ga) (hm : ∀ a, ρ.instr (mk a) = mk (ga a)) (os : List Operand) :
    take1 fa mk (os.map ρ.operand) = (take1 fa mk os).map ρ.instr := by
  match os with
  | [] => rfl
  | [o] =>
    simp only [List.map_cons, List.map_nil, take1, hf]
    cases fa o with
    | error e => rfl
    | ok a => simp [Except.map, hm]
  | _ :: _ :: _ => rfl

theorem take2_map {α β : Type} (fa : Operand → Except Reject α) (fb : Operand → Except Reject β) (ga : α → α)
    (gb : β → β) (mk : α → β → Instr) (hfa : ∀ o, fa (ρ.operand o) = (fa o).map ga)
    (hfb : ∀ o, fb (ρ.operand o) = (fb o).map gb) (hm : ∀ a b, ρ.instr (mk a b) = mk (ga a) (gb b))
    (os : List Operand) : take2 fa fb mk (os.map ρ.operand) = (take2 fa fb mk os).map ρ.instr := by
  match os with
  | [] => rfl
  | [_] => rfl
  | [o, p] =>
    simp only [List.map_cons, List.map_nil, take2, hfa, hfb]
    cases fa o with
    | error e => rfl
    | ok a =>
      cases fb p with
      | error e => rfl
      | ok b => exact congrArg Except.ok (hm a b).symm
  | _ :: _ :: _ :: _ => rfl

theorem takeBank_map (mk : Id → Nat → Option Handle → Option (List Byte) → Instr)
    (hm : ∀ a b c d, ρ.instr (mk a b c d) = mk (ρ.onId a) b (c.map ρ.onHandle) d) (os : List Operand) :
    takeBank mk (os.map ρ.operand) = (takeBank mk os).map ρ.instr := by
  match os with
  | [] => rfl
  | [_] => rfl
  | [_, _] => rfl
  | [_, _, _] => rfl
  | [o, p, q, r] =>
    simp only [List.map_cons, List.map_nil, takeBank, asKey_operand, asNatural_operand, asRef_operand,
      asTable_operand]
    cases asKey o with
    | error e => rfl
    | ok a =>
      cases asNatural p with
      | error e => rfl
      | ok b =>
        cases asRef q with
        | error e => rfl
        | ok c =>
          cases asTable r with
          | error e => rfl
          | ok d => exact congrArg Except.ok (hm a b c d).symm
  | _ :: _ :: _ :: _ :: _ :: _ => rfl

theorem takeBankAt_map (mk : Id → Nat → Nat → Option Handle → Option (List Byte) → Instr)
    (hm : ∀ a b x c d, ρ.instr (mk a b x c d) = mk (ρ.onId a) b x (c.map ρ.onHandle) d) (os : List Operand) :
    takeBankAt mk (os.map ρ.operand) = (takeBankAt mk os).map ρ.instr := by
  match os with
  | [] => rfl
  | [_] => rfl
  | [_, _] => rfl
  | [_, _, _] => rfl
  | [_, _, _, _] => rfl
  | [o, p, x, q, r] =>
    simp only [List.map_cons, List.map_nil, takeBankAt, asKey_operand, asNatural_operand, asRef_operand,
      asTable_operand]
    cases asKey o with
    | error e => rfl
    | ok a =>
      cases asNatural p with
      | error e => rfl
      | ok b =>
        cases asNatural x with
        | error e => rfl
        | ok y =>
          cases asRef q with
          | error e => rfl
          | ok c =>
            cases asTable r with
            | error e => rfl
            | ok d => exact congrArg Except.ok (hm a b y c d).symm
  | _ :: _ :: _ :: _ :: _ :: _ :: _ => rfl

theorem id_map {α : Type} (x : Except Reject α) : x.map id = x := by cases x <;> rfl

theorem decodeOperands_map (m : Op) (os : List Operand) :
    decodeOperands m (os.map ρ.operand) = (decodeOperands m os).map ρ.instr := by
  have hk := ρ.asKey_operand
  have hr := ρ.asRef_operand
  have hi : ∀ o, asInteger (ρ.operand o) = (asInteger o).map id := fun o => by rw [id_map, asInteger_operand]
  have hb : ∀ o, asBoolean (ρ.operand o) = (asBoolean o).map id := fun o => by rw [id_map, asBoolean_operand]
  have ho : ∀ o, asOrder (ρ.operand o) = (asOrder o).map id := fun o => by rw [id_map, asOrder_operand]
  cases m with
  | addBank => exact ρ.takeBank_map _ (fun _ _ _ _ => rfl) os
  | insertBank => exact ρ.takeBankAt_map _ (fun _ _ _ _ _ => rfl) os
  | replaceBank => exact ρ.takeBank_map _ (fun _ _ _ _ => rfl) os
  | removeBank => exact ρ.take1_map _ _ _ hk (fun _ => rfl) os
  | clearAll => exact ρ.take0_map _ rfl os
  | setBitOrder => exact ρ.take2_map _ _ _ _ _ hk hi (fun _ _ => rfl) os
  | enableBank => exact ρ.take2_map _ _ _ _ _ hk hb (fun _ _ => rfl) os
  | setSource => exact ρ.take2_map _ _ _ _ _ hk hr (fun _ _ => rfl) os
  | updateAll => exact ρ.take0_map _ rfl os
  | printAll => exact ρ.take0_map _ rfl os
  | encUpdate => exact ρ.take1_map _ _ _ hi (fun _ => rfl) os
  | encOff => exact ρ.take0_map _ rfl os
  | encSetBitOrder => exact ρ.take1_map _ _ _ ho (fun _ => rfl) os
  | encGetBitOrder => exact ρ.take0_map _ rfl os
  | bankUpdate => exact ρ.take0_map _ rfl os
  | bankGetBitOrder => exact ρ.take0_map _ rfl os
  | bankSetBitOrder => exact ρ.take1_map _ _ _ ho (fun _ => rfl) os
  | bankSetEnabled => exact ρ.take1_map _ _ _ hb (fun _ => rfl) os
  | bankSetSource => exact ρ.take1_map _ _ _ hr (fun _ => rfl) os

theorem decodeRow_record (f : Interface) (c : RawCommand) :
    decodeRow f (ρ.record c) = (decodeRow f c).map ρ.instr := by
  unfold decodeRow
  show (match Op.ofCode c.op with | none => _ | some m => _) = _
  cases Op.ofCode c.op with
  | none => rfl
  | some m =>
    simp only
    split
    · exact ρ.decodeOperands_map m c.operands
    · rfl

theorem typed_instr {p : Params} (hp : ρ.fits p) (i : Instr) : (ρ.instr i).typed (ρ.params p) = i.typed p := by
  have hk : (ρ.instr i).key = i.key.map ρ.onId := by cases i <;> rfl
  have hh : (ρ.instr i).handle = i.handle.map ρ.onHandle := by cases i <;> rfl
  unfold Instr.typed
  rw [hk, hh]
  cases i.key <;> cases i.handle <;> simp [hp.1, hp.2]

theorem decode_record {p : Params} (hp : ρ.fits p) (f : Interface) (c : RawCommand) :
    decode (ρ.params p) f (ρ.record c) = (decode p f c).map ρ.instr := by
  unfold decode
  rw [ρ.decodeRow_record]
  cases decodeRow f c with
  | error e => rfl
  | ok i =>
    simp only [Except.map, ρ.typed_instr hp]
    split <;> rfl

end Renaming

/-! ### The shared operations -/

/-- `u` is `s` under the new names, the host's variables in canonical form. -/
structure Renamed (ρ : Renaming) (s u : State) : Prop where
  eq : u = ρ.state s
  memory : s.values.wf

namespace Renamed

variable {ρ : Renaming} {s u : State}

theorem emit (c : Cursor) (e : Phase) (h : Renamed ρ s u) : Renamed ρ (Machine.emit c e s) (Machine.emit c e u) := by
  obtain ⟨rfl, hw⟩ := h; exact ⟨rfl, hw⟩

theorem emitAll (es : List (Cursor × Phase)) (h : Renamed ρ s u) :
    Renamed ρ (Machine.emitAll es s) (Machine.emitAll es u) := by
  induction es generalizing s u with
  | nil => exact h
  | cons e es ih => exact ih (h.emit e.1 e.2)

theorem land (h : Renamed ρ s u) : Renamed ρ (landWrites s) (landWrites u) := by
  obtain ⟨rfl, hw⟩ := h
  cases hi : s.interference with
  | nil => simp [landWrites, Renaming.state, hi]; exact ⟨by simp [Renaming.state, hi], hw⟩
  | cons f rest =>
    refine ⟨?_, ?_⟩
    · simp [landWrites, Renaming.state, hi, Renaming.interference, ρ.values_applyAll _ _ hw]
    · simp only [landWrites, hi]; exact Memory.applyAll_wf _ _ hw

theorem torn (h : Renamed ρ s u) : tornDraw u = tornDraw s := by
  obtain ⟨rfl, _⟩ := h
  cases hi : s.interference <;> simp [tornDraw, Renaming.state, hi, Renaming.interference]

theorem readSource (a : Handle) (h : Renamed ρ s u) :
    DoneSim (Renamed ρ) (Machine.readSource a s) (Machine.readSource (ρ.onHandle a) u) := by
  have h1 := h.land
  unfold Machine.readSource
  rw [h.torn]
  have hr : (landWrites u).values.read (ρ.onHandle a) = (landWrites s).values.read a := by
    rw [h1.eq]; exact ρ.values_read _ a
  rw [hr]
  cases (landWrites s).values.read a with
  | none => exact .raised _ h1
  | some v => exact .returned _ h1

theorem blankFrom (j i : Nat) (es : List Encoder) (h : Renamed ρ s u) :
    Renamed ρ (Machine.blankFrom j i es s) (Machine.blankFrom j i es u) := by
  rw [blankFrom_eq, blankFrom_eq]; exact h.emitAll _

theorem encUpdate (j i : Nat) (E : Encoder) (d : Int) (h : Renamed ρ s u) :
    DoneSim (Renamed ρ) (Machine.encUpdate j i E d s) (Machine.encUpdate j i E d u) := by
  unfold Machine.encUpdate
  cases patternOf E.table d with
  | none => exact .raised _ h
  | some p => exact .returned _ (by rw [serialise_eq, serialise_eq]; exact h.emitAll _)

theorem driveFrom (j i : Nat) (es : List Encoder) (q : Nat) (h : Renamed ρ s u) :
    DoneSim (Renamed ρ) (Machine.driveFrom j i es q s) (Machine.driveFrom j i es q u) := by
  induction es generalizing i q s u with
  | nil => exact .returned _ h
  | cons E es ih => exact (h.encUpdate j i E _).andThen fun _ _ _ h => ih _ _ h

theorem bankUpdate (j : Nat) (B : Bank) (h : Renamed ρ s u) :
    DoneSim (Renamed ρ) (Machine.bankUpdate j B s) (Machine.bankUpdate j (ρ.bank B) u) := by
  have he : (ρ.bank B).enc = B.enc := rfl
  unfold Machine.bankUpdate
  by_cases h0 : B.enc = []
  · rw [if_pos h0, if_pos (he.trans h0)]; exact .returned _ h
  · rw [if_neg h0, if_neg fun hn => h0 (he.symm.trans hn)]
    by_cases h1 : B.enabled = false
    · rw [if_pos h1, if_pos (show (ρ.bank B).enabled = false from h1)]; exact .returned _ (h.blankFrom j 0 _)
    · rw [if_neg h1, if_neg (show ¬ (ρ.bank B).enabled = false from h1),
        show (ρ.bank B).source = B.source.map ρ.onHandle from rfl]
      cases B.source with
      | none => exact .returned _ h
      | some a =>
        refine (h.readSource a).andThen fun V s u h => ?_
        unfold renderValue
        by_cases hV : V < 0
        · rw [if_pos hV, if_pos hV]; exact .raised _ h
        · rw [if_neg hV, if_neg hV]; exact (h.driveFrom j 0 B.enc _).map _

theorem visitFrom (b : FailIndexBasis) (n j : Nat) (Bs : List Bank) (x : Nat) (h : Renamed ρ s u) :
    DoneSim (Renamed ρ) (Machine.visitFrom b n j Bs x s) (Machine.visitFrom b n j (Bs.map ρ.bank) x u) := by
  induction Bs generalizing j x s u with
  | nil => exact .returned _ h
  | cons B Bs ih => exact (h.bankUpdate j B).andThen fun _ _ _ h => ih _ _ h

theorem updateAll (h : Renamed ρ s u) : DoneSim (Renamed ρ) (Machine.updateAll s) (Machine.updateAll u) := by
  unfold Machine.updateAll
  have hp : u.params.failIndexBasis = s.params.failIndexBasis := by rw [h.eq]; rfl
  have hR : u.registry = s.registry.map ρ.bank := by rw [h.eq]; rfl
  have hc : ∀ {s u}, Renamed ρ s u → u.cfg.latchActive = s.cfg.latchActive := by intro s u h; rw [h.eq]; rfl
  rw [hp, hR, List.length_map, ← List.map_reverse]
  have h1 : Renamed ρ (openLatch s) (openLatch u) := by unfold openLatch; rw [hc h]; exact h.emit _ _
  refine (h1.visitFrom _ _ _ _ _).andThen fun x s u h => .returned x ?_
  unfold closeLatch; rw [hc h]; exact h.emit _ _

theorem setRegistry (R : List Bank) (h : Renamed ρ s u) :
    Renamed ρ (Machine.setRegistry R s) (Machine.setRegistry (R.map ρ.bank) u) := by
  obtain ⟨rfl, hw⟩ := h; exact ⟨rfl, hw⟩

theorem firstMatch (id : Id) (h : Renamed ρ s u) :
    Machine.firstMatch u.registry (ρ.onId id) = Machine.firstMatch s.registry id := by
  rw [h.eq]; exact ρ.firstMatch_map _ id

theorem onFirstMatch (id : Id) {f f' : Bank → Bank} (hf : ∀ B, ρ.bank (f B) = f' (ρ.bank B)) (h : Renamed ρ s u) :
    Renamed ρ (Machine.onFirstMatch id f s) (Machine.onFirstMatch (ρ.onId id) f' u) := by
  unfold Machine.onFirstMatch
  rw [h.firstMatch]
  cases Machine.firstMatch s.registry id with
  | none => exact h
  | some k =>
    have := h.setRegistry (s.registry.modify k f)
    rw [ρ.map_modify _ _ hf] at this
    rw [show u.registry = s.registry.map ρ.bank by rw [h.eq]; rfl]
    exact this

theorem checkedTable (n : Nat) (table : Option (List Byte)) (h : Renamed ρ s u) :
    DoneSim (Renamed ρ) (Machine.checkedTable n table s) (Machine.checkedTable n table u) := by
  unfold Machine.checkedTable
  have ht : resolveTable u.cfg table = resolveTable s.cfg table := by rw [h.eq]; cases table <;> rfl
  have hp : overPositions u.params n = overPositions s.params n := by rw [h.eq]; rfl
  rw [ht]
  cases resolveTable s.cfg table with
  | none => exact .raised _ h
  | some T =>
    simp only [hp]
    split
    · exact .raised _ h
    · exact .returned _ h

theorem placeBank (B : Bank) {place place' : List Bank → List Bank}
    (hp : ∀ R, (place R).map ρ.bank = place' (R.map ρ.bank)) (h : Renamed ρ s u) :
    DoneSim (Renamed ρ) (Machine.placeBank B place s) (Machine.placeBank (ρ.bank B) place' u) := by
  have hR : u.registry = s.registry.map ρ.bank := by rw [h.eq]; rfl
  have hl : registryFull u.params u.registry = registryFull s.params s.registry := by
    rw [h.eq]; simp [registryFull, Renaming.state, Renaming.params]
  unfold Machine.placeBank
  rw [show (ρ.bank B).id = ρ.onId B.id from rfl, h.firstMatch, hl]
  cases Machine.firstMatch s.registry B.id with
  | some k => exact .returned _ h
  | none =>
    simp only
    split
    · exact .raised _ h
    · rw [hR, ← hp]; exact .returned _ (h.setRegistry _)

/-! ### The gate, the target and the end of a command -/

theorem gate (h : Renamed ρ s u) {k k' : State → Outcome} (hk : k' u = ρ.outcome (k s)) :
    Machine.gate u k' = ρ.outcome (Machine.gate s k) := by
  have hf : u.fault = s.fault := by rw [h.eq]; rfl
  have hr : u.refused = s.refused := by rw [h.eq]; rfl
  unfold Machine.gate
  rw [hf, hr]
  cases s.fault with
  | some f => rfl
  | none =>
    simp only
    split
    · rfl
    · exact hk

/-- The end of a command whose result holds no id. -/
theorem conclude (op : Byte) {d d' : Done Result} (h : DoneSim (Renamed ρ) d d')
    (hr : ∀ x t, d = .returned x t → ρ.result x = x) :
    Machine.conclude op d' = ρ.outcome (Machine.conclude op d) := by
  cases h with
  | returned x h =>
    obtain ⟨rfl, _⟩ := h
    simp [Machine.conclude, finish, Renaming.outcome, Renaming.state, hr _ _ rfl]
  | raised k h => obtain ⟨rfl, _⟩ := h; rfl

/-- The end of a command that returns nothing. -/
theorem concludeNothing (op : Byte) (h : Renamed ρ s u) :
    Machine.conclude op (.returned .nothing u) = ρ.outcome (Machine.conclude op (.returned .nothing s)) :=
  conclude op (.returned _ h) fun _ _ hx => by cases hx; rfl

theorem targetBank (h : Renamed ρ s u) : u.targetBank = s.targetBank.map ρ.bank := by
  rw [h.eq]; simp [State.targetBank, Renaming.state]

theorem onBank (h : Renamed ρ s u) {k k' : Bank → Outcome} (hk : ∀ B, k' (ρ.bank B) = ρ.outcome (k B)) :
    Machine.onBank u k' = ρ.outcome (Machine.onBank s k) := by
  unfold Machine.onBank
  rw [h.targetBank]
  cases s.targetBank with
  | none => rfl
  | some B => exact hk B

theorem onEncoder (h : Renamed ρ s u) {k k' : Bank → Encoder → Outcome}
    (hk : ∀ B E, k' (ρ.bank B) E = ρ.outcome (k B E)) : Machine.onEncoder u k' = ρ.outcome (Machine.onEncoder s k) := by
  have ht : u.target = s.target := by rw [h.eq]; rfl
  unfold Machine.onEncoder
  rw [h.targetBank, ht]
  cases s.targetBank with
  | none => rfl
  | some B =>
    simp only [Option.map_some, Renaming.bank]
    cases B.enc[s.target.position]? with
    | none => rfl
    | some E => exact hk B E

theorem traversal (h : Renamed ρ s u) (b : Nat) : traversalOf u b = traversalOf s b := by
  rw [h.eq]; simp [traversalOf, Renaming.state]

/-- A bank put in the place of the target bank. -/
theorem setBank (k : Nat) (B : Bank) (h : Renamed ρ s u) :
    Renamed ρ (Machine.setRegistry (s.registry.set k B) s) (Machine.setRegistry (u.registry.set k (ρ.bank B)) u) := by
  have := h.setRegistry (s.registry.set k B)
  rw [List.map_set] at this
  rw [show u.registry = s.registry.map ρ.bank by rw [h.eq]; rfl]
  exact this

end Renamed

/-! ### What the commands return -/

theorem Done.andThen_returned {α β : Type} {d : Done α} {k : α → State → Done β} {x : β} {t : State}
    (h : d.andThen k = .returned x t) : ∃ a s, k a s = .returned x t := by
  cases d with
  | returned a s => exact ⟨a, s, h⟩
  | raised f s => cases h

theorem Done.map_returned_eq {α β : Type} {d : Done α} {f : α → β} {x : β} {t : State}
    (h : d.map f = .returned x t) : ∃ a, x = f a := by
  cases d with
  | returned a s => cases h; exact ⟨a, rfl⟩
  | raised k s => cases h

theorem placeBank_result {B : Bank} {place : List Bank → List Bank} {s t : State} {x : Result}
    (h : placeBank B place s = .returned x t) : x = .nothing := by
  unfold placeBank at h
  split at h
  · cases h; rfl
  · split at h <;> cases h; rfl

theorem listing_renamed (ρ : Renaming) (i : Nat) (Bs : List Bank) :
    listingFrom i (Bs.map ρ.bank) = (listingFrom i Bs).map fun e => (e.1, ρ.onId e.2.1, e.2.2) := by
  induction Bs generalizing i with
  | nil => rfl
  | cons B Bs ih => simp only [List.map_cons, listingFrom, ih]; rfl

/-! ### Every instruction -/

/-- Under other names every instruction does the same. -/
theorem exec_renamed {ρ : Renaming} {s u : State} (i : Instr) (h : Renamed ρ s u) :
    exec (ρ.instr i) u = ρ.outcome (exec i s) := by
  have hR : u.registry = s.registry.map ρ.bank := by rw [h.eq]; rfl
  have ht : u.target = s.target := by rw [h.eq]; rfl
  cases i with
  | addBank id n ref table =>
    simp only [exec, Renaming.instr, execAddBank]
    refine h.gate ?_
    refine Renamed.conclude _ ?_ fun x t hx => ?_
    · exact (h.checkedTable n table).andThen fun T _ _ h =>
        h.placeBank (newBank id n ref T) fun R => by simp [newBank, Renaming.bank]
    · obtain ⟨T, s', hx⟩ := Done.andThen_returned hx; rw [placeBank_result hx]; rfl
  | insertBank id n index ref table =>
    simp only [exec, Renaming.instr, execInsertBank]
    refine h.gate ?_
    refine Renamed.conclude _ ?_ fun x t hx => ?_
    · unfold insertBank
      rw [hR, List.length_map]
      by_cases hl : s.registry.length < index
      · rw [if_pos hl, if_pos hl]; exact .raised _ h
      · rw [if_neg hl, if_neg hl]
        exact (h.checkedTable n table).andThen fun T _ _ h =>
          h.placeBank (newBank id n ref T) fun R => by simp [insertAt, newBank, Renaming.bank]
    · unfold insertBank at hx
      split at hx
      · cases hx
      · obtain ⟨T, s', hx⟩ := Done.andThen_returned hx; rw [placeBank_result hx]; rfl
  | replaceBank id n ref table =>
    simp only [exec, Renaming.instr, execReplaceBank]
    refine h.gate ?_
    refine Renamed.conclude _ ?_ fun x t hx => ?_
    · exact (h.checkedTable n table).andThen fun T _ _ h =>
        .returned _ (h.onFirstMatch id fun B => by simp [newBank, Renaming.bank])
    · obtain ⟨T, s', hx⟩ := Done.andThen_returned hx; cases hx; rfl
  | removeBank id =>
    simp only [exec, Renaming.instr, execRemoveBank]
    refine h.gate ?_
    refine Renamed.concludeNothing _ ?_
    unfold removeBank
    rw [h.firstMatch]
    cases firstMatch s.registry id with
    | none => exact h
    | some k =>
      have := h.setRegistry (removeAt s.registry k)
      rw [hR]
      simpa [removeAt] using this
  | clearAll =>
    simp only [exec, Renaming.instr, execClearAll]
    refine h.gate ?_
    exact Renamed.concludeNothing _ (h.setRegistry [])
  | setBitOrder id order =>
    simp only [exec, Renaming.instr, execSetBitOrder]
    refine h.gate ?_
    refine Renamed.concludeNothing _ ?_
    unfold setBitOrder
    cases orderOfCode order with
    | none => exact h
    | some bo => exact h.onFirstMatch id fun _ => rfl
  | enableBank id enabled =>
    simp only [exec, Renaming.instr, execEnableBank]
    refine h.gate ?_
    refine Renamed.concludeNothing _ (h.onFirstMatch id fun _ => rfl)
  | setSource id ref =>
    simp only [exec, Renaming.instr, execSetSource]
    refine h.gate ?_
    refine Renamed.concludeNothing _ (h.onFirstMatch id fun _ => rfl)
  | updateAll =>
    simp only [exec, Renaming.instr, execUpdateAll]
    refine h.gate ?_
    refine Renamed.conclude _ (h.updateAll.map _) fun x t hx => ?_
    obtain ⟨n, rfl⟩ := Done.map_returned_eq hx; rfl
  | printAll =>
    simp only [exec, Renaming.instr, execPrintAll]
    refine h.gate ?_
    rw [hR, listing_renamed, h.eq]
    rfl
  | encUpdate d =>
    simp only [exec, Renaming.instr, execEncUpdate]
    refine h.gate ?_
    refine h.onEncoder fun B E => ?_
    refine Renamed.conclude _ ?_ fun x t hx => ?_
    · rw [ht, h.traversal]; exact (h.encUpdate _ _ E d).map _
    · obtain ⟨n, rfl⟩ := Done.map_returned_eq hx; rfl
  | encOff =>
    simp only [exec, Renaming.instr, execEncOff]
    refine h.gate ?_
    refine h.onEncoder fun B E => ?_
    refine Renamed.concludeNothing _ ?_
    rw [ht, h.traversal]
    exact h.emitAll (cellEvents _ _ 0#8)
  | encSetBitOrder bo =>
    simp only [exec, Renaming.instr, execEncSetBitOrder]
    refine h.gate ?_
    refine h.onEncoder fun B E => ?_
    refine Renamed.concludeNothing _ ?_
    rw [ht]
    exact h.setBank _ _
  | encGetBitOrder =>
    simp only [exec, Renaming.instr, execEncGetBitOrder]
    refine h.gate ?_
    refine h.onEncoder fun B E => ?_
    refine Renamed.conclude _ (.returned _ h) fun _ _ hx => by cases hx; rfl
  | bankUpdate =>
    simp only [exec, Renaming.instr, execBankUpdate]
    refine h.gate ?_
    refine h.onBank fun B => ?_
    refine Renamed.conclude _ ?_ fun x t hx => ?_
    · rw [ht, h.traversal]; exact (h.bankUpdate _ B).map _
    · obtain ⟨n, rfl⟩ := Done.map_returned_eq hx; rfl
  | bankGetBitOrder =>
    simp only [exec, Renaming.instr, execBankGetBitOrder]
    refine h.gate ?_
    refine h.onBank fun B => ?_
    refine Renamed.conclude _ (.returned _ h) fun _ _ hx => by cases hx; rfl
  | bankSetBitOrder bo =>
    simp only [exec, Renaming.instr, execBankSetBitOrder]
    refine h.gate ?_
    refine h.onBank fun B => ?_
    refine Renamed.concludeNothing _ ?_
    rw [ht]; exact h.setBank _ (B.setBitOrder bo)
  | bankSetEnabled enabled =>
    simp only [exec, Renaming.instr, execBankSetEnabled]
    refine h.gate ?_
    refine h.onBank fun B => ?_
    refine Renamed.concludeNothing _ ?_
    rw [ht]; exact h.setBank _ (B.setEnabled enabled)
  | bankSetSource ref =>
    simp only [exec, Renaming.instr, execBankSetSource]
    refine h.gate ?_
    refine h.onBank fun B => ?_
    refine Renamed.concludeNothing _ ?_
    rw [ht]; exact h.setBank _ (B.setSource ref)

/-! ### Construction -/

theorem construct_renamed (ρ : Renaming) (a : ConstructArgs) (s : State) :
    construct (ρ.args a) (ρ.state s) = (construct a s).map ρ.state := by
  have hc : cfgOf (ρ.args a) (ρ.state s).params = ρ.cfg (cfgOf a s.params) := by
    simp only [cfgOf, Renaming.args, Renaming.state, Renaming.params, Renaming.cfg]
    congr 1
    · cases a.dataPin <;> rfl
    · cases a.clockPin <;> rfl
    · cases a.latchPin <;> rfl
  have hp : (ρ.cfg (cfgOf a s.params)).pinsDistinct ↔ (cfgOf a s.params).pinsDistinct := by
    have he : ∀ x y, ρ.onPin x ≠ ρ.onPin y ↔ x ≠ y := fun x y =>
      not_congr ⟨ρ.pin_injective x y, fun h => h ▸ rfl⟩
    exact and_congr (he _ _) (and_congr (he _ _) (he _ _))
  unfold construct
  rw [hc]
  by_cases h : (cfgOf a s.params).pinsDistinct
  · rw [if_pos h, if_pos (hp.2 h)]; rfl
  · rw [if_neg h, if_neg fun hn => h (hp.1 hn)]; rfl

end Sys2Proof.Machine
end

