-- ==== Sys2Proof/Tests/Slice0.lean ====
section
/-!
SUPPORT. The model's own tests. Expected values come from the spec's encodings (R82, R94), its worked examples and its
test vectors (95_test_vectors.md: W, E, B, G, U, K, D, P), named at each test. The witnesses at the end meet the
hypotheses of the statements in Certificates/Slice0/Obligations.lean, one for each clause.
-/

open Sys2Proof Sys2Proof.Machine

namespace Sys2Proof.Tests

/-! ### Helpers -/

/-- `T_TEST` of 95_test_vectors.md. -/
def tTest : DigitTable :=
  ⟨#[0x3F#8, 0x06#8, 0x5B#8, 0x4F#8, 0x66#8, 0x6D#8, 0x7D#8, 0x07#8, 0x7F#8, 0x6F#8], rfl⟩

/-- `T_TEST` as a table operand. -/
def tBytes : List Byte := [0x3F#8, 0x06#8, 0x5B#8, 0x4F#8, 0x66#8, 0x6D#8, 0x7D#8, 0x07#8, 0x7F#8, 0x6F#8]

/-- A default table told apart from `T_TEST` in every entry. -/
def tOther : DigitTable := ⟨#[0xA0#8, 0xA1#8, 0xA2#8, 0xA3#8, 0xA4#8, 0xA5#8, 0xA6#8, 0xA7#8, 0xA8#8, 0xA9#8], rfl⟩

/-- Parameters of the tests: ids and handles named 0 to 9, at most 4 positions and 3 banks. -/
def params : Params where
  idMax := some 9
  handleMax := some 9
  maxPositions := some 4
  maxBanks := some 3
  failIndexBasis := .traversalPosition
  setupWriteOrder := .clockFirst
  valueMin := some (-100)
  valueMax := some 20000
  dataPin := 7
  clockPin := 8
  latchPin := 9
  latchActive := .low
  defaultTable := tOther

/-- A state after construction, with a registry and host values. -/
def st (R : List Bank) (m : Memory) : State :=
  { State.reset with cfg := Cfg.default params, params := params, registry := R, values := m }

/-- An enabled bank with `T_TEST`. -/
def bk (id : Id) (n : Nat) (src : Option Handle) : Bank := newBank id n src tTest

/-- The state of an outcome, if it is a next state. -/
def after : Outcome → Option State
  | .next t => some t
  | _ => none

def traceOf (o : Outcome) : Option (List Phase) := (after o).map State.trace
def resultOf (o : Outcome) : Option Result := (after o).map State.result
def registryOf (o : Outcome) : Option (List Bank) := (after o).map State.registry
def faultOf (o : Outcome) : Option (Option FaultRecord) := (after o).map State.fault
def pinsOf (o : Outcome) : Option Pins := (after o).map State.pins

/-- A registry of one-position banks on handles; `none` marks a failing bank (95_test_vectors.md 2.4). -/
def row (srcs : List (Option Handle)) : List Bank := srcs.mapIdx fun i src => bk i 1 src

/-- The failure index an UPDATE_ALL returns on such a registry under a basis, every value being 4. -/
def failIndexOf (b : FailIndexBasis) (srcs : List (Option Handle)) : Option Result :=
  resultOf (exec .updateAll
    { st (row srcs) [(0, 4)] with params := { params with failIndexBasis := b, maxBanks := none } })

/-! ### Well-formedness: one ill-formed record for each check of R90 -/

/-- D1: a code not in the table. -/
theorem test_wf_unknownCode : RawCommand.wellFormed params .host { op := 0x0B#8, operands := [] } = false := by decide
/-- D2: an internal code on the host interface. -/
theorem test_wf_internalCode : RawCommand.wellFormed params .host { op := 0x80#8, operands := [.int 2] } = false := by decide
/-- A host code where the block performs an operation of its own (R92). -/
theorem test_wf_hostCode : RawCommand.wellFormed params .block { op := 0x05#8, operands := [] } = false := by decide
/-- D5: an operand missing. -/
theorem test_wf_missing : RawCommand.wellFormed params .host { op := 0x04#8, operands := [] } = false := by decide
/-- An operand too many. -/
theorem test_wf_extra : RawCommand.wellFormed params .host { op := 0x05#8, operands := [.key 1] } = false := by decide
/-- An operand of the wrong kind. -/
theorem test_wf_kind : RawCommand.wellFormed params .host { op := 0x07#8, operands := [.key 1, .int 1] } = false := by decide
/-- `n` is not an integer. -/
theorem test_wf_fraction :
    RawCommand.wellFormed params .host { op := 0x01#8, operands := [.key 1, .other, .ref none, .table none] } = false := by
  decide
/-- D3: `n` is negative. -/
theorem test_wf_negative :
    RawCommand.wellFormed params .host { op := 0x01#8, operands := [.key 1, .int (-1), .ref (some 0), .table none] } = false := by
  decide
/-- D4: a table element outside `0..255`. -/
theorem test_wf_byte :
    RawCommand.wellFormed params .host { op := 0x01#8, operands := [.key 1, .int 1, .ref (some 0), .table (some [0x100])] } =
      false := by decide
/-- An id that is no value of the type `Id` (R7, R90), and a handle that is none of `Handle`. -/
theorem test_wf_keys :
    RawCommand.wellFormed params .host { op := 0x04#8, operands := [.key 10] } = false ∧
    RawCommand.wellFormed params .host { op := 0x08#8, operands := [.key 9, .ref (some 10)] } = false ∧
    RawCommand.wellFormed params .host { op := 0x08#8, operands := [.key 9, .ref (some 9)] } = true := by decide
/-- The decoder refuses them too, with the types `Id` and `Handle` of these tests. -/
theorem test_decode_keys :
    decode params .host { op := 0x04#8, operands := [.key 10] } = .error .operandKind ∧
    decode params .host { op := 0x08#8, operands := [.key 9, .ref (some 10)] } = .error .operandKind := ⟨rfl, rfl⟩
/-- An instruction on the wrong interface (R92). -/
theorem test_wf_instruction : Instr.allowedFrom .host .encOff = false := by decide
/-- `n = 0`, a table of one entry and a bit-order code 7 are accepted by the decoder (R81, R91). -/
theorem test_wf_accepted :
    RawCommand.wellFormed params .host { op := 0x01#8, operands := [.key 1, .int 0, .ref none, .table (some [255])] } = true ∧
    RawCommand.wellFormed params .host { op := 0x06#8, operands := [.key 1, .int 7] } = true := by decide

/-! ### Decoding: a record of every row, written out from R82 -/

theorem test_decode_addBank :
    decode Config.params .host { op := 0b00000001#8, operands := [.key 1, .int 3, .ref (some 0), .table none] } =
      .ok (.addBank 1 3 (some 0) none) := by rfl
theorem test_decode_insertBank :
    decode Config.params .host { op := 0b00000010#8, operands := [.key 1, .int 2, .int 5, .ref none, .table (some [1, 255])] } =
      .ok (.insertBank 1 2 5 none (some [0x01#8, 0xFF#8])) := by rfl
theorem test_decode_replaceBank :
    decode Config.params .host { op := 0b00000011#8, operands := [.key 1, .int 4, .ref (some 2), .table (some [0])] } =
      .ok (.replaceBank 1 4 (some 2) (some [0x00#8])) := by rfl
theorem test_decode_removeBank :
    decode Config.params .host { op := 0b00000100#8, operands := [.key 9] } = .ok (.removeBank 9) := by rfl
theorem test_decode_clearAll : decode Config.params .host { op := 0b00000101#8, operands := [] } = .ok .clearAll := by rfl
theorem test_decode_setBitOrder :
    decode Config.params .host { op := 0b00000110#8, operands := [.key 1, .int (-7)] } = .ok (.setBitOrder 1 (-7)) := by rfl
theorem test_decode_enableBank :
    decode Config.params .host { op := 0b00000111#8, operands := [.key 1, .bool false] } = .ok (.enableBank 1 false) := by rfl
theorem test_decode_setSource :
    decode Config.params .host { op := 0b00001000#8, operands := [.key 1, .ref (some 3)] } = .ok (.setSource 1 (some 3)) := by rfl
theorem test_decode_updateAll : decode Config.params .host { op := 0b00001001#8, operands := [] } = .ok .updateAll := by rfl
theorem test_decode_printAll : decode Config.params .host { op := 0b00001010#8, operands := [] } = .ok .printAll := by rfl
theorem test_decode_encUpdate :
    decode Config.params .block { op := 0b10000000#8, operands := [.int 10] } = .ok (.encUpdate 10) := by rfl
theorem test_decode_encOff : decode Config.params .block { op := 0b10000001#8, operands := [] } = .ok .encOff := by rfl
theorem test_decode_encSetBitOrder :
    decode Config.params .block { op := 0b10000010#8, operands := [.order .lsbFirst] } = .ok (.encSetBitOrder .lsbFirst) := by rfl
theorem test_decode_encGetBitOrder :
    decode Config.params .block { op := 0b10000011#8, operands := [] } = .ok .encGetBitOrder := by rfl
theorem test_decode_bankUpdate : decode Config.params .block { op := 0b10010000#8, operands := [] } = .ok .bankUpdate := by rfl
theorem test_decode_bankGetBitOrder :
    decode Config.params .block { op := 0b10010001#8, operands := [] } = .ok .bankGetBitOrder := by rfl
theorem test_decode_bankSetBitOrder :
    decode Config.params .block { op := 0b10010010#8, operands := [.order .msbFirst] } = .ok (.bankSetBitOrder .msbFirst) := by rfl
theorem test_decode_bankSetEnabled :
    decode Config.params .block { op := 0b10010011#8, operands := [.bool true] } = .ok (.bankSetEnabled true) := by rfl
theorem test_decode_bankSetSource :
    decode Config.params .block { op := 0b10010100#8, operands := [.ref none] } = .ok (.bankSetSource none) := by rfl

/-- The opcode table's words, row by row, with the zero of each operand (log 6), and the codes beside them. -/
theorem test_decodeTableWord :
    ([0x01, 0x02, 0x03, 0x04, 0x05, 0x06, 0x07, 0x08, 0x09, 0x0A].map (decodeTableWord 8)) =
      [some (.addBank 0 0 none none), some (.insertBank 0 0 0 none none), some (.replaceBank 0 0 none none),
       some (.removeBank 0), some .clearAll, some (.setBitOrder 0 0), some (.enableBank 0 false),
       some (.setSource 0 none), some .updateAll, some .printAll] ∧
    ([0x80, 0x81, 0x82, 0x83, 0x90, 0x91, 0x92, 0x93, 0x94].map (decodeTableWord 8)) =
      [some (.encUpdate 0), some .encOff, some (.encSetBitOrder .lsbFirst), some .encGetBitOrder, some .bankUpdate,
       some .bankGetBitOrder, some (.bankSetBitOrder .lsbFirst), some (.bankSetEnabled false),
       some (.bankSetSource none)] ∧
    ([0x00, 0x0B, 0x7F, 0x84, 0x95, 0xFF, 0x101].map (decodeTableWord 8)) =
      [none, none, none, none, none, none, none] := ⟨rfl, rfl, rfl⟩

/-- Every row of the table runs as the first instruction after reset. -/
theorem test_tableWordsRunFromReset :
    ([0x01, 0x02, 0x03, 0x04, 0x05, 0x06, 0x07, 0x08, 0x09, 0x0A, 0x80, 0x81, 0x82, 0x83, 0x90, 0x91, 0x92, 0x93,
      0x94].all fun w => (after (step (State.reset.withFetchWord 8 w))).isSome) = true := by rfl

/-- R94: the written form of SET_BIT_ORDER with `LSB`, and C3: `removeGroup` is REMOVE_BANK. -/
theorem test_assemble :
    assemble "SET_BIT_ORDER" [.name 1, .lsb] = some (encode (.setBitOrder 1 0)) ∧
    assemble "removeGroup" [.name 1] = some (encode (.removeBank 1)) ∧
    assemble "REMOVE_BANK" [.msb] = none := by decide

/-! ### Reset -/

theorem test_reset_memory : State.reset.values.wf := by decide
/-- D9, R220. -/
theorem test_reset_block :
    State.reset.registry = [] ∧ State.reset.pins = ⟨none, none, none⟩ ∧ State.reset.fault = none ∧
    State.reset.refused = false ∧ State.reset.trace = [] ∧ State.reset.cursor = .idle := by decide

/-! ### Segment encoder (2.1) -/

/-- A one-bank state whose internal operations act on position 0 of bank 0. -/
def enc (t : DigitTable) (bo : BitOrder) : State :=
  st [{ id := 1, enc := [{ table := t, bitOrder := bo }], source := some 0, bitOrder := bo, enabled := true }] [(0, 7)]

/-- E2, and the example of R100: `0x5B` goes out as 0 1 0 1 1 0 1 1. -/
theorem test_encUpdate_two :
    traceOf (exec (.encUpdate 2) (enc tTest .msbFirst)) =
      some [.setup false, .clock, .setup true, .clock, .setup false, .clock, .setup true, .clock,
        .setup true, .clock, .setup false, .clock, .setup true, .clock, .setup true, .clock] := by decide
/-- E11: ENC_UPDATE 3 with `LSB_FIRST` stored goes out as 0 1 0 0 1 1 1 1. -/
theorem test_encUpdate_lsbFirst :
    traceOf (exec (.encUpdate 3) (enc tTest .lsbFirst)) =
      some [.setup false, .clock, .setup true, .clock, .setup false, .clock, .setup false, .clock,
        .setup true, .clock, .setup true, .clock, .setup true, .clock, .setup true, .clock] := by decide
/-- E15, E16. -/
theorem test_encUpdate_faults :
    faultOf (exec (.encUpdate 10) (enc tTest .msbFirst)) = some (some ⟨.badDigitIndex, 0x80#8⟩) ∧
    traceOf (exec (.encUpdate (-1)) (enc tTest .msbFirst)) = some [] := by decide
/-- E10: eight zero bits, DATA low and CLOCK high after them. -/
theorem test_encOff :
    traceOf (exec .encOff (enc tTest .msbFirst)) =
      some [.setup false, .clock, .setup false, .clock, .setup false, .clock, .setup false, .clock,
        .setup false, .clock, .setup false, .clock, .setup false, .clock, .setup false, .clock] ∧
    pinsOf (exec .encOff (enc tTest .msbFirst)) = some ⟨some .low, some .high, none⟩ := by decide
/-- E17: the encoder's field is written, the bank's own is not. -/
theorem test_encSetBitOrder :
    registryOf (exec (.encSetBitOrder .lsbFirst) (enc tTest .msbFirst)) =
      some [{ id := 1, enc := [{ table := tTest, bitOrder := .lsbFirst }], source := some 0, bitOrder := .msbFirst,
              enabled := true }] := by decide
/-- E17, E18. -/
theorem test_encGetBitOrder :
    resultOf (exec .encGetBitOrder (enc tTest .lsbFirst)) = some (.order .lsbFirst) ∧
    resultOf (exec .encGetBitOrder (st [bk 1 1 none] [])) = some (.order .msbFirst) := by decide

/-! ### Display bank (2.2) -/

/-- BANK_UPDATE of a bank of `n` positions on a value: its trace and its status. -/
def rendered (n : Nat) (V : Int) : Option (List Phase) × Option Result :=
  (traceOf (exec .bankUpdate (st [bk 1 n (some 0)] [(0, V)])),
   resultOf (exec .bankUpdate (st [bk 1 n (some 0)] [(0, V)])))

/-- W2, and the example of R122: 42 on three positions is `0x5B 0x66 0x3F`. -/
theorem test_bankUpdate_42 :
    rendered 3 42 = (some (streamPhases [0x5B#8, 0x66#8, 0x3F#8]), some (.status .ok)) := by decide
/-- B10: 12345 on three positions overflows after `0x6D 0x66 0x4F`. -/
theorem test_bankUpdate_overflow :
    rendered 3 12345 = (some (streamPhases [0x6D#8, 0x66#8, 0x4F#8]), some (.status .overflowError)) := by decide
/-- B6, B7: the boundary of one position. -/
theorem test_bankUpdate_boundary :
    rendered 1 9 = (some (streamPhases [0x6F#8]), some (.status .ok)) ∧
    rendered 1 10 = (some (streamPhases [0x3F#8]), some (.status .overflowError)) := by decide
/-- B2: zero positions fails even when disabled; B3: no source. -/
theorem test_bankUpdate_failures :
    resultOf (exec .bankUpdate (st [(bk 1 0 none).setEnabled false] [])) = some (.status .configurationError) ∧
    resultOf (exec .bankUpdate (st [bk 1 3 none] [])) = some (.status .missingSourceError) := by decide
/-- B16: a disabled bank blanks without reading, its handle being dead. -/
theorem test_bankUpdate_disabled :
    traceOf (exec .bankUpdate (st [(bk 1 3 (some 0)).setEnabled false] [])) =
      some (streamPhases [0x00#8, 0x00#8, 0x00#8]) := by decide
/-- B14, B15. -/
theorem test_bankUpdate_faults :
    faultOf (exec .bankUpdate (st [bk 1 3 (some 0)] [(0, -1)])) = some (some ⟨.negativeValue, 0x90#8⟩) ∧
    faultOf (exec .bankUpdate (st [bk 1 3 (some 0)] [])) = some (some ⟨.danglingSource, 0x90#8⟩) := by decide
/-- B18, B19. -/
theorem test_bankSetBitOrder :
    registryOf (exec (.bankSetBitOrder .lsbFirst) (st [bk 1 2 none] [])) =
      some [{ id := 1, enc := [⟨tTest, .lsbFirst⟩, ⟨tTest, .lsbFirst⟩], source := none, bitOrder := .lsbFirst,
              enabled := true }] ∧
    registryOf (exec (.bankSetBitOrder .lsbFirst) (st [bk 1 0 none] [])) =
      some [{ id := 1, enc := [], source := none, bitOrder := .lsbFirst, enabled := true }] := by decide
/-- The example of R140. -/
theorem test_bankGetBitOrder :
    resultOf (exec .bankGetBitOrder (st [bk 1 0 none] [])) = some (.order .msbFirst) := by decide
/-- B20. -/
theorem test_bankSetEnabled :
    (registryOf (exec (.bankSetEnabled false) (st [bk 1 3 (some 0)] []))).map (List.map Bank.enabled) =
      some [false] := by decide
/-- B22. -/
theorem test_bankSetSource :
    (registryOf (exec (.bankSetSource (some 2)) (st [bk 1 3 none] []))).map (List.map Bank.source) =
      some [some 2] := by decide

/-! ### Registry commands (2.3) -/

/-- G2; G7: a bank without a table takes `cfg.defaultTable`. -/
theorem test_addBank :
    registryOf (exec (.addBank 2 2 (some 1) (some tBytes)) (st [bk 1 3 none] [])) =
      some [bk 1 3 none, bk 2 2 (some 1)] ∧
    registryOf (exec (.addBank 1 1 (some 0) none) (st [] [])) =
      some [{ id := 1, enc := [⟨tOther, .msbFirst⟩], source := some 0, bitOrder := .msbFirst, enabled := true }] := by
  decide
/-- G6: the table is checked before the duplicate id; W9: a duplicate does nothing. -/
theorem test_addBank_duplicate :
    faultOf (exec (.addBank 1 2 (some 1) (some [0x3F#8, 0x06#8])) (st [bk 1 3 none] [])) =
      some (some ⟨.badTable, 0x01#8⟩) ∧
    registryOf (exec (.addBank 1 4 (some 1) none) (st [bk 1 3 none] [])) = some [bk 1 3 none] := by decide
/-- G8, G9, G10. -/
theorem test_insertBank :
    ([1, 2, 0].map fun i =>
      (registryOf (exec (.insertBank 2 1 i (some 1) (some tBytes)) (st [bk 1 1 none, bk 3 1 none] []))).map
        (List.map Bank.id)) = [some [1, 2, 3], some [1, 3, 2], some [2, 1, 3]] := by decide
/-- P5: the index is checked before the duplicate id and the malformed table. -/
theorem test_insertBank_index :
    faultOf (exec (.insertBank 1 2 5 (some 0) (some [0x01#8])) (st [bk 1 2 (some 0)] [])) =
      some (some ⟨.indexError, 0x02#8⟩) := by decide
/-- G16: the new bank takes creation values, not the old bank's. -/
theorem test_replaceBank :
    registryOf (exec (.replaceBank 1 4 (some 2) (some tBytes)) (st [(bk 1 3 none).setEnabled false, bk 2 2 none] [])) =
      some [bk 1 4 (some 2), bk 2 2 none] := by decide
/-- R154: the capacities, at their bounds. -/
theorem test_capacity :
    faultOf (exec (.replaceBank 1 5 none none) (st [bk 1 3 none] [])) = some (some ⟨.capacity, 0x03#8⟩) ∧
    faultOf (exec (.addBank 4 4 none none) (st [bk 1 1 none, bk 2 1 none, bk 3 1 none] [])) =
      some (some ⟨.capacity, 0x01#8⟩) ∧
    faultOf (exec (.addBank 3 4 none none) (st [bk 1 1 none, bk 2 1 none] [])) = some none := by decide
/-- G19, G20. -/
theorem test_removeBank :
    (registryOf (exec (.removeBank 2) (st [bk 1 1 none, bk 2 1 none, bk 3 1 none] []))).map (List.map Bank.id) =
      some [1, 3] ∧
    registryOf (exec (.removeBank 9) (st [bk 1 1 none] [])) = some [bk 1 1 none] := by decide
/-- G21. -/
theorem test_clearAll : registryOf (exec .clearAll (st [bk 1 1 none, bk 2 1 none] [])) = some [] := by decide
/-- G22, G23. -/
theorem test_setBitOrder :
    registryOf (exec (.setBitOrder 1 0) (st [bk 1 1 none] [])) =
      some [{ id := 1, enc := [⟨tTest, .lsbFirst⟩], source := none, bitOrder := .lsbFirst, enabled := true }] ∧
    registryOf (exec (.setBitOrder 1 7) (st [bk 1 1 none] [])) = some [bk 1 1 none] := by decide
/-- G25: only the first match is touched, even of two banks of one id (R150). -/
theorem test_enableBank :
    (registryOf (exec (.enableBank 2 false) (st [bk 1 1 none, bk 2 1 none, bk 2 2 none] []))).map
      (List.map Bank.enabled) = some [true, false, true] := by decide
/-- G27. -/
theorem test_setSource :
    (registryOf (exec (.setSource 1 none) (st [bk 1 1 (some 0)] []))).map (List.map Bank.source) = some [none] := by
  decide
/-- G28. -/
theorem test_printAll :
    resultOf (exec .printAll (st [bk 1 3 none, bk 2 2 none] [])) = some (.listing [(0, 1, 3), (1, 2, 2)]) := by decide

/-! ### UPDATE_ALL (2.4, 2.5, Part 3) -/

/-- W11: the banks are visited last first, inside the latch bracket. -/
theorem test_updateAll_order :
    traceOf (exec .updateAll (st [bk 1 1 (some 0), bk 2 1 (some 1), bk 3 1 (some 2)] [(0, 1), (1, 2), (2, 3)])) =
      some ([.latch .low] ++ streamPhases [0x4F#8, 0x5B#8, 0x06#8] ++ [.latch .high]) := by decide
/-- U1 to U8: 0/0, 0/2, 1/1, 2/0, 1/1, 2/0, 2/0, 2/0. -/
theorem test_updateAll_results :
    ([[some 0, some 0, some 0], [some 0, some 0, none], [some 0, none, some 0], [none, some 0, some 0],
      [some 0, none, none], [none, some 0, none], [none, none, some 0], [none, none, none]].map
        (failIndexOf .traversalPosition)) = [0, 0, 1, 2, 1, 2, 2, 2].map (fun n => some (.index n)) ∧
    ([[some 0, some 0, some 0], [some 0, some 0, none], [some 0, none, some 0], [none, some 0, some 0],
      [some 0, none, none], [none, some 0, none], [none, none, some 0], [none, none, none]].map
        (failIndexOf .registryIndex)) = [0, 2, 1, 0, 1, 0, 0, 0].map (fun n => some (.index n)) := by decide
/-- U9 to U12. -/
theorem test_updateAll_five :
    ([[some 0, some 0, some 0, none, some 0], [some 0, none, some 0, none, some 0],
      [some 0, some 0, some 0, some 0, none], [none, some 0, some 0, some 0, none]].map
        (failIndexOf .registryIndex)) = [3, 1, 4, 0].map (fun n => some (.index n)) := by decide
/-- U17, P4: the phases of B stand, the bracket stays open and nothing is returned. -/
theorem test_updateAll_fault :
    let o := exec .updateAll (st [bk 1 1 (some 0), bk 2 1 (some 1)] [(0, -3), (1, 4)])
    traceOf o = some ([.latch .low] ++ streamPhases [0x66#8]) ∧ faultOf o = some (some ⟨.negativeValue, 0x09#8⟩) ∧
      pinsOf o = some ⟨some .low, some .high, some .low⟩ ∧ resultOf o = some .nothing := by decide
/-- P1, K1: 42 on three positions; the chain shows `0x3F 0x66 0x5B` and DATA is left high. -/
theorem test_updateAll_chain :
    let o := exec .updateAll (st [bk 1 3 (some 0)] [(0, 42)])
    (after o).map (fun t => [0, 1, 2].map t.chain.register) = some [some 0x3F, some 0x66, some 0x5B] ∧
      pinsOf o = some ⟨some .high, some .high, some .high⟩ ∧ resultOf o = some (.index 0) := by decide
/-- K3: a missing bank leaves a gap: the far register takes the old content of register 0. The old contents are the
test's own. -/
theorem test_updateAll_gap :
    (after (exec .updateAll
      { st (row [some 0, some 0, none]) [(0, 4)] with
        chain := ⟨stageBits [0xA1#8, 0xB2#8, 0xC3#8], stageBits [0xD4#8, 0xE5#8, 0xF6#8]⟩ })).map
      (fun t => [0, 1, 2].map t.chain.register) = some [some 0x66, some 0x66, some 0xA1] := by decide
/-- Construction does not reset the chain (R209). -/
theorem test_construct_chain :
    (after (step { st [] [] with chain := ⟨stageBits [0xA1#8], stageBits [0xD4#8]⟩, inbox := [.construct ⟨none, none, none, none⟩] })).map
      (fun t => t.chain.register 0) = some (some 0xD4) := by decide
/-- R62: two banks on one variable the host writes between their reads. -/
theorem test_updateAll_torn :
    traceOf (exec .updateAll
      { st [bk 1 1 (some 0), bk 2 1 (some 0)] [(0, 4)] with
        interference := [⟨[], none⟩, ⟨[.set 0 2], none⟩] }) =
      some ([.latch .low] ++ streamPhases [0x66#8, 0x5B#8] ++ [.latch .high]) := by decide

/-! ### The gate, refusals and construction (2.6) -/

/-- D1. -/
theorem test_refused : (after (step { st [] [] with inbox := [.command ⟨0x0B#8, []⟩] })).map
    (fun t => (t.refused, t.fault, t.trace)) = some (true, none, []) := by decide
/-- D6, D7. -/
theorem test_gate :
    after (step { st [] [] with refused := true, inbox := [.command ⟨0x05#8, []⟩] }) = none ∧
    after (step { st [] [] with fault := some ⟨.badTable, 0x01#8⟩, inbox := [.command ⟨0x05#8, []⟩] }) = none := by
  decide
/-- D8, D9. -/
theorem test_construct :
    after (step { st [] [] with inbox := [.construct ⟨some 8, none, none, none⟩] }) = none ∧
    (after (step { st [bk 1 1 none] [] with
      fault := some ⟨.badTable, 0x01#8⟩, inbox := [.construct ⟨some 1, none, none, some .high⟩] })).map
        (fun t => (t.cfg.dataPin, t.cfg.clockPin, t.cfg.latchActive, t.registry, t.fault)) =
      some (1, 8, .high, [], none) := by decide
/-- R53, R50: a variable given a value, then ended. -/
theorem test_hostWrites :
    (Memory.applyAll [(1, 5)] [.set 0 3, .set 2 7, .destroy 1]) = [(0, 3), (2, 7)] := by decide

/-! ### Witnesses: each clause of each statement with hypotheses is met -/

/-- A state with one bank of two positions, open, its host quiet. -/
def one : State := st [bk 1 2 (some 0)] [(0, 42)]
/-- A state in which each kind of bank outcome without a fault occurs; bank 3 is visited first. -/
def mixed : State := st [bk 1 2 (some 0), bk 2 1 none, bk 3 1 (some 1)] [(0, 7), (1, 10)]
/-- A state whose second bank in traversal order faults. -/
def broken : State := st [bk 1 1 (some 9), bk 2 1 (some 0)] [(0, 4)]
/-- A state with an input to come. -/
def fed (i : Input) : State := { one with inbox := [i] }
def hostCommand (i : Instr) : Input := .command (encode i)
/-- A state that is faulted. -/
def stopped (i : Input) : State := { fed i with fault := some ⟨.badTable, 0x01#8⟩ }

/-- `exec` answers a next state. -/
def completes (i : Instr) (s : State) : Bool := (after (exec i s)).isSome

theorem next_of_completes {i : Instr} {s : State} (h : completes i s = true) : ∃ t, exec i s = .next t := by
  unfold completes at h
  cases he : exec i s with
  | next t => exact ⟨t, rfl⟩
  | fault f => rw [he] at h; cases h
  | refused r => rw [he] at h; cases h

theorem next_of_after {o : Outcome} {P : State → Prop} (h : ∃ t, after o = some t ∧ P t) :
    ∃ t, o = .next t ∧ P t := by
  obtain ⟨t, ht, hp⟩ := h
  cases o with
  | next u => simp only [after, Option.some.injEq] at ht; exact ⟨t, by rw [ht], hp⟩
  | fault f => cases ht
  | refused r => cases ht

theorem witness_DecodeOfEncodeGivesInstruction :
    Instr.typed params (.insertBank 9 2 0 (some 9) none) = true ∧ Instr.typed params (.removeBank 10) = false := by
  decide
theorem witness_EncodeOfDecodeGivesRecord :
    decode Config.params .host { op := 0x06#8, operands := [.key 1, .int 7] } = .ok (.setBitOrder 1 7) := by rfl
theorem witness_IllFormedCommandIsRefused :
    (fed (.command ⟨0x80#8, [.int 0]⟩)).isOpen ∧ RawCommand.wellFormed params .host ⟨0x80#8, [.int 0]⟩ = false ∧
    RawCommand.wellFormed params .host ⟨0x01#8, [.key 1, .int 0, .ref none, .table (some [0, 255])]⟩ = true := by decide
theorem witness_StepPerformsDecodedCommand :
    (fed (.command ⟨0x09#8, []⟩)).isOpen ∧ decode params .host ⟨0x09#8, []⟩ = .ok .updateAll ∧
    (fed (.internal ⟨0, 1⟩ ⟨0x81#8, []⟩)).isOpen ∧ decode params .block ⟨0x81#8, []⟩ = .ok .encOff :=
  ⟨by decide, rfl, by decide, rfl⟩
theorem witness_TableWordRunsNext : State.reset.isOpen := by decide
theorem witness_HostCommandRunsExactlyWhenOpen :
    Instr.interface .clearAll = .host ∧ (one.fault = none ∧ one.refused = false) ∧
    ¬ ((stopped (.command ⟨0x05#8, []⟩)).fault = none ∧ (stopped (.command ⟨0x05#8, []⟩)).refused = false) ∧
    ¬ ((refuse one).fault = none ∧ (refuse one).refused = false) := by decide
theorem witness_IdleBlockWaits : one.isOpen ∧ one.inbox = [] := by decide
theorem witness_EncUpdateSerialisesPattern :
    one.isOpen ∧ one.targetBank = some (bk 1 2 (some 0)) ∧
    (bk 1 2 (some 0)).enc[one.target.position]? = some ⟨tTest, .msbFirst⟩ ∧
    tTest.toList[(0 : Int).toNat]? = some 0x3F#8 ∧ tTest.toList[(9 : Int).toNat]? = some 0x6F#8 := by decide
theorem witness_EncUpdateBadDigitFaults :
    one.isOpen ∧ one.targetBank = some (bk 1 2 (some 0)) ∧
    (bk 1 2 (some 0)).enc[one.target.position]? = some ⟨tTest, .msbFirst⟩ ∧
    ((-1 : Int) < 0 ∨ 10 ≤ (-1 : Int)) ∧ ((10 : Int) < 0 ∨ 10 ≤ (10 : Int)) := by decide
theorem witness_EncOffSerialisesZeroes :
    one.isOpen ∧ one.targetBank = some (bk 1 2 (some 0)) ∧
    (bk 1 2 (some 0)).enc[one.target.position]? = some ⟨tTest, .msbFirst⟩ := by decide
theorem witness_EncBitOrderIsStoredAndRead :
    let s := { mixed with target := ⟨0, 1⟩ }
    s.isOpen ∧ s.registry = [] ++ bk 1 2 (some 0) :: [bk 2 1 none, bk 3 1 (some 1)] ∧
    (bk 1 2 (some 0)).enc = [⟨tTest, .msbFirst⟩] ++ ⟨tTest, .msbFirst⟩ :: [] ∧ s.target = ⟨0, 1⟩ := by decide
theorem witness_SerialisationIgnoresBitOrder :
    [(bk 1 2 (some 0)).setBitOrder .lsbFirst].map Bank.forgetOrders = one.registry.map Bank.forgetOrders ∧
    (∃ t, exec .updateAll one = .next t) ∧ (∃ t, exec .bankUpdate one = .next t) ∧ (∃ t, exec .encOff one = .next t) ∧
    ∃ t, exec (.encUpdate 9) one = .next t :=
  ⟨by decide, next_of_completes (by decide), next_of_completes (by decide), next_of_completes (by decide),
    next_of_completes (by decide)⟩
theorem witness_BankUpdateWithoutReading :
    (∃ B, (st [bk 1 0 none] []).isOpen ∧ (st [bk 1 0 none] []).targetBank = some B ∧ B.enc = []) ∧
    (∃ B, (st [(bk 1 1 none).setEnabled false] []).targetBank = some B ∧ B.enc ≠ [] ∧ B.enabled = false) ∧
    ∃ B, (st [bk 1 1 none] []).targetBank = some B ∧ B.enc ≠ [] ∧ B.enabled = true ∧ B.source = none :=
  ⟨⟨_, by decide, rfl, rfl⟩, ⟨_, rfl, by decide, rfl⟩, ⟨_, rfl, by decide, rfl, rfl⟩⟩
theorem witness_BankUpdateShowsDigits :
    one.isOpen ∧ one.hostQuiet ∧ one.targetBank = some (bk 1 2 (some 0)) ∧ (bk 1 2 (some 0)).enc ≠ [] ∧
    (bk 1 2 (some 0)).enabled = true ∧ (bk 1 2 (some 0)).source = some 0 ∧ one.values.read 0 = some (Int.ofNat 42) := by
  decide
theorem witness_BankUpdateReadFaults :
    one.isOpen ∧ one.hostQuiet ∧ one.targetBank = some (bk 1 2 (some 0)) ∧ (bk 1 2 (some 0)).enc ≠ [] ∧
    (bk 1 2 (some 0)).enabled = true ∧ (bk 1 2 (some 0)).source = some 0 ∧
    ({ one with values := [] } : State).values.read 0 = none ∧
    ({ one with values := [(0, -1)] } : State).values.read 0 = some (-1) := by decide
theorem witness_BankReadsAtItsInstant :
    let f : Interference := ⟨[.set 0 5], none⟩
    let g : Interference := ⟨[.set 0 5], some 99⟩
    one.isOpen ∧ one.targetBank = some (bk 1 2 (some 0)) ∧ (bk 1 2 (some 0)).enc ≠ [] ∧
    ({ one with interference := [f] } : State).interference = f :: [] ∧ f.torn = none ∧ g.torn = some 99 ∧
    (one.values.applyAll g.writes).read 0 = some 5 := by decide
theorem witness_OnlyBankUpdatesRead :
    (∃ t, exec (.addBank 2 1 (some 0) none) one = .next t) ∧ (∃ t, exec .bankUpdate one = .next t) ∧
    one.targetBank = some (bk 1 2 (some 0)) :=
  ⟨next_of_completes (by decide), next_of_completes (by decide), by decide⟩
theorem witness_BankUpdateIsProjection : one.hostQuiet ∧ ∃ t, exec .bankUpdate one = .next t ∧ t.fault = none :=
  ⟨rfl, next_of_after ⟨_, rfl, rfl⟩⟩
theorem witness_BankSettersWriteTheirField :
    let s := { mixed with target := ⟨1, 0⟩ }
    s.isOpen ∧ s.registry = [bk 1 2 (some 0)] ++ bk 2 1 none :: [bk 3 1 (some 1)] ∧
    s.target.bank = [bk 1 2 (some 0)].length := by decide

/-- The limits of the tests: 4 positions, 3 banks. -/
theorem limits_positions : positionsLegal params 4 ∧ ¬ positionsLegal params 5 :=
  ⟨by intro m hm; cases hm; decide, fun h => absurd (h 4 rfl) (by decide)⟩
theorem limits_banks : roomFor params [bk 1 1 none, bk 2 1 none] ∧
    ¬ roomFor params [bk 1 1 none, bk 2 1 none, bk 3 1 none] :=
  ⟨by intro m hm; cases hm; decide, fun h => absurd (h 3 rfl) (by decide)⟩

theorem witness_AddBankAppends :
    one.isOpen ∧ ¬ tableLegal (some [0x00#8]) ∧ tableLegal (some tBytes) ∧ tableLegal none ∧
    ¬ positionsLegal one.params 5 ∧ positionsLegal one.params 4 ∧ idPresent one.registry 1 ∧
    ¬ idPresent one.registry 2 ∧ roomFor one.params one.registry ∧ ¬ idPresent mixed.registry 4 ∧
    ¬ roomFor mixed.params mixed.registry :=
  ⟨by decide, by simp [tableLegal], rfl, trivial, limits_positions.2, limits_positions.1, by decide, by decide,
    by intro m hm; cases hm; decide, by decide, fun h => absurd (h 3 rfl) (by decide)⟩
theorem witness_InsertBankInserts :
    one.registry.length < 2 ∧ 1 ≤ one.registry.length ∧ ¬ tableLegal (some []) ∧ tableLegal none ∧
    ¬ positionsLegal one.params 5 ∧ positionsLegal one.params 0 ∧ idPresent one.registry 1 ∧
    ¬ idPresent one.registry 2 ∧ roomFor one.params one.registry ∧ one.registry = one.registry ++ [] ∧
    3 ≤ mixed.registry.length ∧ ¬ roomFor mixed.params mixed.registry :=
  ⟨by decide, by decide, by simp [tableLegal], trivial, limits_positions.2, by intro m hm; cases hm; decide,
    by decide, by decide, by intro m hm; cases hm; decide, rfl, by decide, fun h => absurd (h 3 rfl) (by decide)⟩
theorem witness_ReplaceBankSubstitutes :
    one.isOpen ∧ ¬ tableLegal (some [0x00#8]) ∧ tableLegal none ∧ ¬ positionsLegal mixed.params 5 ∧
    positionsLegal mixed.params 4 ∧ ¬ idPresent mixed.registry 4 ∧
    mixed.registry = [bk 1 2 (some 0)] ++ bk 2 1 none :: [bk 3 1 (some 1)] ∧
    firstOf [bk 1 2 (some 0)] (bk 2 1 none) :=
  ⟨by decide, by simp [tableLegal], trivial, limits_positions.2, limits_positions.1, by decide, rfl, by decide⟩
theorem witness_RemoveBankDeletesFirstMatch :
    mixed.isOpen ∧ ¬ idPresent mixed.registry 4 ∧
    mixed.registry = [bk 1 2 (some 0), bk 2 1 none] ++ bk 3 1 (some 1) :: [] ∧
    firstOf [bk 1 2 (some 0), bk 2 1 none] (bk 3 1 (some 1)) := by decide
theorem witness_ClearAllEmptiesRegistry : mixed.isOpen := by decide
theorem witness_SetBitOrderStoresInFirstMatch :
    mixed.isOpen ∧ ¬ idPresent mixed.registry 4 ∧ ((2 : Int) ≠ 0 ∧ (2 : Int) ≠ 1) ∧ ((-1 : Int) ≠ 0 ∧ (-1 : Int) ≠ 1) ∧
    mixed.registry = [] ++ bk 1 2 (some 0) :: [bk 2 1 none, bk 3 1 (some 1)] ∧ firstOf [] (bk 1 2 (some 0)) ∧
    ((1 : Int) = 1 ∧ BitOrder.msbFirst = .msbFirst ∨ (1 : Int) = 0 ∧ BitOrder.msbFirst = .lsbFirst) ∧
    ((0 : Int) = 1 ∧ BitOrder.lsbFirst = .msbFirst ∨ (0 : Int) = 0 ∧ BitOrder.lsbFirst = .lsbFirst) := by decide
theorem witness_EnableBankSetsFlag :
    one.isOpen ∧ ¬ idPresent one.registry 2 ∧ one.registry = [] ++ bk 1 2 (some 0) :: [] ∧
    firstOf [] (bk 1 2 (some 0)) := by decide
theorem witness_SetSourceRebinds :
    mixed.isOpen ∧ ¬ idPresent mixed.registry 4 ∧
    mixed.registry = [bk 1 2 (some 0)] ++ bk 2 1 none :: [bk 3 1 (some 1)] ∧
    firstOf [bk 1 2 (some 0)] (bk 2 1 none) := by decide
theorem witness_PrintAllListsRegistry : mixed.isOpen ∧ mixed.registry[2]? = some (bk 3 1 (some 1)) := by decide
theorem witness_UpdateAllEmitsLatchedStream :
    mixed.isOpen ∧ mixed.hostQuiet ∧ mixed.noBankFaults ∧ mixed.updateBytes = [0x3F#8, 0x07#8, 0x3F#8] := by decide
theorem witness_UpdateAllReturnsLastFailure :
    one.isOpen ∧ one.hostQuiet ∧ one.noBankFaults ∧ (∀ o ∈ one.outcomes, o.fails = false) ∧
    (mixed.isOpen ∧ mixed.hostQuiet ∧ mixed.noBankFaults ∧ lastFailure mixed.outcomes 1) := by
  refine ⟨by decide, by decide, by decide, by decide, by decide, by decide, by decide, ⟨_, rfl, rfl⟩, ?_⟩
  intro k o hk ho
  match k, hk with
  | 2, _ => cases ho; rfl
  | n + 3, _ => cases ho
theorem witness_UpdateAllFaultLeavesBracketOpen :
    broken.isOpen ∧ broken.hostQuiet ∧
    broken.outcomes = [.emits [0x66#8] .ok] ++ .faults .danglingSource :: [] ∧
    ∀ o ∈ [BankOutcome.emits [0x66#8] .ok], o.faulted = false := by decide
theorem witness_UpdateAllReadsEachBankAtItsTurn :
    let s := { st [bk 1 1 (some 0), bk 2 1 (some 0)] [(0, 4)] with interference := [⟨[], some 7⟩, ⟨[.set 0 2], none⟩] }
    s.isOpen ∧ (∀ o ∈ outcomesInTurn s.values s.interference s.registry.reverse, o.faulted = false) ∧
    (outcomesInTurn s.values s.interference s.registry.reverse).flatMap BankOutcome.bytes = [0x07#8, 0x5B#8] := by
  decide
theorem witness_LatchPhasesOnlyBracketUpdates :
    (∃ t, exec .encOff one = .next t) ∧ (∃ t, exec .updateAll mixed = .next t ∧ t.fault = none) ∧
    ∃ t, exec .updateAll broken = .next t ∧ t.fault ≠ none :=
  ⟨next_of_completes (by decide), next_of_after ⟨_, rfl, rfl⟩, next_of_after ⟨_, rfl, by decide⟩⟩
theorem witness_UpdateAllPhaseCount : ∃ t, exec .updateAll mixed = .next t ∧ t.fault = none :=
  next_of_after ⟨_, rfl, rfl⟩
theorem witness_ChainShowsBytesNearestLast :
    mixed.isOpen ∧ mixed.hostQuiet ∧ mixed.noBankFaults ∧ mixed.chain.sh.length = 8 * mixed.updateBytes.length ∧
    mixed.updateBytes.reverse[0]? = some 0x3F#8 := by decide
theorem witness_CursorOnlyAdvances :
    ∃ t, exec .updateAll mixed = .next t ∧ Cursor.cell 2 1 0 .clock ∈ t.cursorLog :=
  next_of_after ⟨_, rfl, by decide⟩
theorem witness_FaultNamesItsCommand :
    (∃ t, exec (.insertBank 2 1 2 none none) one = .next t ∧ t.fault = some ⟨.indexError, 0x02#8⟩) ∧
    (∃ t, exec (.addBank 2 1 none (some [])) one = .next t ∧ t.fault = some ⟨.badTable, 0x01#8⟩) ∧
    (∃ t, exec (.replaceBank 1 5 none none) one = .next t ∧ t.fault = some ⟨.capacity, 0x03#8⟩) ∧
    (∃ t, exec (.encUpdate 10) one = .next t ∧ t.fault = some ⟨.badDigitIndex, 0x80#8⟩) ∧
    (∃ t, exec .bankUpdate (st [bk 1 1 (some 0)] [(0, -1)]) = .next t ∧ t.fault = some ⟨.negativeValue, 0x90#8⟩) ∧
    ∃ t, exec .updateAll broken = .next t ∧ t.fault = some ⟨.danglingSource, 0x09#8⟩ :=
  ⟨next_of_after ⟨_, rfl, rfl⟩, next_of_after ⟨_, rfl, rfl⟩, next_of_after ⟨_, rfl, rfl⟩, next_of_after ⟨_, rfl, rfl⟩,
    next_of_after ⟨_, rfl, rfl⟩, next_of_after ⟨_, rfl, rfl⟩⟩
theorem witness_FaultLeavesRegistry :
    (∃ t, exec (.encUpdate (-1)) one = .next t ∧ t.fault ≠ none) ∧
    ∃ t, exec .updateAll broken = .next t ∧ t.fault ≠ none :=
  ⟨next_of_after ⟨_, rfl, by decide⟩, next_of_after ⟨_, rfl, by decide⟩⟩
theorem witness_OnlyConstructionLeavesFault :
    (¬ (stopped (.construct ⟨none, none, none, none⟩)).isOpen ∧
      ∃ t, step (stopped (.construct ⟨none, none, none, none⟩)) = .next t ∧ t.fault = none) ∧
    ∃ t, step (stopped (.hostWrite (.set 0 1))) = .next t ∧ t.fault ≠ none :=
  ⟨⟨by decide, next_of_after ⟨_, rfl, rfl⟩⟩, next_of_after ⟨_, rfl, by decide⟩⟩
theorem witness_ConstructionGivesFreshBlock :
    let c := cfgOf ⟨some 1, none, none, some .high⟩ one.params
    let d := cfgOf ⟨some 8, none, none, none⟩ one.params
    (c.dataPin ≠ c.clockPin ∧ c.dataPin ≠ c.latchPin ∧ c.clockPin ≠ c.latchPin) ∧ d.dataPin = d.clockPin := by decide

/-- A state of the invariant with a command to come. -/
theorem fed_inv (i : Instr) : (fed (hostCommand i)).Inv where
  driven := by
    intro x hx t c e
    simp only [fed, hostCommand, List.mem_singleton] at hx
    rw [e] at hx
    cases hx
  ids := (by decide : one.idsUnique)
  uniform := by
    intro B hB
    simp only [fed, one, st, List.mem_singleton] at hB
    subst hB
    decide
  capacity := by
    refine ⟨fun m hm => ?_, fun m hm B hB => ?_⟩
    · cases hm; exact (by decide : one.registry.length ≤ 3)
    · cases hm
      simp only [fed, one, st, List.mem_singleton] at hB
      subst hB
      decide
  pins := rfl
  cursor := rfl
  steps := rfl
  distinct := (by decide : one.cfg.pinsDistinct)
  faultOp := by intro f hf; cases hf
  memory := (by decide : one.values.wf)

theorem witness_StepKeepsInvariant :
    (fed (hostCommand .updateAll)).Inv ∧
    ∃ t, step (fed (hostCommand .updateAll)) = .next t ∧ t.trace.length = 34 :=
  ⟨fed_inv _, next_of_after ⟨_, rfl, rfl⟩⟩
theorem witness_StepKeepsHostTyped :
    (fed (.hostWrite (.set 0 20000))).HostTyped ∧
    ∃ t, step (fed (.hostWrite (.set 0 20000))) = .next t ∧ t.values = [(0, 20000)] := by
  refine ⟨⟨?_, ?_, ?_, ?_, ?_⟩, next_of_after ⟨_, rfl, rfl⟩⟩
  · intro B hB
    simp only [fed, one, st, List.mem_singleton] at hB
    subst hB
    exact ⟨by decide, fun h hh => by cases hh; decide⟩
  · intro e he
    simp only [fed, one, st, List.mem_singleton] at he
    subst he
    exact ⟨by decide, fun m hm => by cases hm; decide, fun m hm => by cases hm; decide⟩
  · intro f hf; cases hf
  · intro f hf; cases hf
  · intro w hw h v e
    simp only [fed, List.mem_singleton, Input.hostWrite.injEq] at hw
    rw [e] at hw
    cases hw
    exact ⟨by decide, fun m hm => by cases hm; decide, fun m hm => by cases hm; decide⟩
theorem witness_TraceOnlyGrows :
    (∃ t, step (fed (hostCommand .updateAll)) = .next t ∧ t.trace ≠ []) ∧
    ∀ a rest, (fed (hostCommand .updateAll)).inbox ≠ .construct a :: rest :=
  ⟨next_of_after ⟨_, rfl, by decide⟩, fun a rest h => by cases h⟩
theorem witness_ConfigurationIsFixed :
    (∃ t, step (fed (hostCommand (.addBank 2 1 none none))) = .next t ∧ t.registry.length = 2) ∧
    ∀ a rest, (fed (hostCommand (.addBank 2 1 none none))).inbox ≠ .construct a :: rest :=
  ⟨next_of_after ⟨_, rfl, rfl⟩, fun a rest h => by cases h⟩
theorem witness_OnlyUpdatesMovePins :
    (fed (hostCommand .updateAll)).hostDriven ∧
    (∃ t, step (fed (hostCommand .updateAll)) = .next t ∧ t.pins ≠ one.pins) ∧
    ∃ t, step (fed (hostCommand .clearAll)) = .next t ∧ t.pins = one.pins :=
  ⟨(fed_inv _).driven, next_of_after ⟨_, rfl, by decide⟩, next_of_after ⟨_, rfl, rfl⟩⟩
theorem witness_SetupWriteOrderUnobservable :
    one.params.setupWriteOrder ≠ .dataFirst ∧ ∃ t, exec .updateAll one = .next t :=
  ⟨by decide, next_of_completes (by decide)⟩
theorem witness_PinsAndTraceAreNotRead :
    (∃ t, exec .updateAll mixed = .next t) ∧ one.pins ≠ ⟨some .high, some .low, some .low⟩ :=
  ⟨next_of_completes (by decide), by decide⟩
/-- Two names changed for each other. -/
def turn (x y a : Nat) : Nat := if a = x then y else if a = y then x else a
theorem turn_injective (x y a b : Nat) (h : turn x y a = turn x y b) : a = b := by
  unfold turn at h
  repeat' split at h
  all_goals omega
/-- Names that turn the order of two handles and of two ids around, the handles of a type with one value more. -/
def turned : Renaming where
  idMax := some 9
  handleMax := some 10
  onId := turn 1 3
  onHandle a := (turn 0 1 a).succ
  onPin := Nat.succ
  id_injective := turn_injective 1 3
  handle_injective a b h := turn_injective 0 1 a b (Nat.succ.inj h)
  pin_injective _ _ := Nat.succ.inj
theorem turned_fits : turned.fits mixed.params := by
  have h (x y a : Nat) (hx : x ≤ 9) (hy : y ≤ 9) : turn x y a ≤ 9 ↔ a ≤ 9 := by
    unfold turn
    repeat' split
    all_goals omega
  refine ⟨fun a => decide_eq_decide.2 (h 1 3 a (by omega) (by omega)), fun a => decide_eq_decide.2 ?_⟩
  exact Nat.succ_le_succ_iff.trans (h 0 1 a (by omega) (by omega))
theorem witness_NamesAreOnlyCompared :
    turned.fits mixed.params ∧ mixed.values.wf ∧ turned.values mixed.values = [(1, 10), (2, 7)] ∧
    ((turned.state mixed).registry.map Bank.id = [3, 2, 1]) ∧ ∃ t, exec .updateAll mixed = .next t :=
  ⟨turned_fits, by decide, by decide, by decide, next_of_completes (by decide)⟩

end Sys2Proof.Tests
end

section
/-!
PROOFS. UPDATE_ALL on the wire (R76, R164 to R166): the latch bracket as one record update at each end, and from it the
whole next state of an UPDATE_ALL while the host is quiet.
-/

namespace Sys2Proof.Machine

theorem level_ne_not (l : Level) : l ≠ l.not := by
  cases l <;> decide

/-- Opening the bracket is no transition to the inactive level, so the chain stays as it was (R165, R211). -/
theorem openLatch_record (s : State) :
    openLatch s =
      { s with
        cursor := .latchOpen
        pins := { s.pins with latch := some s.cfg.latchActive }
        trace := s.trace ++ [.latch s.cfg.latchActive]
        cursorLog := s.cursorLog ++ [.latchOpen] } := by
  simp [openLatch, emit, Chain.observe, level_ne_not]

/-- Closing a bracket that is open is the latching transition: the outputs take the stages (R165, R211). -/
theorem closeLatch_record {s : State} (h : s.pins.latch = some s.cfg.latchActive) :
    closeLatch s =
      { s with
        cursor := .latchClose
        pins := { s.pins with latch := some s.cfg.latchActive.not }
        chain := { sh := s.chain.sh, q := s.chain.sh }
        trace := s.trace ++ [.latch s.cfg.latchActive.not]
        cursorLog := s.cursorLog ++ [.latchClose] } := by
  simp [closeLatch, emit, Chain.observe, h]

/-- The bytes of banks go out inside the bracket: LATCH keeps its level (R166). -/
theorem emitAll_bankEvents_latch (j : Nat) (os : List BankOutcome) (s : State) :
    (emitAll (bankEvents j os) s).pins.latch = s.pins.latch := by
  rw [emitAll_bankEvents]
  exact pinsWith_latch_eq _ _

/-- The cursors of an UPDATE_ALL whose banks have the outcomes `os`: one for each phase (R38). -/
def updateCursors (os : List BankOutcome) : List Cursor :=
  .latchOpen :: (bankEvents 0 os).map Prod.fst ++ [.latchClose]

theorem updateCursors_length (os : List BankOutcome) :
    (updateCursors os).length = 2 + 16 * (os.flatMap BankOutcome.bytes).length := by
  simp only [updateCursors, List.cons_append, List.length_cons, List.length_append, List.length_map, List.length_nil,
    bankEvents_length]
  omega

/-- The whole state an UPDATE_ALL without a fault ends in while the host is quiet (R76, R166, R211). -/
theorem updated_quiet {s : State} (hq : s.hostQuiet) (os : List BankOutcome) :
    updated s os =
      { s with
        trace := s.trace ++ [.latch s.cfg.latchActive] ++ streamPhases (os.flatMap BankOutcome.bytes) ++
          [.latch s.cfg.latchActive.not]
        pins := { pinsWith (os.flatMap BankOutcome.bytes) s.pins with latch := some s.cfg.latchActive.not }
        chain :=
          { sh := stagesAfter (os.flatMap BankOutcome.bytes) s.chain.sh
            q := stagesAfter (os.flatMap BankOutcome.bytes) s.chain.sh }
        cursor := .idle
        cursorLog := s.cursorLog ++ updateCursors os
        result := .index (failFold s.params.failIndexBasis s.registry.length 0 os 0) } := by
  have hopen : (emitAll (bankEvents 0 os) (openLatch s)).pins.latch =
      some (emitAll (bankEvents 0 os) (openLatch s)).cfg.latchActive := by
    rw [emitAll_bankEvents_latch, emitAll_cfg, openLatch_record]
  rw [updated, afterReads_quiet s hq, closeLatch_record hopen, emitAll_bankEvents, openLatch_record]
  simp only [finish, pinsWith_latch, updateCursors, List.append_assoc, List.cons_append, List.nil_append]

theorem execUpdateAll_quiet {s : State} (ho : s.isOpen) (hq : s.hostQuiet) (hn : s.noBankFaults) :
    exec .updateAll s = .next (updated s s.outcomes) := by
  have he : effects s s.registry.reverse = s.outcomes := effects_quiet s hq _
  have h := execUpdateAll_returns ho (by rwa [he])
  rwa [he] at h

/-- Settles O31: no bank faults, so the run ends in `updated`, whose record is known while the host is quiet. -/
theorem updateAllEmitsLatchedStream : Obligations.UpdateAllEmitsLatchedStream := by
  unfold Obligations.UpdateAllEmitsLatchedStream
  intro s ho hq hn
  refine ⟨failFold s.params.failIndexBasis s.registry.length 0 s.outcomes 0, updateCursors s.outcomes,
    updateCursors_length s.outcomes, ?_⟩
  rw [execUpdateAll_quiet ho hq hn, updated_quiet hq]
  rfl

end Sys2Proof.Machine
end

section
/-!
PROOFS. The segment encoder on the wire (R101, R103): what serialising one byte makes of the state, as one record update,
and from it the next state of an ENC_UPDATE within `0..9` and of an ENC_OFF.
-/

namespace Sys2Proof.Machine

/-- The pattern of a digit within the table is the table's entry (R100). -/
theorem patternOf_of_getElem? {t : DigitTable} {d : Int} {p : Byte} (hd : 0 ≤ d) (hp : t.toList[d.toNat]? = some p) :
    patternOf t d = some p := by
  rwa [patternOf, if_neg (Int.not_lt.2 hd), ← Vector.getElem?_toList]

/-- A command that serialises one byte and returns nothing ends with the byte on the trace, on the pins and in the chain;
every other field but the cursor's two and the result is as it was (R74, R107, R210). -/
theorem finish_serialise (j i : Nat) (p : Byte) (s : State) :
    finish .nothing (serialise j i p s) =
      { s with
        trace := s.trace ++ bytePhases p
        pins := { data := some (Level.ofBit (p.getLsbD 0)), clock := some .high, latch := s.pins.latch }
        chain := { sh := stagesAfter [p] s.chain.sh, q := s.chain.q }
        cursor := .idle
        cursorLog := s.cursorLog ++ (cellEvents j i p).map Prod.fst
        result := .nothing } := by
  rw [serialise_eq, emitAll_eq, pinsRun_cell, chainRun_cell, cellEvents_phases, finish]

/-- One cursor for each phase of the byte (R38). -/
theorem cellEvents_cursors_length (j i : Nat) (p : Byte) : ((cellEvents j i p).map Prod.fst).length = 16 := rfl

section
variable {s : State} {B : Bank} {E : Encoder}

/-- An ENC_UPDATE whose digit has the pattern `p` serialises `p`: no stored bit order is asked for (R100, R101). -/
theorem execEncUpdate_pattern {d : Int} {p : Byte} (ho : s.isOpen) (hb : s.targetBank = some B)
    (he : B.enc[s.target.position]? = some E) (hp : patternOf E.table d = some p) :
    exec (.encUpdate d) s =
      .next (finish .nothing (serialise (traversalOf s s.target.bank) s.target.position p s)) := by
  have hd : exec (.encUpdate d) s = execEncUpdate d s := rfl
  rw [hd, execEncUpdate, gate_open s ho, onEncoder_target hb he, encUpdate, hp]
  rfl

/-- An ENC_OFF serialises the zero byte, with no look at the table (R103). -/
theorem execEncOff_target (ho : s.isOpen) (hb : s.targetBank = some B) (he : B.enc[s.target.position]? = some E) :
    exec .encOff s =
      .next (finish .nothing (serialise (traversalOf s s.target.bank) s.target.position 0#8 s)) := by
  have hd : exec .encOff s = execEncOff s := rfl
  rw [hd, execEncOff, gate_open s ho, onEncoder_target hb he]
  rfl

end

/-- Settles O10: the digit's pattern is its table entry, and serialising it is one record update. -/
theorem encUpdateSerialisesPattern : Obligations.EncUpdateSerialisesPattern := by
  unfold Obligations.EncUpdateSerialisesPattern
  intro s B E d p ho hb he hd hp
  refine ⟨_, cellEvents_cursors_length (traversalOf s s.target.bank) s.target.position p, ?_⟩
  rw [execEncUpdate_pattern ho hb he (patternOf_of_getElem? hd hp), finish_serialise]

/-- Settles O12: ENC_OFF serialises the zero byte, whose sixteen phases and last DATA level are those written out. -/
theorem encOffSerialisesZeroes : Obligations.EncOffSerialisesZeroes := by
  unfold Obligations.EncOffSerialisesZeroes
  intro s B E ho hb he
  refine ⟨_, cellEvents_cursors_length (traversalOf s s.target.bank) s.target.position 0#8, ?_⟩
  rw [execEncOff_target ho hb he, finish_serialise]
  rfl

end Sys2Proof.Machine
end

section
/-!
PROOFS. The display bank (R123 to R131): the state a BANK_UPDATE that does not fault ends in, as one record update, and
from it the outcomes that do not read and the digits of a value. The bank's getter and setters (R140 to R144).
-/

namespace Sys2Proof.Machine

/-! ### What a bank update makes of each kind of bank, in the order of R123 -/

section
variable {s : State} {B : Bank}

theorem bankEffect_noPosition (he : B.enc = []) : bankEffect s B = .emits [] .configurationError := by
  rw [bankEffect, if_pos (List.length_eq_zero_iff.2 he)]

theorem bankEffect_disabled (he : B.enc ≠ []) (hd : B.enabled = false) :
    bankEffect s B = .emits (List.replicate B.enc.length 0#8) .ok := by
  rw [bankEffect, if_neg (mt List.length_eq_zero_iff.1 he), if_pos hd]

theorem bankEffect_unbound (he : B.enc ≠ []) (hd : B.enabled = true) (hs : B.source = none) :
    bankEffect s B = .emits [] .missingSourceError := by
  rw [bankEffect, if_neg (mt List.length_eq_zero_iff.1 he), if_neg (by simp [hd]), hs]

theorem bankEffect_bound {h : Handle} (he : B.enc ≠ []) (hd : B.enabled = true) (hs : B.source = some h) :
    bankEffect s B = valueOutcome B (readNow s h) := by
  rw [bankEffect, if_neg (mt List.length_eq_zero_iff.1 he), if_neg (by simp [hd]), hs]

/-- A non-negative value shows its digits, and overflows exactly from `10^N` on (R131). -/
theorem valueOutcome_natural (B : Bank) (V : Nat) :
    valueOutcome B (some (Int.ofNat V)) =
      .emits (digitBytes V 0 B.enc) (if 10 ^ B.enc.length ≤ V then .overflowError else .ok) := by
  have hV : ¬ (V : Int) < 0 := Int.not_lt.2 (Int.natCast_nonneg V)
  simp only [valueOutcome, hV, if_false, Int.ofNat_eq_natCast, Int.toNat_natCast, ← Nat.not_lt, ite_not]

/-! ### The state a bank update without a fault ends in -/

theorem execBankUpdate_emits {ps : List Byte} {st : Status} (ho : s.isOpen) (hb : s.targetBank = some B)
    (he : bankEffect s B = .emits ps st) :
    exec .bankUpdate s =
      .next (finish (.status st)
        (emitAll (byteEvents (traversalOf s s.target.bank) 0 ps) (afterRead s B))) := by
  have hd : exec .bankUpdate s = execBankUpdate s := rfl
  rw [hd, execBankUpdate, gate_open s ho, onBank_target hb, bankUpdate_eq, he]
  rfl

end

/-- A command that emits a bank's bytes ends with them on the trace, on the pins and in the chain; every other field but
the cursor's two and the result is as it was (R74, R107, R210). -/
theorem finish_bytes (x : Result) (j : Nat) (ps : List Byte) (s : State) :
    finish x (emitAll (byteEvents j 0 ps) s) =
      { s with
        trace := s.trace ++ streamPhases ps
        pins := pinsWith ps s.pins
        chain := { sh := stagesAfter ps s.chain.sh, q := s.chain.q }
        cursor := .idle
        cursorLog := s.cursorLog ++ (byteEvents j 0 ps).map Prod.fst
        result := x } := by
  rw [emitAll_bytes, finish]

/-- One cursor for each phase of the bytes (R38). -/
theorem byteEvents_cursors_length (j i : Nat) {ps : List Byte} {n : Nat} (hn : ps.length = n) :
    ((byteEvents j i ps).map Prod.fst).length = 16 * n := by
  rw [List.length_map, byteEvents_length, hn]

/-- Zero bytes, at least one, leave DATA low and CLOCK high (R107). -/
theorem pinsWith_zeroes {n : Nat} (hn : n ≠ 0) (x : Pins) :
    pinsWith (List.replicate n 0#8) x = { data := some .low, clock := some .high, latch := x.latch } := by
  rw [pinsWith, List.getLast?_replicate, if_neg hn]
  rfl

/-- Settles O15: in each of the three cases the outcome is known without the value read, and nothing lands. -/
theorem bankUpdateWithoutReading : Obligations.BankUpdateWithoutReading := by
  unfold Obligations.BankUpdateWithoutReading
  intro s B ho hb
  refine ⟨fun he => ?_, fun he hd => ?_, fun he hd hs => ?_⟩
  · rw [execBankUpdate_emits ho hb (bankEffect_noPosition he), afterRead, if_pos (.inl (by simp [he]))]
    rfl
  · refine ⟨_, byteEvents_cursors_length (traversalOf s s.target.bank) 0 (List.length_replicate (a := 0#8)), ?_⟩
    rw [execBankUpdate_emits ho hb (bankEffect_disabled he hd), afterRead, if_pos (.inr (.inl hd)), finish_bytes,
      pinsWith_zeroes (mt List.length_eq_zero_iff.1 he)]
  · rw [execBankUpdate_emits ho hb (bankEffect_unbound he hd hs), afterRead, if_pos (.inr (.inr hs))]
    rfl

/-- Settles O16: while the host is quiet the value read is the variable's, and the bytes are those of its digits. -/
theorem bankUpdateShowsDigits : Obligations.BankUpdateShowsDigits := by
  unfold Obligations.BankUpdateShowsDigits
  intro s B h V ho hq hb he hd hs hV
  have hm : bankEffect s B =
      .emits (digitBytes V 0 B.enc) (if 10 ^ B.enc.length ≤ V then .overflowError else .ok) := by
    rw [bankEffect_bound he hd hs, readNow_quiet s hq, hV, valueOutcome_natural]
  refine ⟨digitBytes V 0 B.enc, _, digitBytes_length V 0 B.enc, fun i E hE => ?_,
    byteEvents_cursors_length (traversalOf s s.target.bank) 0 (digitBytes_length V 0 B.enc), ?_⟩
  · rw [digitBytes_get hE, Nat.zero_add]
  · rw [execBankUpdate_emits ho hb hm, afterRead_quiet s hq, finish_bytes]

/-! ### The getter and the setters -/

section
variable {s : State} {pre post : List Bank} {B : Bank}

theorem targetBank_split (hR : s.registry = pre ++ B :: post) (ht : s.target.bank = pre.length) :
    s.targetBank = some B := by
  rw [State.targetBank, hR, ht]
  simp

/-- A command that only gives the target bank the value `X` writes that place of the registry and nothing else. -/
theorem finish_setTarget (hR : s.registry = pre ++ B :: post) (ht : s.target.bank = pre.length) (X : Bank) :
    finish .nothing (setRegistry (s.registry.set s.target.bank X) s) = s.withRegistry (pre ++ X :: post) := by
  rw [hR, ht, set_split]
  rfl

/-- What the three setters share: on an open state each replaces the target bank by an edit of it (R141, R143, R144). -/
theorem gate_editTarget (ho : s.isOpen) (hR : s.registry = pre ++ B :: post) (ht : s.target.bank = pre.length) (op : Byte)
    (f : Bank → Bank) :
    (gate s fun s => onBank s fun B =>
      conclude op (.returned .nothing (setRegistry (s.registry.set s.target.bank (f B)) s))) =
      .next (s.withRegistry (pre ++ f B :: post)) := by
  rw [gate_open s ho, onBank_target (targetBank_split hR ht), conclude, finish_setTarget hR ht]

theorem execBankGetBitOrder_target (ho : s.isOpen) (hb : s.targetBank = some B) :
    exec .bankGetBitOrder s = .next (finish (.order B.bitOrder) s) := by
  have hd : exec .bankGetBitOrder s = execBankGetBitOrder s := rfl
  rw [hd, execBankGetBitOrder, gate_open s ho, onBank_target hb]
  rfl

end

/-- Settles O21: the getter returns the bank's field, and each setter is an edit of the target bank in its place. -/
theorem bankSettersWriteTheirField : Obligations.BankSettersWriteTheirField := by
  unfold Obligations.BankSettersWriteTheirField
  intro s pre post B ho hR ht
  refine ⟨execBankGetBitOrder_target ho (targetBank_split hR ht), fun bo => ?_, fun e => ?_, fun r => ?_⟩
  · exact gate_editTarget ho hR ht Op.bankSetBitOrder.code (Bank.setBitOrder bo)
  · exact gate_editTarget ho hR ht Op.bankSetEnabled.code (Bank.setEnabled e)
  · exact gate_editTarget ho hR ht Op.bankSetSource.code (Bank.setSource r)

end Sys2Proof.Machine
end

section
/-!
PROOFS. Stored bit orders are not read (R105, R142): the state with another registry is a `Sim` of the state, so
a command that looks up only what the two registries have in common ends in states that differ in the registry alone.
-/

namespace Sys2Proof.Machine

/-- Lists with the same image have, place by place, elements with the same image. -/
theorem getElem?_of_map_eq {α β : Type} {f : α → β} {l l' : List α} (h : l'.map f = l.map f) {k : Nat} {a : α}
    (ha : l[k]? = some a) : ∃ a', l'[k]? = some a' ∧ f a' = f a := by
  have hk : (l'[k]?).map f = some (f a) := by rw [← List.getElem?_map, h, List.getElem?_map, ha]; rfl
  exact Option.map_eq_some_iff.1 hk

/-- Forgetting the orders keeps the tables. -/
theorem forgetOrders_tables (B : Bank) : B.forgetOrders.enc.map Encoder.table = B.enc.map Encoder.table := by
  rw [Bank.forgetOrders, List.map_map]
  rfl

/-- No shared operation of the commands that emit phases looks at the registry. -/
theorem setRegistry_sim (R : List Bank) : Sim fun s u => u = setRegistry R s where
  opened := by rintro s _ rfl; exact ⟨rfl, rfl⟩
  cfg := by rintro s _ rfl; rfl
  limits := by rintro s _ rfl; exact ⟨rfl, rfl, rfl⟩
  target := by rintro s _ rfl; rfl
  host := by rintro s _ rfl; exact ⟨rfl, rfl⟩
  emit := by rintro s _ c e rfl; rfl
  land := by
    rintro s _ rfl
    cases h : s.interference with
    | nil => rw [landWrites_quiet s h, landWrites_quiet (setRegistry R s) h]
    | cons f rest => simp only [landWrites, setRegistry_interference, h]; rfl
  finish := by rintro s _ x rfl; rfl
  raise := by rintro s _ k op rfl; rfl

section
variable {s : State} {R : List Bank}

theorem traversalOf_setRegistry (hR : R.map Bank.forgetOrders = s.registry.map Bank.forgetOrders) (b : Nat) :
    traversalOf (setRegistry R s) b = traversalOf s b := by
  have hl : R.length = s.registry.length := by simpa using congrArg List.length hR
  rw [traversalOf, setRegistry_registry, hl, traversalOf]

/-- A meaning on the target bank that does alike on banks differing only in orders does alike on the registries. -/
theorem onBank_sim {r : State → State → Prop} (hR : R.map Bank.forgetOrders = s.registry.map Bank.forgetOrders)
    {k k' : Bank → Outcome} (hk : ∀ B B', B.forgetOrders = B'.forgetOrders → OutcomeSim r (k B) (k' B')) :
    OutcomeSim r (onBank s k) (onBank (setRegistry R s) k') := by
  intro t ht
  obtain ⟨B, hb, ht⟩ := onBank_next ht
  obtain ⟨B', hb', hB⟩ := getElem?_of_map_eq hR hb
  rw [onBank_target (s := setRegistry R s) hb']
  exact hk B B' hB.symm t ht

/-- A meaning on the target encoder that asks for nothing but the table does alike on the registries. -/
theorem onEncoder_sim {r : State → State → Prop} (hR : R.map Bank.forgetOrders = s.registry.map Bank.forgetOrders)
    {k k' : Encoder → Outcome} (hk : ∀ E E', E.table = E'.table → OutcomeSim r (k E) (k' E')) :
    OutcomeSim r (onEncoder s fun _ E => k E) (onEncoder (setRegistry R s) fun _ E => k' E) := by
  intro t ht
  obtain ⟨B, E, hb, he, ht⟩ := onEncoder_next ht
  obtain ⟨B', hb', hB⟩ := getElem?_of_map_eq hR hb
  have htab : B'.enc.map Encoder.table = B.enc.map Encoder.table := by
    rw [← forgetOrders_tables B', hB, forgetOrders_tables]
  obtain ⟨E', he', hE⟩ := getElem?_of_map_eq htab he
  rw [onEncoder_target (s := setRegistry R s) hb' he']
  exact hk E E' hE.symm t ht

/-- A command that emits phases does the same on a registry that differs in stored bit orders (R101, R105, R142). -/
theorem exec_setRegistry_sim {i : Instr}
    (hi : i = .updateAll ∨ i = .bankUpdate ∨ i = .encOff ∨ ∃ d, i = .encUpdate d)
    (hR : R.map Bank.forgetOrders = s.registry.map Bank.forgetOrders) :
    OutcomeSim (fun s u => u = setRegistry R s) (exec i s) (exec i (setRegistry R s)) := by
  have hr := setRegistry_sim R
  obtain rfl | rfl | rfl | ⟨d, rfl⟩ := hi
  · simp only [exec, execUpdateAll]
    exact hr.gate rfl (hr.conclude _ ((hr.updateAll rfl hR.symm).map _))
  · simp only [exec, execBankUpdate]
    refine hr.gate rfl (onBank_sim hR fun B B' hB => hr.conclude _ ?_)
    rw [traversalOf_setRegistry hR]
    exact (hr.bankUpdate _ hB rfl).map _
  · simp only [exec, execEncOff]
    refine hr.gate rfl (onEncoder_sim hR fun E E' _ => hr.conclude _ (.returned _ ?_))
    rw [traversalOf_setRegistry hR]
    exact hr.emitAll (cellEvents _ _ 0#8) rfl
  · simp only [exec, execEncUpdate]
    refine hr.gate rfl (onEncoder_sim hR fun E E' hE => hr.conclude _ ?_)
    rw [traversalOf_setRegistry hR]
    exact (hr.encUpdate _ _ hE d rfl).map _

end

/-- Settles O14: the second run answers a next state that differs from the first one's in the registry alone. -/
theorem serialisationIgnoresBitOrder : Obligations.SerialisationIgnoresBitOrder := by
  unfold Obligations.SerialisationIgnoresBitOrder
  intro i s t R hi hR ht
  obtain ⟨v, hv, rfl⟩ := exec_setRegistry_sim hi hR t ht
  exact hv

end Sys2Proof.Machine
end

section
/-!
PROOFS. The host commands at the gate (R151), and those that cannot fault and emit no phase (R150, R159 to R163, R171):
the next state of each is known from what it does to the registry, where its id is absent and where the first match
splits the registry.
-/

namespace Sys2Proof.Machine

/-! ### The gate of a host command (R151) -/

/-- A host command passes the gate and concludes: it asks for no target that could be missing (R82, R92). -/
theorem exec_host_concludes {i : Instr} (hi : i.interface = .host) :
    ∃ (op : Byte) (d : State → Done Result), ∀ s, exec i s = gate s fun s => conclude op (d s) := by
  cases i with
  | addBank | insertBank | replaceBank | removeBank | clearAll | setBitOrder | enableBank | setSource | updateAll
  | printAll => exact ⟨_, _, fun _ => rfl⟩
  | encUpdate | encOff | encSetBitOrder | encGetBitOrder | bankUpdate | bankGetBitOrder | bankSetBitOrder
  | bankSetEnabled | bankSetSource => cases hi

/-- On an open state a command that returns without a fault ends finished, in the state its operation leaves (R39). -/
theorem gate_finishes {s : State} (ho : s.isOpen) (op : Byte) (r : State → Result) (f : State → State) :
    (gate s fun s => conclude op (.returned (r s) (f s))) = .next (finish (r s) (f s)) := by
  rw [gate_open s ho]
  rfl

/-- A command that concludes answers a next state, faulted or not (R194, R195). -/
theorem conclude_completes (op : Byte) (d : Done Result) : ∃ t, conclude op d = .next t := by
  cases d with
  | returned r s => exact ⟨_, rfl⟩
  | raised k s => exact ⟨_, rfl⟩

/-- Settles O8: behind an open gate the command concludes, and a closed one lets nothing through. -/
theorem hostCommandRunsExactlyWhenOpen : Obligations.HostCommandRunsExactlyWhenOpen := by
  unfold Obligations.HostCommandRunsExactlyWhenOpen
  intro i s hi
  obtain ⟨op, d, hd⟩ := exec_host_concludes hi
  rw [hd s]
  refine ⟨fun ho => ?_, fun hc => gate_closed s hc _⟩
  rw [gate_open s ho]
  exact conclude_completes op (d s)

/-! ### The whole registry -/

/-- Settles O26: CLEAR_ALL ends in the state with the registry written and the command finished. -/
theorem clearAllEmptiesRegistry : Obligations.ClearAllEmptiesRegistry := by
  unfold Obligations.ClearAllEmptiesRegistry
  intro s ho
  exact gate_finishes ho Op.clearAll.code (fun _ => .nothing) (setRegistry [])

/-- Settles O30: the listing is `listingFrom 0`, whose length and entries are known. -/
theorem printAllListsRegistry : Obligations.PrintAllListsRegistry := by
  unfold Obligations.PrintAllListsRegistry
  intro s ho
  refine ⟨listingFrom 0 s.registry, listingFrom_length _ _, fun i B hB => ?_,
    gate_finishes ho Op.printAll.code (fun s => .listing (listingFrom 0 s.registry)) id⟩
  rw [listingFrom_get hB, Nat.zero_add]

/-! ### The first match of an id (R150) -/

section
variable {s : State} {id : Id} {pre post : List Bank} {B : Bank}

/-- What the commands on a first match share where the id is absent: nothing is edited. -/
theorem gate_editFirst_absent (ho : s.isOpen) (op : Byte) (f : Bank → Bank) (hn : ¬ idPresent s.registry id) :
    (gate s fun s => conclude op (.returned .nothing (onFirstMatch id f s))) = .next s.untouched := by
  rw [gate_finishes ho op (fun _ => .nothing) (onFirstMatch id f), onFirstMatch_absent f hn]
  rfl

/-- What the commands on a first match share where there is one: it is replaced by an edit of it, in its place. -/
theorem gate_editFirst_split (ho : s.isOpen) (op : Byte) (f : Bank → Bank) (hR : s.registry = pre ++ B :: post)
    (hid : B.id = id) (hf : firstOf pre B) :
    (gate s fun s => conclude op (.returned .nothing (onFirstMatch id f s))) =
      .next (s.withRegistry (pre ++ f B :: post)) := by
  subst hid
  rw [gate_finishes ho op (fun _ => .nothing) (onFirstMatch B.id f), onFirstMatch_split f hR hf]
  rfl

theorem removeBank_absent (hn : ¬ idPresent s.registry id) : removeBank id s = s := by
  rw [removeBank, firstMatch_absent hn]

theorem removeBank_split (hR : s.registry = pre ++ B :: post) (hid : B.id = id) (hf : firstOf pre B) :
    removeBank id s = setRegistry (pre ++ post) s := by
  subst hid
  rw [removeBank, hR, firstMatch_split pre post B hf]
  simp only [removeAt_split]

end

/-- Settles O25: the first match splits the registry, and taking it out joins the two parts. -/
theorem removeBankDeletesFirstMatch : Obligations.RemoveBankDeletesFirstMatch := by
  unfold Obligations.RemoveBankDeletesFirstMatch
  intro s id ho
  have hd : exec (.removeBank id) s = .next (finish .nothing (removeBank id s)) :=
    gate_finishes ho Op.removeBank.code (fun _ => .nothing) (removeBank id)
  refine ⟨fun hn => ?_, fun pre post B hR hid hf => ?_⟩
  · rw [hd, removeBank_absent hn]
    rfl
  · rw [hd, removeBank_split hR hid hf]
    rfl

/-- Settles O28: ENABLE_BANK edits the first match by `Bank.setEnabled`. -/
theorem enableBankSetsFlag : Obligations.EnableBankSetsFlag := by
  unfold Obligations.EnableBankSetsFlag
  intro s id e ho
  exact ⟨gate_editFirst_absent ho _ (Bank.setEnabled e), fun _ _ _ => gate_editFirst_split ho _ (Bank.setEnabled e)⟩

/-- Settles O29: SET_SOURCE edits the first match by `Bank.setSource`, which reads nothing. -/
theorem setSourceRebinds : Obligations.SetSourceRebinds := by
  unfold Obligations.SetSourceRebinds
  intro s id ref ho
  exact ⟨gate_editFirst_absent ho _ (Bank.setSource ref), fun _ _ _ => gate_editFirst_split ho _ (Bank.setSource ref)⟩

/-! ### SET_BIT_ORDER (R161) -/

theorem orderOfCode_outside {z : Int} (h0 : z ≠ 0) (h1 : z ≠ 1) : orderOfCode z = none := by
  rw [orderOfCode, if_neg h1, if_neg h0]

theorem orderOfCode_of_valid {z : Int} {bo : BitOrder} (h : z = 1 ∧ bo = .msbFirst ∨ z = 0 ∧ bo = .lsbFirst) :
    orderOfCode z = some bo := by
  obtain ⟨rfl, rfl⟩ | ⟨rfl, rfl⟩ := h <;> rfl

/-- A code outside the enumeration makes SET_BIT_ORDER a no-op (R161). -/
theorem setBitOrder_outside {z : Int} (id : Id) (s : State) (h : orderOfCode z = none) : setBitOrder id z s = s := by
  rw [setBitOrder, h]

/-- With a code of the enumeration SET_BIT_ORDER is an edit of the first match (R161). -/
theorem setBitOrder_valid {z : Int} {bo : BitOrder} (id : Id) (s : State) (h : orderOfCode z = some bo) :
    setBitOrder id z s = onFirstMatch id (Bank.setBitOrder bo) s := by
  rw [setBitOrder, h]

/-- Without a first match SET_BIT_ORDER is a no-op, whatever the code (R161). -/
theorem setBitOrder_absent {s : State} {id : Id} (z : Int) (hn : ¬ idPresent s.registry id) :
    setBitOrder id z s = s := by
  cases hz : orderOfCode z with
  | none => exact setBitOrder_outside id s hz
  | some bo => rw [setBitOrder_valid id s hz, onFirstMatch_absent _ hn]

/-- Settles O27: a no-op without a match or a valid code, else the edit `Bank.setBitOrder` of the first match. -/
theorem setBitOrderStoresInFirstMatch : Obligations.SetBitOrderStoresInFirstMatch := by
  unfold Obligations.SetBitOrderStoresInFirstMatch
  intro s id order ho
  have hd : exec (.setBitOrder id order) s = .next (finish .nothing (setBitOrder id order s)) :=
    gate_finishes ho Op.setBitOrder.code (fun _ => .nothing) (setBitOrder id order)
  refine ⟨fun hn => ?_, fun pre post B bo hR hid hf hz => ?_⟩
  · have hs : setBitOrder id order s = s := by
      obtain hn | ⟨h0, h1⟩ := hn
      · exact setBitOrder_absent order hn
      · exact setBitOrder_outside id s (orderOfCode_outside h0 h1)
    rw [hd, hs]
    rfl
  · subst hid
    rw [hd, setBitOrder_valid B.id s (orderOfCode_of_valid hz), onFirstMatch_split _ hR hf]
    rfl

end Sys2Proof.Machine
end

section
/-!
PROOFS. The result of UPDATE_ALL (R167): the failure index the traversal leaves is that of the last bank to fail, and the
start value where none fails.
-/

namespace Sys2Proof.Machine

section
variable (b : FailIndexBasis) (n : Nat)

/-- Banks that do not fail leave the index as it was (R167). -/
theorem failFold_noFailure {os : List BankOutcome} (h : ∀ o ∈ os, o.fails = false) (j r : Nat) :
    failFold b n j os r = r := by
  induction os generalizing j with
  | nil => rfl
  | cons o os ih =>
    obtain ⟨ho, hos⟩ := List.forall_mem_cons.1 h
    rw [failFold, ho]
    exact ih hos (j + 1)

/-- The last bank to fail gives the index, whatever the banks before it gave (R167). -/
theorem failFold_lastFailure {os : List BankOutcome} {k : Nat} (h : lastFailure os k) (j r : Nat) :
    failFold b n j os r = failIndex b n (j + k) := by
  induction os generalizing j k r with
  | nil =>
    obtain ⟨⟨o, ho, _⟩, _⟩ := h
    cases ho
  | cons x os ih =>
    obtain ⟨⟨o, ho, hfail⟩, hlater⟩ := h
    rw [failFold]
    cases k with
    | zero =>
      cases ho
      have hrest : ∀ o ∈ os, o.fails = false := fun y hy =>
        let ⟨m, hm⟩ := List.mem_iff_getElem?.1 hy
        hlater (m + 1) y m.succ_pos hm
      rw [if_pos hfail, failFold_noFailure b n hrest, Nat.add_zero]
    | succ k =>
      have hlast : lastFailure os k :=
        ⟨⟨o, ho, hfail⟩, fun m y hm hy => hlater (m + 1) y (Nat.succ_lt_succ hm) hy⟩
      rw [ih hlast, Nat.add_right_comm, Nat.add_assoc]

end

/-- Settles O32: no bank faults, so the result is the fold over all outcomes, read off at the last failure. -/
theorem updateAllReturnsLastFailure : Obligations.UpdateAllReturnsLastFailure := by
  unfold Obligations.UpdateAllReturnsLastFailure
  intro s ho hq hn
  have hd := execUpdateAll_quiet ho hq hn
  have hr : (updated s s.outcomes).result =
      .index (failFold s.params.failIndexBasis s.registry.length 0 s.outcomes 0) := rfl
  refine ⟨fun h => ⟨_, hd, ?_⟩, fun j h => ⟨_, hd, ?_⟩⟩
  · rw [hr, failFold_noFailure _ _ h]
  · rw [hr, failFold_lastFailure _ _ h, Nat.zero_add]
    exact ⟨fun hb => by rw [hb]; rfl, fun hb => by rw [hb]; rfl⟩

end Sys2Proof.Machine
end

section
/-!
PROOFS. LATCH phases (R165): every instruction but UPDATE_ALL appends the phases of some bytes to the trace, and the
phases of bytes are SETUP and CLOCK alone.
-/

namespace Sys2Proof.Machine

theorem latch_notMem_streamPhases (ps : List Byte) (l : Level) : Phase.latch l ∉ streamPhases ps := by
  simp [streamPhases, bytePhases]

/-- Four instructions emit phases; the rest have another row of the opcode table (R224). -/
theorem instr_emitting_cases (i : Instr) :
    i = .updateAll ∨ i = .bankUpdate ∨ i = .encOff ∨ (∃ d, i = .encUpdate d) ∨
      (i.op ≠ .updateAll ∧ i.op ≠ .bankUpdate ∧ i.op ≠ .encUpdate ∧ i.op ≠ .encOff) := by
  cases i <;> simp [Instr.op]

/-- Serialising a byte appends the phases of that byte (R74). -/
theorem serialise_trace (j i : Nat) (p : Byte) (s : State) :
    (serialise j i p s).trace = s.trace ++ streamPhases [p] := by
  rw [serialise_eq, emitAll_trace, cellEvents_phases, streamPhases, List.flatMap_singleton]

theorem afterRead_trace (s : State) (B : Bank) : (afterRead s B).trace = s.trace :=
  (afterReads_trace s [B]).1

section
variable {s t : State}

theorem execEncUpdate_trace {d : Int} (h : exec (.encUpdate d) s = .next t) :
    ∃ ps : List Byte, t.trace = s.trace ++ streamPhases ps := by
  simp only [exec, execEncUpdate] at h
  obtain ⟨_, h⟩ := gate_next h
  obtain ⟨B, E, _, _, h⟩ := onEncoder_next h
  rw [encUpdate] at h
  cases hp : patternOf E.table d with
  | none =>
    rw [hp] at h
    cases h
    exact ⟨[], (List.append_nil _).symm⟩
  | some p =>
    rw [hp] at h
    cases h
    exact ⟨[p], by rw [finish_trace, serialise_trace]⟩

theorem execEncOff_trace (h : exec .encOff s = .next t) : ∃ ps : List Byte, t.trace = s.trace ++ streamPhases ps := by
  simp only [exec, execEncOff] at h
  obtain ⟨_, h⟩ := gate_next h
  obtain ⟨_, _, _, _, h⟩ := onEncoder_next h
  cases h
  exact ⟨[0#8], by rw [finish_trace, encOff, serialise_trace]⟩

theorem execBankUpdate_trace (h : exec .bankUpdate s = .next t) :
    ∃ ps : List Byte, t.trace = s.trace ++ streamPhases ps := by
  simp only [exec, execBankUpdate] at h
  obtain ⟨_, h⟩ := gate_next h
  obtain ⟨B, _, h⟩ := onBank_next h
  rw [bankUpdate_eq] at h
  cases he : bankEffect s B with
  | faults k =>
    rw [he] at h
    cases h
    exact ⟨[], (afterRead_trace s B).trans (List.append_nil _).symm⟩
  | emits ps st =>
    rw [he] at h
    cases h
    exact ⟨ps, by simp [emitAll_trace, afterRead_trace]⟩

/-- The instructions of the other rows emit nothing (R224). -/
theorem exec_trace_still {i : Instr} (h : exec i s = .next t)
    (hi : i.op ≠ .updateAll ∧ i.op ≠ .bankUpdate ∧ i.op ≠ .encUpdate ∧ i.op ≠ .encOff) : t.trace = s.trace := by
  obtain ⟨hu, hb, he, hf⟩ := hi
  obtain ⟨_, m, hm, hends⟩ := exec_next h
  cases hm.still hu hb he hf
  obtain ⟨r, R, _, rfl⟩ | ⟨k, _, _, rfl⟩ := hends <;> rfl

/-- Every instruction but UPDATE_ALL appends the phases of bytes, or nothing (R165). -/
theorem exec_trace_bytes {i : Instr} (h : exec i s = .next t) (hi : i ≠ .updateAll) :
    ∃ ps : List Byte, t.trace = s.trace ++ streamPhases ps := by
  obtain rfl | rfl | rfl | ⟨d, rfl⟩ | hstill := instr_emitting_cases i
  · exact absurd rfl hi
  · exact execBankUpdate_trace h
  · exact execEncOff_trace h
  · exact execEncUpdate_trace h
  · exact ⟨[], by rw [exec_trace_still h hstill]; exact (List.append_nil _).symm⟩

/-- UPDATE_ALL puts the phases of bytes into its bracket, and closes it exactly when it does not fault (R165, R199). -/
theorem execUpdateAll_trace (h : exec .updateAll s = .next t) :
    ∃ ps : List Byte,
      (t.fault = none → t.trace = s.trace ++ [Phase.latch s.cfg.latchActive] ++ streamPhases ps ++
        [Phase.latch s.cfg.latchActive.not]) ∧
      (t.fault ≠ none → t.trace = s.trace ++ [Phase.latch s.cfg.latchActive] ++ streamPhases ps) := by
  obtain ⟨⟨hnofault, _⟩, ⟨_, rfl⟩ | ⟨pre, k, _, _, _, rfl⟩⟩ := execUpdateAll_next h
  · exact ⟨(effects s s.registry.reverse).flatMap BankOutcome.bytes, fun _ => updated_trace s _,
      fun hf => absurd ((updated_fault s _).trans hnofault) hf⟩
  · exact ⟨pre.flatMap BankOutcome.bytes, fun hf => absurd hf (brokenOff_fault s pre k),
      fun _ => brokenOff_trace s pre k⟩

end

/-- Settles O35: inside and outside UPDATE_ALL the other phases are those of bytes, and no byte has a LATCH phase. -/
theorem latchPhasesOnlyBracketUpdates : Obligations.LatchPhasesOnlyBracketUpdates := by
  unfold Obligations.LatchPhasesOnlyBracketUpdates
  intro i s t h
  by_cases hi : i = .updateAll
  · subst hi
    obtain ⟨ps, hclosed, hopen⟩ := execUpdateAll_trace h
    exact ⟨streamPhases ps, latch_notMem_streamPhases ps, absurd rfl, fun _ => hclosed, fun _ => hopen⟩
  · obtain ⟨ps, hps⟩ := exec_trace_bytes h hi
    exact ⟨streamPhases ps, latch_notMem_streamPhases ps, fun _ => hps, fun hu => absurd hu hi, fun hu => absurd hu hi⟩

end Sys2Proof.Machine
end

section
/-!
PROOFS. The number of phases of an UPDATE_ALL (R237): banks that do not fault emit one byte for each position of those
that emit, whatever lands at their reads, and the order of traversal does not change that number.
-/

namespace Sys2Proof.Machine

/-- The positions of the banks that emit (R133, R237). -/
def emittingPositions (Bs : List Bank) : Nat := ((Bs.filter Bank.emitsBytes).map fun B => B.enc.length).sum

theorem emittingPositions_cons (B : Bank) (Bs : List Bank) :
    emittingPositions (B :: Bs) = (if B.emitsBytes then B.enc.length else 0) + emittingPositions Bs := by
  cases hB : B.emitsBytes <;> simp [emittingPositions, hB]

theorem emittingPositions_reverse (Bs : List Bank) : emittingPositions Bs.reverse = emittingPositions Bs := by
  simp only [emittingPositions, List.filter_reverse, List.map_reverse, List.sum_reverse]

/-- Banks none of which faults emit as many bytes as the emitting ones have positions, whatever the host does (R133). -/
theorem effects_bytes_length {Bs : List Bank} {s : State} (h : ∀ o ∈ effects s Bs, o.faulted = false) :
    ((effects s Bs).flatMap BankOutcome.bytes).length = emittingPositions Bs := by
  induction Bs generalizing s with
  | nil => rfl
  | cons B Bs ih =>
    obtain ⟨hB, hBs⟩ := List.forall_mem_cons.1 h
    rw [effects, List.flatMap_cons, List.length_append, bankEffect_length hB, ih hBs, emittingPositions_cons]

/-- The bracket has two phases and every byte sixteen (R165, R74). -/
theorem updated_trace_length (s : State) (os : List BankOutcome) :
    (updated s os).trace.length = s.trace.length + 2 + 16 * (os.flatMap BankOutcome.bytes).length := by
  simp only [updated_trace, List.length_append, List.length_singleton, streamPhases_length]
  omega

/-- Settles O36: without a fault the run ends in `updated`, where every byte of its banks has sixteen phases. -/
theorem updateAllPhaseCount : Obligations.UpdateAllPhaseCount := by
  unfold Obligations.UpdateAllPhaseCount
  intro s t h hf
  obtain ⟨_, ⟨hn, rfl⟩ | ⟨pre, k, _, _, _, rfl⟩⟩ := execUpdateAll_next h
  · rw [updated_trace_length, effects_bytes_length hn, emittingPositions_reverse, emittingPositions]
  · exact absurd hf (brokenOff_fault s pre k)

end Sys2Proof.Machine
end

section
/-!
PROOFS. The decoder and the encoder (R80 to R94): each row's operands are read back as they were written, so that decoding
undoes encoding; and the records the decoder accepts are exactly those to which no ground of R90 applies.
-/

namespace Sys2Proof

/-! ### Decoding undoes encoding -/

/-- A row's operand decoder reads the operands of an instruction of the row as that instruction (R81). -/
theorem decodeOperands_encodeOperands (i : Instr) : decodeOperands i.op (encodeOperands i) = .ok i := by
  cases i with
  | addBank id n ref table | replaceBank id n ref table =>
    simp only [Instr.op, decodeOperands, encodeOperands, takeBank, asNatural_natOperand, asTable_tableOperand]
    rfl
  | insertBank id n index ref table =>
    simp only [Instr.op, decodeOperands, encodeOperands, takeBankAt, asNatural_natOperand, asTable_tableOperand]
    rfl
  | removeBank | clearAll | setBitOrder | enableBank | setSource | updateAll | printAll | encUpdate | encOff
  | encSetBitOrder | encGetBitOrder | bankUpdate | bankGetBitOrder | bankSetBitOrder | bankSetEnabled
  | bankSetSource => rfl

theorem decodeRow_encode (i : Instr) : decodeRow i.interface (encode i) = .ok i := by
  simp only [decodeRow, encode, ofCode_code, Instr.interface, if_true, decodeOperands_encodeOperands]

/-- Settles O1: the row is found by its code, its operands are read back, and the instruction is typed by hypothesis. -/
theorem decodeOfEncodeGivesInstruction : Obligations.DecodeOfEncodeGivesInstruction := by
  unfold Obligations.DecodeOfEncodeGivesInstruction
  intro p i hi
  exact decode_ok_iff.2 ⟨decodeRow_encode i, hi⟩

/-! ### Encoding undoes decoding -/

/-- What a record spells on an interface is an instruction of that interface, of which it is the record (R80, R82). -/
theorem decodeRow_ok {f : Interface} {c : RawCommand} {i : Instr} (h : decodeRow f c = .ok i) :
    encode i = c ∧ i.interface = f := by
  unfold decodeRow at h
  split at h
  · cases h
  · next m hm =>
    split at h
    · next hf =>
      obtain ⟨rfl, hos⟩ := decodeOperands_ok h
      exact ⟨by rw [encode, code_of_ofCode hm, hos], hf⟩
    · cases h

/-- Settles O2: the row's code and its operands are those of the record, and the decoder has checked the types. -/
theorem encodeOfDecodeGivesRecord : Obligations.EncodeOfDecodeGivesRecord := by
  unfold Obligations.EncodeOfDecodeGivesRecord
  intro p f c i h
  obtain ⟨hrow, htyped⟩ := decode_ok_iff.1 h
  obtain ⟨hc, hf⟩ := decodeRow_ok hrow
  exact ⟨hc, hf, htyped⟩

/-! ### The operands that fit a kind (R81) -/

@[simp] theorem Operand.fits_key_iff {o : Operand} : o.fits .key = true ↔ ∃ id, o = .key id := by
  cases o <;> simp [Operand.fits]

@[simp] theorem Operand.fits_ref_iff {o : Operand} : o.fits .ref = true ↔ ∃ r, o = .ref r := by
  cases o <;> simp [Operand.fits]

@[simp] theorem Operand.fits_integer_iff {o : Operand} : o.fits .integer = true ↔ ∃ z, o = .int z := by
  cases o <;> simp [Operand.fits]

@[simp] theorem Operand.fits_boolean_iff {o : Operand} : o.fits .boolean = true ↔ ∃ b, o = .bool b := by
  cases o <;> simp [Operand.fits]

@[simp] theorem Operand.fits_order_iff {o : Operand} : o.fits .order = true ↔ ∃ bo, o = .order bo := by
  cases o <;> simp [Operand.fits]

@[simp] theorem Operand.fits_natural_iff {o : Operand} : o.fits .natural = true ↔ ∃ n, o = natOperand n := by
  refine ⟨fun h => ?_, ?_⟩
  · cases o with
    | int z => exact ⟨z.toNat, congrArg Operand.int (Int.toNat_of_nonneg (of_decide_eq_true h)).symm⟩
    | key | ref | table | bool | order | other => cases h
  · rintro ⟨n, rfl⟩
    exact natOperand_fits n

@[simp] theorem Operand.fits_table_iff {o : Operand} : o.fits .table = true ↔ ∃ t, o = tableOperand t := by
  refine ⟨fun h => ?_, ?_⟩
  · cases o with
    | table t =>
      cases t with
      | none => exact ⟨none, rfl⟩
      | some zs =>
        obtain ⟨bs, hbs⟩ := (asBytes_ok_iff zs).2 h
        exact ⟨some bs, by rw [← asBytes_ok hbs]; rfl⟩
    | key | int | ref | bool | order | other => cases h
  · rintro ⟨t, rfl⟩
    exact tableOperand_fits t

@[simp] theorem operandsFit_nil_iff {os : List Operand} : operandsFit [] os = true ↔ os = [] := by
  cases os <;> simp [operandsFit]

@[simp] theorem operandsFit_cons_iff {k : Kind} {ks : List Kind} {os : List Operand} :
    operandsFit (k :: ks) os = true ↔ ∃ o os', os = o :: os' ∧ o.fits k = true ∧ operandsFit ks os' = true := by
  cases os with
  | nil => simp [operandsFit]
  | cons o os => simp [operandsFit]

/-- Operands that fit a row are those of an instruction of the row (R81, R82). -/
theorem exists_instr_of_operandsFit {m : Op} {os : List Operand} (h : operandsFit m.kinds os = true) :
    ∃ i : Instr, i.op = m ∧ encodeOperands i = os := by
  cases m <;> simp [Op.kinds, -Bool.exists_bool] at h
  case addBank => obtain ⟨id, n, r, t, rfl⟩ := h; exact ⟨.addBank id n r t, rfl, rfl⟩
  case insertBank => obtain ⟨id, n, k, r, t, rfl⟩ := h; exact ⟨.insertBank id n k r t, rfl, rfl⟩
  case replaceBank => obtain ⟨id, n, r, t, rfl⟩ := h; exact ⟨.replaceBank id n r t, rfl, rfl⟩
  case removeBank => obtain ⟨id, rfl⟩ := h; exact ⟨.removeBank id, rfl, rfl⟩
  case clearAll => exact ⟨.clearAll, rfl, h.symm⟩
  case setBitOrder => obtain ⟨id, z, rfl⟩ := h; exact ⟨.setBitOrder id z, rfl, rfl⟩
  case enableBank => obtain ⟨id, b, rfl⟩ := h; exact ⟨.enableBank id b, rfl, rfl⟩
  case setSource => obtain ⟨id, r, rfl⟩ := h; exact ⟨.setSource id r, rfl, rfl⟩
  case updateAll => exact ⟨.updateAll, rfl, h.symm⟩
  case printAll => exact ⟨.printAll, rfl, h.symm⟩
  case encUpdate => obtain ⟨z, rfl⟩ := h; exact ⟨.encUpdate z, rfl, rfl⟩
  case encOff => exact ⟨.encOff, rfl, h.symm⟩
  case encSetBitOrder => obtain ⟨bo, rfl⟩ := h; exact ⟨.encSetBitOrder bo, rfl, rfl⟩
  case encGetBitOrder => exact ⟨.encGetBitOrder, rfl, h.symm⟩
  case bankUpdate => exact ⟨.bankUpdate, rfl, h.symm⟩
  case bankGetBitOrder => exact ⟨.bankGetBitOrder, rfl, h.symm⟩
  case bankSetBitOrder => obtain ⟨bo, rfl⟩ := h; exact ⟨.bankSetBitOrder bo, rfl, rfl⟩
  case bankSetEnabled => obtain ⟨b, rfl⟩ := h; exact ⟨.bankSetEnabled b, rfl, rfl⟩
  case bankSetSource => obtain ⟨r, rfl⟩ := h; exact ⟨.bankSetSource r, rfl, rfl⟩

/-! ### The grounds of R90 -/

/-- The record of every typed instruction is one its interface accepts (R90). -/
theorem encode_wellFormed : ∀ i : Instr, Laws.EncodedFits.Statement i
  | .addBank .. => Laws.EncodedFits.addBank _ _ _ _
  | .insertBank .. => Laws.EncodedFits.insertBank _ _ _ _ _
  | .replaceBank .. => Laws.EncodedFits.replaceBank _ _ _ _
  | .removeBank .. => Laws.EncodedFits.removeBank _
  | .clearAll => Laws.EncodedFits.clearAll
  | .setBitOrder .. => Laws.EncodedFits.setBitOrder _ _
  | .enableBank .. => Laws.EncodedFits.enableBank _ _
  | .setSource .. => Laws.EncodedFits.setSource _ _
  | .updateAll => Laws.EncodedFits.updateAll
  | .printAll => Laws.EncodedFits.printAll
  | .encUpdate .. => Laws.EncodedFits.encUpdate _
  | .encOff => Laws.EncodedFits.encOff
  | .encSetBitOrder .. => Laws.EncodedFits.encSetBitOrder _
  | .encGetBitOrder => Laws.EncodedFits.encGetBitOrder
  | .bankUpdate => Laws.EncodedFits.bankUpdate
  | .bankGetBitOrder => Laws.EncodedFits.bankGetBitOrder
  | .bankSetBitOrder .. => Laws.EncodedFits.bankSetBitOrder _
  | .bankSetEnabled .. => Laws.EncodedFits.bankSetEnabled _
  | .bankSetSource .. => Laws.EncodedFits.bankSetSource _

/-- A record that passes the checks of R90 is that of a typed instruction of the interface it passes them on. -/
theorem exists_instr_of_wellFormed {p : Params} {f : Interface} {c : RawCommand} (h : c.wellFormed p f = true) :
    ∃ i : Instr, encode i = c ∧ i.interface = f ∧ i.typed p = true := by
  simp only [RawCommand.wellFormed, RawCommand.codeAllowed, RawCommand.operandsFit, RawCommand.keysTyped,
    Bool.and_eq_true] at h
  obtain ⟨⟨⟨_, hcode⟩, hfit⟩, htyped⟩ := h
  cases hm : Op.ofCode c.op with
  | none => rw [hm] at hcode; cases hcode
  | some m =>
    rw [hm] at hcode hfit
    obtain ⟨i, rfl, hos⟩ := exists_instr_of_operandsFit hfit
    refine ⟨i, by rw [encode, code_of_ofCode hm, hos], of_decide_eq_true hcode, ?_⟩
    rw [← keysTyped_operands, hos, htyped]

/-- The decoder accepts exactly the records to which no ground of R90 applies. -/
theorem decode_ok_iff_wellFormed {p : Params} {f : Interface} {c : RawCommand} :
    (∃ i, decode p f c = .ok i) ↔ c.wellFormed p f = true := by
  refine ⟨?_, fun h => ?_⟩
  · rintro ⟨i, hi⟩
    obtain ⟨rfl, rfl, htyped⟩ := encodeOfDecodeGivesRecord p f c i hi
    exact encode_wellFormed i p htyped
  · obtain ⟨i, rfl, rfl, htyped⟩ := exists_instr_of_wellFormed h
    exact ⟨i, decodeOfEncodeGivesInstruction p i htyped⟩

theorem decode_error_of_illFormed {p : Params} {f : Interface} {c : RawCommand} (h : c.wellFormed p f = false) :
    ∃ e, decode p f c = .error e := by
  cases hd : decode p f c with
  | error e => exact ⟨e, rfl⟩
  | ok i => rw [decode_ok_iff_wellFormed.1 ⟨i, hd⟩] at h; cases h

/-! ### Records and written commands of the spec -/

/-- Settles O4: each record is closed, and the decoder computes its answer. -/
theorem specRecordsDecode : Obligations.SpecRecordsDecode := by
  unfold Obligations.SpecRecordsDecode
  exact ⟨rfl, rfl, rfl, rfl, rfl, rfl, rfl, rfl⟩

/-- Settles O5: the name picks the row, and a missing or default table is read as the operand NONE. -/
theorem trailingTableMayBeOmitted : Obligations.TrailingTableMayBeOmitted := by
  unfold Obligations.TrailingTableMayBeOmitted
  intro id n h
  exact ⟨rfl, rfl⟩

end Sys2Proof
end

section
/-!
PROOFS. What a step does with each kind of input (R80, R90, R220): one rule for each, and from them the refusal of an
ill-formed record, the placed table word, and what a step leaves alone.
-/

namespace Sys2Proof.Machine

/-! ### One rule for each input -/

section
variable {s : State} {c : RawCommand} {rest : List Input}

theorem performRecord_ok {f : Interface} {i : Instr} (h : decode s.params f c = .ok i) :
    performRecord f c s = exec i s := by
  rw [performRecord, h]

theorem performRecord_error {f : Interface} {e : Reject} (h : decode s.params f c = .error e) :
    performRecord f c s = .next (refuse s) := by
  rw [performRecord, h]

theorem step_nil (ho : s.isOpen) (hi : s.inbox = []) : step s = .next s := by
  rw [step, hi]
  exact gate_open s ho _

theorem step_command (ho : s.isOpen) (hi : s.inbox = .command c :: rest) :
    step s = performRecord .host c (takeInput rest s) := by
  rw [step, hi]
  exact gate_open s ho _

theorem step_internal {g : Target} (ho : s.isOpen) (hi : s.inbox = .internal g c :: rest) :
    step s = performRecord .block c (aimAt g (takeInput rest s)) := by
  rw [step, hi]
  exact gate_open s ho _

theorem step_construct {a : ConstructArgs} {t : State} (hi : s.inbox = .construct a :: rest)
    (h : construct a (takeInput rest s) = some t) : step s = .next t := by
  rw [step, hi]
  simp only [h]

theorem step_pinClash {a : ConstructArgs} (hi : s.inbox = .construct a :: rest)
    (h : construct a (takeInput rest s) = none) : step s = .refused .pinClash := by
  rw [step, hi]
  simp only [h]

end

/-- Settles O9: with an empty inbox an open gate lets the state through as it is. -/
theorem idleBlockWaits : Obligations.IdleBlockWaits := by
  unfold Obligations.IdleBlockWaits
  intro s ho hi
  exact step_nil ho hi

/-- Settles O6: the step performs the record, and the record decodes to the instruction. -/
theorem stepPerformsDecodedCommand : Obligations.StepPerformsDecodedCommand := by
  unfold Obligations.StepPerformsDecodedCommand
  intro s c i rest ho
  refine ⟨fun hi hd => ?_, fun g hi hd => ?_⟩
  · rw [step_command ho hi, performRecord_ok (s := takeInput rest s) hd]
    rfl
  · rw [step_internal ho hi, performRecord_ok (s := aimAt g (takeInput rest s)) hd]
    rfl

/-- Settles O3: the decoder refuses the ill-formed records, and reads every other as the instruction it encodes. -/
theorem illFormedCommandIsRefused : Obligations.IllFormedCommandIsRefused := by
  unfold Obligations.IllFormedCommandIsRefused
  intro s c rest ho hi
  refine ⟨fun hw => ?_, fun hw => ?_⟩
  · obtain ⟨e, he⟩ := decode_error_of_illFormed hw
    rw [step_command ho hi, performRecord_error (s := takeInput rest s) he]
    rfl
  · obtain ⟨i, hd⟩ := decode_ok_iff_wellFormed.2 hw
    obtain ⟨hc, hf, htyped⟩ := encodeOfDecodeGivesRecord _ _ _ _ hd
    exact ⟨i, hf, htyped, hc, (stepPerformsDecodedCommand s c i rest ho).1 hi hd⟩

/-! ### The word of a table row (log 6) -/

theorem isNameOf_zero (last : Option Nat) : isNameOf last 0 = true := by
  cases last <;> simp [isNameOf]

theorem zeroes_typed (p : Params) (ks : List Kind) : (ks.map Kind.zero).all (Operand.typed p) = true := by
  rw [List.all_map, List.all_eq_true]
  rintro k -
  cases k with
  | key => exact isNameOf_zero p.idMax
  | natural | ref | table | integer | boolean | order => rfl

theorem zeroes_fit (ks : List Kind) : operandsFit ks (ks.map Kind.zero) = true := by
  induction ks with
  | nil => rfl
  | cons k ks ih =>
    have hk : k.zero.fits k = true := by cases k <;> rfl
    exact Bool.and_eq_true_iff.2 ⟨hk, ih⟩

theorem tableCommand_code (m : Op) :
    tableCommand m.code.toNat = { op := m.code, operands := m.kinds.map Kind.zero } := by
  simp only [tableCommand, BitVec.ofNat_toNat, BitVec.setWidth_eq, ofCode_code]

/-- A row's word is the record of an instruction of the row, typed whatever the types of names are (log 6). -/
theorem exists_tableInstr (m : Op) :
    ∃ i : Instr, i.op = m ∧ encode i = tableCommand m.code.toNat ∧ ∀ p, i.typed p = true := by
  obtain ⟨i, rfl, hos⟩ := exists_instr_of_operandsFit (zeroes_fit m.kinds)
  refine ⟨i, rfl, ?_, fun p => ?_⟩
  · rw [tableCommand_code, encode, hos]
  · rw [← keysTyped_operands, hos, zeroes_typed]

section
variable {i : Instr} (hc : encode i = tableCommand i.op.code.toNat)
include hc

theorem decode_tableCommand {p : Params} (hi : i.typed p = true) :
    decode p i.op.interface (tableCommand i.op.code.toNat) = .ok i := by
  rw [← hc]
  exact decodeOfEncodeGivesInstruction p i hi

theorem decodeTableWord_code (hi : i.typed Config.params = true) : decodeTableWord 8 i.op.code.toNat = some i := by
  rw [decodeTableWord, if_pos ⟨rfl, i.op.code.isLt⟩, BitVec.ofNat_toNat, BitVec.setWidth_eq, ofCode_code]
  simp only [decode_tableCommand hc hi]
  rfl

end

/-! ### Placing a word (log 8) -/

/-- The first bank with a position has a position 0. -/
theorem firstWithPosition_some {R : List Bank} {r : Nat} (h : firstWithPosition R = some r) :
    ∃ B E, R[r]? = some B ∧ B.enc[0]? = some E := by
  obtain ⟨hr, hB, _⟩ := List.findIdx?_eq_some_iff_getElem.1 h
  cases he : R[r].enc with
  | nil => rw [he] at hB; cases hB
  | cons E es => exact ⟨R[r], E, List.getElem?_eq_getElem hr, by rw [he]; rfl⟩

theorem withFirstPosition_first (c : Cfg) (R : List Bank) :
    ∃ B E, (withFirstPosition c R)[0]? = some B ∧ B.enc[0]? = some E := by
  cases R with
  | nil => exact ⟨_, _, rfl, rfl⟩
  | cons B Bs => exact ⟨_, _, rfl, rfl⟩

section
variable {s : State} {c : RawCommand} {m : Op}

theorem placeCommand_host (hm : Op.ofCode c.op = some m) (hi : m.interface = .host) :
    placeCommand c s = pushInput (.command c) s := by
  simp only [placeCommand, hm, hi]

/-- An internal operation is placed with a target that is there, in a state whose gate is as it was (log 8). -/
theorem placeCommand_block (hm : Op.ofCode c.op = some m) (hi : m.interface = .block) (ho : s.isOpen) :
    ∃ (g : Target) (u : State) (B : Bank) (E : Encoder), placeCommand c s = pushInput (.internal g c) u ∧ u.isOpen ∧
      u.registry[g.bank]? = some B ∧ B.enc[g.position]? = some E := by
  simp only [placeCommand, hm, hi]
  cases hr : firstWithPosition s.registry with
  | some r =>
    obtain ⟨B, E, hB, hE⟩ := firstWithPosition_some hr
    exact ⟨_, s, B, E, rfl, ho, hB, hE⟩
  | none =>
    obtain ⟨B, E, hB, hE⟩ := withFirstPosition_first s.cfg s.registry
    exact ⟨_, _, B, E, rfl, ho, hB, hE⟩

end

/-- On an open state whose target is an encoder every instruction answers a next state (R82, R151). -/
theorem exec_completes {s : State} {B : Bank} {E : Encoder} (i : Instr) (ho : s.isOpen) (hb : s.targetBank = some B)
    (he : B.enc[s.target.position]? = some E) : ∃ t, exec i s = .next t := by
  cases i with
  | addBank | insertBank | replaceBank | removeBank | clearAll | setBitOrder | enableBank | setSource | updateAll
  | printAll => exact (hostCommandRunsExactlyWhenOpen _ s rfl).1 ho
  | encUpdate | encOff | encSetBitOrder | encGetBitOrder =>
    simp only [exec, execEncUpdate, execEncOff, execEncSetBitOrder, execEncGetBitOrder, gate_open s ho,
      onEncoder_target hb he]
    exact conclude_completes _ _
  | bankUpdate | bankGetBitOrder | bankSetBitOrder | bankSetEnabled | bankSetSource =>
    simp only [exec, execBankUpdate, execBankGetBitOrder, execBankSetBitOrder, execBankSetEnabled, execBankSetSource,
      gate_open s ho, onBank_target hb]
    exact conclude_completes _ _

/-- Settles O7: the word is the record of a typed instruction, which is placed with a target that is there. -/
theorem tableWordRunsNext : Obligations.TableWordRunsNext := by
  unfold Obligations.TableWordRunsNext
  intro s m ho
  obtain ⟨i, rfl, hc, htyped⟩ := exists_tableInstr m
  have hcode : Op.ofCode (tableCommand i.op.code.toNat).op = some i.op := by rw [tableCommand_code]; exact ofCode_code _
  have hword := decodeTableWord_code hc (htyped Config.params)
  cases hf : i.op.interface with
  | host =>
    obtain ⟨t, ht⟩ := (hostCommandRunsExactlyWhenOpen i s hf).1 ho
    refine ⟨i, s, t, hword, rfl, ?_, ht⟩
    have hdec := decode_tableCommand hc (htyped s.params)
    rw [hf] at hdec
    rw [State.withFetchWord, placeCommand_host hcode hf, step_command (s := pushInput _ s) ho rfl]
    exact performRecord_ok hdec
  | block =>
    obtain ⟨g, u, B, E, hplace, hu, hB, hE⟩ := placeCommand_block hcode hf ho
    obtain ⟨t, ht⟩ := exec_completes (s := aimAt g u) i hu hB hE
    refine ⟨i, aimAt g u, t, hword, rfl, ?_, ht⟩
    have hdec := decode_tableCommand hc (htyped u.params)
    rw [hf] at hdec
    rw [State.withFetchWord, hplace, step_internal (s := pushInput _ u) hu rfl]
    exact performRecord_ok hdec

/-! ### Construction and reset (R220 to R222) -/

theorem construct_of_distinct {a : ConstructArgs} {s : State} (h : (cfgOf a s.params).pinsDistinct) :
    construct a s = some { s with
      cfg := cfgOf a s.params, registry := [], pins := Pins.undriven, fault := none, refused := false, trace := [],
      cursor := .idle, target := { bank := 0, position := 0 }, result := .nothing, cursorLog := [] } := by
  rw [construct, if_pos h]

theorem construct_of_clash {a : ConstructArgs} {s : State} (h : ¬ (cfgOf a s.params).pinsDistinct) :
    construct a s = none := by
  rw [construct, if_neg h]

/-- Settles O42: the configuration named is `cfgOf`, whose pins are distinct or not. -/
theorem constructionGivesFreshBlock : Obligations.ConstructionGivesFreshBlock := by
  unfold Obligations.ConstructionGivesFreshBlock
  rintro s a rest _ hi rfl
  refine ⟨fun hp => step_construct hi (construct_of_distinct (s := takeInput rest s) hp), fun hp t ht => ?_⟩
  have hclash : ¬ (cfgOf a (takeInput rest s).params).pinsDistinct := by
    rintro ⟨hdc, hdl, hcl⟩
    obtain h | h | h := hp
    · exact hdc h
    · exact hdl h
    · exact hcl h
  rw [step_pinClash hi (construct_of_clash hclash)] at ht
  cases ht

/-- Settles O43: every field of the state after reset is closed, and its default pins are distinct. -/
theorem resetIsConstruction : Obligations.ResetIsConstruction := by
  unfold Obligations.ResetIsConstruction
  have hp : (cfgOf { dataPin := none, clockPin := none, latchPin := none, latchActive := none }
      State.reset.params).pinsDistinct := by decide
  exact ⟨rfl, rfl, rfl, rfl, rfl, rfl, rfl, construct_of_distinct hp⟩

/-! ### What a step leaves alone -/

/-- Settles O41: the three other inputs pass the gate, which is shut. -/
theorem onlyConstructionLeavesFault : Obligations.OnlyConstructionLeavesFault := by
  unfold Obligations.OnlyConstructionLeavesFault
  intro s t hc h
  cases step_next h with
  | waits ho => exact absurd ho hc
  | command ho => exact absurd ho hc
  | internal ho => exact absurd ho hc
  | construct a rest hi => exact .inl ⟨a, rest, hi⟩
  | hostWrite w rest hi ht => exact .inr ⟨w, rest, hi, ht⟩

/-- A record performed appends to the trace (R37). -/
theorem performRecord_trace {f : Interface} {c : RawCommand} {s t : State} (h : performRecord f c s = .next t) :
    ∃ es : List Phase, t.trace = s.trace ++ es := by
  obtain ⟨_, rfl⟩ | ⟨i, _, h⟩ := performRecord_next h
  · exact ⟨[], (List.append_nil _).symm⟩
  · obtain ⟨es, hes, _⟩ := exec_trace h
    exact ⟨_, hes⟩

/-- A record performed writes neither the configuration nor the parameters (R22, R7). -/
theorem performRecord_fixed {f : Interface} {c : RawCommand} {s t : State} (h : performRecord f c s = .next t) :
    t.cfg = s.cfg ∧ t.params = s.params := by
  obtain ⟨_, rfl⟩ | ⟨i, _, h⟩ := performRecord_next h
  · exact ⟨rfl, rfl⟩
  · obtain ⟨hcfg, hparams, _⟩ := exec_fixed h
    exact ⟨hcfg, hparams⟩

/-- Settles O47: a record appends to the trace, and waiting and a host write leave it as it was. -/
theorem traceOnlyGrows : Obligations.TraceOnlyGrows := by
  unfold Obligations.TraceOnlyGrows
  intro s t h hn
  cases step_next h with
  | waits _ _ ht => exact ⟨[], by rw [ht, List.append_nil]⟩
  | command _ c rest _ h => exact (performRecord_trace h :)
  | internal _ g c rest _ h => exact (performRecord_trace h :)
  | construct a rest hi => exact absurd hi (hn a rest)
  | hostWrite w rest _ ht => exact ⟨[], by rw [ht, List.append_nil]; rfl⟩

/-- Settles O48: no record, no wait and no host write has the configuration or the parameters to write. -/
theorem configurationIsFixed : Obligations.ConfigurationIsFixed := by
  unfold Obligations.ConfigurationIsFixed
  intro s t h hn
  cases step_next h with
  | waits _ _ ht => exact ⟨by rw [ht], by rw [ht]⟩
  | command _ c rest _ h => exact (performRecord_fixed h :)
  | internal _ g c rest _ h => exact (performRecord_fixed h :)
  | construct a rest hi => exact absurd hi (hn a rest)
  | hostWrite w rest _ ht => exact ⟨by rw [ht]; rfl, by rw [ht]; rfl⟩

/-- The instructions of the rows that emit nothing leave the pins and the chain as they were (R224). -/
theorem exec_pins_still {i : Instr} {s t : State} (h : exec i s = .next t)
    (hi : i.op ≠ .updateAll ∧ i.op ≠ .bankUpdate ∧ i.op ≠ .encUpdate ∧ i.op ≠ .encOff) :
    t.pins = s.pins ∧ t.chain = s.chain := by
  obtain ⟨hu, hb, he, hf⟩ := hi
  obtain ⟨_, m, hm, hends⟩ := exec_next h
  cases hm.still hu hb he hf
  obtain ⟨r, R, _, rfl⟩ | ⟨k, _, _, rfl⟩ := hends <;> exact ⟨rfl, rfl⟩

/-- Of the host's instructions only UPDATE_ALL emits phases (R92, R224). -/
theorem host_instr_emitting {i : Instr} (hi : i.interface = .host) :
    i = .updateAll ∨ (i.op ≠ .updateAll ∧ i.op ≠ .bankUpdate ∧ i.op ≠ .encUpdate ∧ i.op ≠ .encOff) := by
  obtain rfl | rfl | rfl | ⟨d, rfl⟩ | hstill := instr_emitting_cases i
  · exact .inl rfl
  · cases hi
  · cases hi
  · cases hi
  · exact .inr hstill

/-- Settles O49: a host record that is no UPDATE_ALL emits nothing, and no other input of the host reaches the pins. -/
theorem onlyUpdatesMovePins : Obligations.OnlyUpdatesMovePins := by
  unfold Obligations.OnlyUpdatesMovePins
  intro s t hdriven h
  cases step_next h with
  | waits _ _ ht => subst ht; exact .inr ⟨rfl, .inr ⟨rfl, rfl⟩⟩
  | command _ c rest hi h =>
    obtain ⟨_, rfl⟩ | ⟨i, hd, h⟩ := performRecord_next h
    · exact .inr ⟨rfl, .inr ⟨rfl, rfl⟩⟩
    · obtain ⟨_, hhost, _⟩ := encodeOfDecodeGivesRecord _ _ _ _ hd
      obtain rfl | hstill := host_instr_emitting hhost
      · exact .inl ⟨c, rest, hi, hd⟩
      · obtain ⟨hpins, hchain⟩ := exec_pins_still h hstill
        exact .inr ⟨hchain, .inr ⟨hpins, (exec_trace_still h hstill :)⟩⟩
  | internal _ g c rest hi _ => exact absurd rfl (hdriven _ (by rw [hi]; exact List.mem_cons_self) g c)
  | construct a rest hi h =>
    obtain ⟨_, rfl⟩ := construct_some h
    exact .inr ⟨rfl, .inl ⟨a, rest, hi⟩⟩
  | hostWrite w rest _ ht => subst ht; exact .inr ⟨rfl, .inr ⟨rfl, rfl⟩⟩

end Sys2Proof.Machine
end

section
/-!
PROOFS. The operations performed by themselves on the target encoder or bank: the digit out of range and the stored bit
order (R102, R104, R106), and BANK_UPDATE as one closed form (`execBankUpdate_target`), which reads at its own instant, at
most once, and writes no bank (R51 to R53, R62, R134).
-/

namespace Sys2Proof.Machine

/-! ### The target encoder -/

theorem patternOf_outside {d : Int} (t : DigitTable) (hd : d < 0 ∨ 10 ≤ d) : patternOf t d = none := by
  rw [patternOf]
  split
  · rfl
  · exact Vector.getElem?_eq_none (show (10 : Nat) ≤ d.toNat by omega)

/-- Settles O11: a digit outside the table has no pattern, so the fault is raised at the start of the command. -/
theorem encUpdateBadDigitFaults : Obligations.EncUpdateBadDigitFaults := by
  unfold Obligations.EncUpdateBadDigitFaults
  intro s B E d ho hb he hd
  simp only [exec, execEncUpdate, gate_open s ho, onEncoder_target hb he, encUpdate, patternOf_outside E.table hd,
    map_raised, conclude]
  rfl

/-- Settles O13: both operations act on the one encoder at the target's place. -/
theorem encBitOrderIsStoredAndRead : Obligations.EncBitOrderIsStoredAndRead := by
  unfold Obligations.EncBitOrderIsStoredAndRead
  intro s pre post B front back E bo ho hR henc ht
  have hbank : s.target.bank = pre.length := by rw [ht]
  have hpos : s.target.position = front.length := by rw [ht]
  have hb : s.targetBank = some B := targetBank_split hR hbank
  have he : B.enc[s.target.position]? = some E := by rw [henc, hpos]; simp
  have hset : B.enc.set s.target.position (E.setBitOrder bo) = front ++ E.setBitOrder bo :: back := by
    rw [henc, hpos]; simp
  refine ⟨?_, ?_⟩
  · simp only [exec, execEncSetBitOrder, gate_open s ho, onEncoder_target hb he, conclude, finish_setTarget hR hbank,
      hset]
    rfl
  · simp only [exec, execEncGetBitOrder, gate_open s ho, onEncoder_target hb he, conclude]
    rfl

/-! ### A bank update that reads, and one that does not (R52) -/

section
variable {s : State} {B : Bank}

theorem readsSource_iff : B.readsSource = true ↔ B.enc ≠ [] ∧ B.enabled = true ∧ ∃ h, B.source = some h := by
  simp [Bank.readsSource, and_assoc, Option.isSome_iff_exists]

theorem not_readsSource_iff : B.readsSource = false ↔ B.enc.length = 0 ∨ B.enabled = false ∨ B.source = none := by
  simp [Bank.readsSource, or_iff_not_imp_left]

theorem afterRead_of_reads (h : B.readsSource = true) : afterRead s B = landWrites s := by
  rw [afterRead, if_neg]
  rw [← not_readsSource_iff, h]
  exact Bool.noConfusion

theorem afterRead_of_notReads (h : B.readsSource = false) : afterRead s B = s := by
  rw [afterRead, if_pos (not_readsSource_iff.1 h)]

theorem bankEffect_of_notReads (h : B.readsSource = false) : bankEffect s B = bankOutcome s.values B := by
  rw [bankEffect, bankOutcome]
  obtain h0 | h1 | h2 := not_readsSource_iff.1 h
  · rw [if_pos h0, if_pos h0]
  · rw [if_pos h1, if_pos h1]
  · rw [h2]

/-- A read lands the first entry of the host's interference and uses it up (R62). -/
theorem landWrites_cons {f : Interference} {rest : List Interference} (h : s.interference = f :: rest) :
    landWrites s = { s with values := s.values.applyAll f.writes, interference := rest } := by
  rw [landWrites, h]

/-- What a read gives once the first entry has landed: the value drawn, if there is one, else the variable's (R58). -/
theorem readNow_cons {f : Interference} {rest : List Interference} (h : s.interference = f :: rest) (a : Handle) :
    readNow s a = ((s.values.applyAll f.writes).read a).map fun v => f.torn.getD v := by
  rw [readNow, landWrites_cons h, tornDraw, h]

theorem landWrites_interference : (landWrites s).interference = s.interference.drop 1 := by
  cases h : s.interference with
  | nil => rw [landWrites_quiet s h, h, List.drop_nil]
  | cons f rest => rw [landWrites_cons h]; rfl

theorem afterRead_interference :
    (afterRead s B).interference = s.interference.drop (if B.readsSource then 1 else 0) := by
  cases h : B.readsSource with
  | false => rw [afterRead_of_notReads h]; rfl
  | true => rw [afterRead_of_reads h, landWrites_interference]; rfl

end

/-! ### The state a BANK_UPDATE ends in -/

/-- The state a BANK_UPDATE of outcome `o` ends in, `u` being the state once it has read, `j` the traversal position. -/
def bankConcluded (j : Nat) (o : BankOutcome) (u : State) : State :=
  match o with
  | .emits ps st => finish (.status st) (emitAll (byteEvents j 0 ps) u)
  | .faults k => raiseFault k 0x90#8 u

/-- Say once what BANK_UPDATE does on its target bank, whatever the host does meanwhile (R122). -/
theorem execBankUpdate_target {s : State} {B : Bank} (ho : s.isOpen) (hb : s.targetBank = some B) :
    exec .bankUpdate s =
      .next (bankConcluded (traversalOf s s.target.bank) (bankEffect s B) (afterRead s B)) := by
  simp only [exec, execBankUpdate, gate_open s ho, onBank_target hb, bankUpdate_eq]
  cases bankEffect s B <;> rfl

theorem execBankUpdate_next {s t : State} (h : exec .bankUpdate s = .next t) :
    ∃ B, s.isOpen ∧ s.targetBank = some B ∧
      t = bankConcluded (traversalOf s s.target.bank) (bankEffect s B) (afterRead s B) := by
  have ho : s.isOpen := (exec_next h).opened
  have h' := h
  simp only [exec, execBankUpdate] at h'
  obtain ⟨B, hb, _⟩ := onBank_next (gate_next h').2
  rw [execBankUpdate_target ho hb, Host.Outcome.next.injEq] at h
  exact ⟨B, ho, hb, h.symm⟩

section
variable (j : Nat) (o : BankOutcome) (u : State)

theorem bankConcluded_registry : (bankConcluded j o u).registry = u.registry := by
  cases o <;> simp [bankConcluded]

theorem bankConcluded_interference : (bankConcluded j o u).interference = u.interference := by
  cases o <;> simp [bankConcluded]

/-- The end of a bank update neither reads nor writes what the host's variables and its interference are. -/
theorem bankConcluded_host (m : Memory) (fs : List Interference) :
    bankConcluded j o { u with values := m, interference := fs } =
      { bankConcluded j o u with values := m, interference := fs } := by
  cases o with
  | emits ps st => simp only [bankConcluded, emitAll_bytes, finish]
  | faults k => rfl

end

/-- Settles O17: while the host is quiet the read gives what the variable holds, and its outcome is the fault. -/
theorem bankUpdateReadFaults : Obligations.BankUpdateReadFaults := by
  unfold Obligations.BankUpdateReadFaults
  intro s B h ho hq hb he hd hs
  rw [execBankUpdate_target ho hb, afterRead_quiet s hq, bankEffect_bound he hd hs, readNow_quiet s hq]
  refine ⟨fun hr => ?_, fun V hr hV => ?_⟩
  · rw [hr]
    rfl
  · rw [hr, valueOutcome, if_pos hV]
    rfl

section
variable {s : State} {B : Bank} {h : Handle}

/-- A bank update that reads takes up the first entry of the interference; what it emits is known from what its read
gives (R51, R62). -/
theorem execBankUpdate_reading {f : Interference} {rest : List Interference} (ho : s.isOpen)
    (hb : s.targetBank = some B) (he : B.enc ≠ []) (hd : B.enabled = true) (hs : B.source = some h) (hi : s.interference = f :: rest) :
    exec .bankUpdate s =
      .next { bankConcluded (traversalOf s s.target.bank) (valueOutcome B (readNow s h)) s with
        values := s.values.applyAll f.writes, interference := rest } := by
  have hreads : B.readsSource = true := readsSource_iff.2 ⟨he, hd, h, hs⟩
  rw [execBankUpdate_target ho hb, bankEffect_bound he hd hs, afterRead_of_reads hreads, landWrites_cons hi,
    bankConcluded_host]

/-- On values `m` to which nothing more lands the read gives what the variable holds in `m` (R51). -/
theorem execBankUpdate_settled (m : Memory) (ho : s.isOpen) (hb : s.targetBank = some B) (he : B.enc ≠ [])
    (hd : B.enabled = true) (hs : B.source = some h) :
    exec .bankUpdate { s with values := m, interference := [] } =
      .next { bankConcluded (traversalOf s s.target.bank) (valueOutcome B (m.read h)) s with
        values := m, interference := [] } := by
  have hq : ({ s with values := m, interference := [] } : State).hostQuiet := rfl
  rw [execBankUpdate_target (s := { s with values := m, interference := [] }) ho hb, bankEffect_bound he hd hs,
    readNow_quiet _ hq, afterRead_quiet _ hq, bankConcluded_host]
  rfl

end

/-- Settles O18: without an overlapping write the read gives the variable's value, and with one the value drawn, which is
what the variable set to it would give. -/
theorem bankReadsAtItsInstant : Obligations.BankReadsAtItsInstant := by
  unfold Obligations.BankReadsAtItsInstant
  intro s B h f rest ho hb he hd hs hi
  refine ⟨fun htorn => ⟨_, execBankUpdate_settled _ ho hb he hd hs, ?_⟩,
    fun x v htorn hv => ⟨_, execBankUpdate_settled _ ho hb he hd hs, ?_⟩⟩
  · have hread : readNow s h = (s.values.applyAll f.writes).read h := by
      rw [readNow_cons hi, htorn]
      exact Option.map_id_apply
    rw [execBankUpdate_reading ho hb he hd hs hi, hread]
  · have hread : readNow s h = some x := by
      rw [readNow_cons hi, htorn, hv]
      rfl
    rw [execBankUpdate_reading ho hb he hd hs hi, hread, Memory.read_write_same]

theorem op_eq_updateAll_iff {i : Instr} : i.op = .updateAll ↔ i = .updateAll := by
  cases i <;> simp [Instr.op]

theorem op_eq_bankUpdate_iff {i : Instr} : i.op = .bankUpdate ↔ i = .bankUpdate := by
  cases i <;> simp [Instr.op]

/-- Settles O19: only two rows read, and a bank update uses up an entry of the interference exactly when it reads. -/
theorem onlyBankUpdatesRead : Obligations.OnlyBankUpdatesRead := by
  unfold Obligations.OnlyBankUpdatesRead
  intro i s t h
  refine ⟨fun hu hb => ?_, ?_⟩
  · obtain ⟨_, m, hm, hends⟩ := exec_next h
    have hunread := hm.unread (mt op_eq_updateAll_iff.1 hu) (mt op_eq_bankUpdate_iff.1 hb)
    obtain ⟨r, R, _, rfl⟩ | ⟨k, _, _, rfl⟩ := hends <;> exact hunread
  · rintro rfl B hB
    obtain ⟨B', _, hB', rfl⟩ := execBankUpdate_next h
    cases hB.symm.trans hB'
    rw [bankConcluded_interference, afterRead_interference]

/-- The record a bank update that emits leaves: what a second one looks up is as it was, and its phases are on the
trace (R134). -/
theorem bankConcluded_emits (j : Nat) (ps : List Byte) (st : Status) (u : State) :
    ∃ t, bankConcluded j (.emits ps st) u = t ∧ t.trace = u.trace ++ streamPhases ps ∧ t.result = .status st ∧
      t.fault = u.fault ∧ t.refused = u.refused ∧ t.targetBank = u.targetBank ∧ t.values = u.values ∧
      t.interference = u.interference := by
  rw [bankConcluded, finish_bytes]
  exact ⟨_, rfl, rfl, rfl, rfl, rfl, rfl, rfl, rfl⟩

/-- Settles O20: the outcome depends on the variables alone, which are as they were, so the second update has it too. -/
theorem bankUpdateIsProjection : Obligations.BankUpdateIsProjection := by
  unfold Obligations.BankUpdateIsProjection
  intro s t h
  obtain ⟨B, ⟨hfault, hrefused⟩, hb, rfl⟩ := execBankUpdate_next h
  refine ⟨by rw [bankConcluded_registry, (afterRead_reaches s B).registry], fun hq hf => ?_⟩
  rw [afterRead_quiet s hq, bankEffect_quiet s hq] at *
  cases hout : bankOutcome s.values B with
  | faults k => rw [hout] at hf; cases hf
  | emits ps st =>
    obtain ⟨t, ht, htrace, hresult, hfault', hrefused', htarget, hvalues, hquiet⟩ :=
      bankConcluded_emits (traversalOf s s.target.bank) ps st s
    rw [ht]
    have ho : t.isOpen := ⟨hfault'.trans hfault, hrefused'.trans hrefused⟩
    have htq : t.hostQuiet := hquiet.trans hq
    obtain ⟨u, hu, hutrace, huresult, _⟩ := bankConcluded_emits (traversalOf t t.target.bank) ps st t
    refine ⟨u, streamPhases ps, ?_, htrace, hutrace, huresult.trans hresult.symm⟩
    rw [execBankUpdate_target ho (htarget.trans hb), afterRead_quiet t htq, bankEffect_quiet t htq, hvalues, hout, hu]

end Sys2Proof.Machine
end

section
/-!
PROOFS. The three commands that make a bank (R152, R155, R158): the checks they share, one rule for each answer, and the
bank as it is created (R120).
-/

namespace Sys2Proof.Machine

/-- What ADD_BANK and INSERT_BANK share: the checks, then the new bank put into the registry by `place` (R152, R155). -/
def placeNew (id : Id) (n : Nat) (ref : Option Handle) (table : Option (List Byte))
    (place : Bank → List Bank → List Bank) (s : State) : Done Result :=
  (checkedTable n table s).andThen fun T s => placeBank (newBank id n ref T) (place (newBank id n ref T)) s

section
variable {s : State} {id : Id} {n : Nat} {ref : Option Handle} {table : Option (List Byte)}

section
variable (op : Byte) (place : Bank → List Bank → List Bank)

theorem placeNew_badTable (ht : ¬ tableLegal table) :
    conclude op (placeNew id n ref table place s) = .next (s.faulted .badTable op) := by
  rw [placeNew, checkedTable_bad ht]
  rfl

theorem placeNew_tooLong (ht : tableLegal table) (hn : ¬ positionsLegal s.params n) :
    conclude op (placeNew id n ref table place s) = .next (s.faulted .capacity op) := by
  rw [placeNew, checkedTable_capacity ht hn]
  rfl

theorem placeNew_present (ht : tableLegal table) (hn : positionsLegal s.params n) (hid : idPresent s.registry id) :
    conclude op (placeNew id n ref table place s) = .next s.untouched := by
  obtain ⟨T, _, hT⟩ := checkedTable_good (s := s) ht hn
  rw [placeNew, hT, andThen_returned, placeBank_present (B := newBank id n ref T) hid]
  rfl

theorem placeNew_full (ht : tableLegal table) (hn : positionsLegal s.params n) (hid : ¬ idPresent s.registry id)
    (hroom : ¬ roomFor s.params s.registry) :
    conclude op (placeNew id n ref table place s) = .next (s.faulted .capacity op) := by
  obtain ⟨T, _, hT⟩ := checkedTable_good (s := s) ht hn
  rw [placeNew, hT, andThen_returned, placeBank_full (B := newBank id n ref T) hid hroom]
  rfl

theorem placeNew_placed (ht : tableLegal table) (hn : positionsLegal s.params n) (hid : ¬ idPresent s.registry id)
    (hroom : roomFor s.params s.registry) :
    ∃ T, tableChosen s.cfg T table ∧ conclude op (placeNew id n ref table place s) =
      .next (s.withRegistry (place (newBank id n ref T) s.registry)) := by
  obtain ⟨T, hchosen, hT⟩ := checkedTable_good (s := s) ht hn
  refine ⟨T, hchosen, ?_⟩
  rw [placeNew, hT, andThen_returned, placeBank_placed (B := newBank id n ref T) hid hroom]
  rfl

end

theorem insertAt_split {α : Type} (pre post : List α) (x : α) :
    insertAt (pre ++ post) pre.length x = pre ++ x :: post := by
  simp [insertAt]

theorem execAddBank_open (ho : s.isOpen) :
    exec (.addBank id n ref table) s = conclude 0x01#8 (placeNew id n ref table (fun B R => R ++ [B]) s) := by
  simp only [exec, execAddBank, gate_open s ho]
  rfl

theorem execInsertBank_outside {index : Nat} (ho : s.isOpen) (hi : s.registry.length < index) :
    exec (.insertBank id n index ref table) s = .next (s.faulted .indexError 0x02#8) := by
  simp only [exec, execInsertBank, gate_open s ho, insertBank, if_pos hi]
  rfl

theorem execInsertBank_within {index : Nat} (ho : s.isOpen) (hi : index ≤ s.registry.length) :
    exec (.insertBank id n index ref table) s =
      conclude 0x02#8 (placeNew id n ref table (fun B R => insertAt R index B) s) := by
  simp only [exec, execInsertBank, gate_open s ho, insertBank, if_neg (Nat.not_lt.2 hi)]
  rfl

theorem execReplaceBank_open (ho : s.isOpen) :
    exec (.replaceBank id n ref table) s = conclude 0x03#8 (replaceBank id n ref table s) := by
  simp only [exec, execReplaceBank, gate_open s ho]
  rfl

end

/-- Settles O22: ADD_BANK places the new bank at the end of the registry. -/
theorem addBankAppends : Obligations.AddBankAppends := by
  unfold Obligations.AddBankAppends
  intro s id n ref table ho
  rw [execAddBank_open ho]
  exact ⟨placeNew_badTable _ _, placeNew_tooLong _ _, placeNew_present _ _, placeNew_full _ _, placeNew_placed _ _⟩

/-- Settles O23: the index is looked at first, and within the registry INSERT_BANK places the new bank at it. -/
theorem insertBankInserts : Obligations.InsertBankInserts := by
  unfold Obligations.InsertBankInserts
  intro s id n index ref table ho
  refine ⟨execInsertBank_outside ho, fun hi => ?_⟩
  rw [execInsertBank_within ho hi]
  refine ⟨placeNew_badTable _ _, placeNew_tooLong _ _, placeNew_present _ _, placeNew_full _ _,
    fun ht hn hid hroom pre post hR hlen => ?_⟩
  obtain ⟨T, hchosen, hplaced⟩ := placeNew_placed (ref := ref) 0x02#8 (fun B R => insertAt R index B) ht hn hid hroom
  refine ⟨T, hchosen, ?_⟩
  rw [hplaced, hR, ← hlen, insertAt_split]
  rfl

/-- Settles O24: after the checks the first match is replaced by the new bank, as an edit that forgets the old one. -/
theorem replaceBankSubstitutes : Obligations.ReplaceBankSubstitutes := by
  unfold Obligations.ReplaceBankSubstitutes
  intro s id n ref table ho
  rw [execReplaceBank_open ho]
  refine ⟨fun ht => ?_, fun ht hn => ?_, fun ht hn hid => ?_, fun ht hn pre post B hR hid hf => ?_⟩
  · rw [replaceBank, checkedTable_bad ht]
    rfl
  · rw [replaceBank, checkedTable_capacity ht hn]
    rfl
  · obtain ⟨T, _, hT⟩ := checkedTable_good (s := s) ht hn
    rw [replaceBank, hT, andThen_returned, onFirstMatch_absent _ hid]
    rfl
  · subst hid
    obtain ⟨T, hchosen, hT⟩ := checkedTable_good (s := s) ht hn
    refine ⟨T, hchosen, ?_⟩
    rw [replaceBank, hT, andThen_returned, onFirstMatch_split _ hR hf]
    rfl

end Sys2Proof.Machine
end

section
/-!
PROOFS. The rest of UPDATE_ALL: what its fault leaves (R195, R199), what each bank reads at its own turn (R62, R169), what
the chain shows afterwards (R212), and how its cursor advances (R38).
-/

namespace Sys2Proof.Machine

/-! ### A bank faults -/

/-- The whole state an UPDATE_ALL broken off by a fault ends in while the host is quiet (R195, R199). -/
theorem brokenOff_quiet {s : State} (hq : s.hostQuiet) (pre : List BankOutcome) (k : FaultKind) :
    brokenOff s pre k =
      { s with
        fault := some { kind := k, op := 0x09#8 }
        trace := s.trace ++ [.latch s.cfg.latchActive] ++ streamPhases (pre.flatMap BankOutcome.bytes)
        pins := { pinsWith (pre.flatMap BankOutcome.bytes) s.pins with latch := some s.cfg.latchActive }
        chain := { sh := stagesAfter (pre.flatMap BankOutcome.bytes) s.chain.sh, q := s.chain.q }
        cursor := .idle
        cursorLog := s.cursorLog ++ (.latchOpen :: (bankEvents 0 pre).map Prod.fst)
        result := .nothing } := by
  rw [brokenOff, afterReads_quiet s hq, emitAll_bankEvents, openLatch_record]
  simp only [raiseFault, pinsWith_latch, List.append_assoc, List.singleton_append]

/-- Settles O33: the outcomes before the first fault are emitted in the bracket, which the fault leaves open. -/
theorem updateAllFaultLeavesBracketOpen : Obligations.UpdateAllFaultLeavesBracketOpen := by
  unfold Obligations.UpdateAllFaultLeavesBracketOpen
  intro s pre post k ho hq hout hpre
  have he : effects s s.registry.reverse = pre ++ .faults k :: post := (effects_quiet s hq _).trans hout
  exact ⟨_, by rw [execUpdateAll_faults ho he hpre, brokenOff_quiet hq]⟩

/-! ### Each bank at its turn -/

section
variable {s : State} {B : Bank}

/-- A bank that reads, an entry of the interference being left, has the outcome drawn on the values landed (R58, R62). -/
theorem bankEffect_drawn {f : Interference} {rest : List Interference} (hr : B.readsSource = true)
    (hi : s.interference = f :: rest) : bankEffect s B = drawnOutcome (s.values.applyAll f.writes) f.torn B := by
  obtain ⟨he, hd, h, hs⟩ := readsSource_iff.1 hr
  rw [bankEffect_bound he hd hs, readNow_cons hi, drawnOutcome, if_pos hr, hs]

end

section
variable (m : Memory) {fs : List Interference} {B : Bank} (Bs : List Bank)

theorem outcomesInTurn_notReads (hr : B.readsSource = false) :
    outcomesInTurn m fs (B :: Bs) = bankOutcome m B :: outcomesInTurn m fs Bs := by
  simp only [outcomesInTurn, hr]

theorem outcomesInTurn_nil : outcomesInTurn m [] (B :: Bs) = bankOutcome m B :: outcomesInTurn m [] Bs := by
  cases hr : B.readsSource <;> simp only [outcomesInTurn, hr]

theorem outcomesInTurn_reads (f : Interference) (hr : B.readsSource = true) :
    outcomesInTurn m (f :: fs) (B :: Bs) =
      drawnOutcome (m.applyAll f.writes) f.torn B :: outcomesInTurn (m.applyAll f.writes) fs Bs := by
  simp only [outcomesInTurn, hr]

end

/-- The outcomes in turn are those of the machine's own loop, read by read (R62, R169, R229). -/
theorem outcomesInTurn_eq_effects (Bs : List Bank) (s : State) :
    outcomesInTurn s.values s.interference Bs = effects s Bs := by
  induction Bs generalizing s with
  | nil => rfl
  | cons B Bs ih =>
    rw [effects, ← ih]
    cases hi : s.interference with
    | nil => rw [outcomesInTurn_nil, bankEffect_quiet s hi, afterRead_quiet s hi, hi]
    | cons f rest =>
      cases hr : B.readsSource with
      | false => rw [outcomesInTurn_notReads _ _ hr, bankEffect_of_notReads hr, afterRead_of_notReads hr, hi]
      | true => rw [outcomesInTurn_reads _ _ _ hr, bankEffect_drawn hr hi, afterRead_of_reads hr, landWrites_cons hi]

theorem updated_registry (s : State) (os : List BankOutcome) : (updated s os).registry = s.registry := by
  simp [updated, closeLatch, openLatch, (afterReads_reaches s _).registry]

/-- Settles O34: the outcomes in turn are the loop's, so none faults there and their bytes are those emitted. -/
theorem updateAllReadsEachBankAtItsTurn : Obligations.UpdateAllReadsEachBankAtItsTurn := by
  unfold Obligations.UpdateAllReadsEachBankAtItsTurn
  intro s ho hn
  rw [outcomesInTurn_eq_effects] at hn ⊢
  exact ⟨_, execUpdateAll_returns ho hn, (updated_fault s _).trans ho.1, updated_registry s _, updated_trace s _⟩

/-! ### What the chain shows -/

/-- On a chain the bytes fill, register `r` shows the byte `r`-th from the end (R209, R212). -/
theorem register_of_stagesAfter {ps : List Byte} {sh : List Bool} (hlen : sh.length = 8 * ps.length) {r : Nat}
    {p : Byte} (hp : ps.reverse[r]? = some p) {c : Chain} (hc : c.q = stagesAfter ps sh) : c.register r = some p.toNat := by
  refine register_eq fun k hk => ?_
  rw [hc, stagesAfter_full ps sh hlen, stageBits_get hp hk]

/-- Settles O37: the chain's outputs are the stages after the bytes, which fill them. -/
theorem chainShowsBytesNearestLast : Obligations.ChainShowsBytesNearestLast := by
  unfold Obligations.ChainShowsBytesNearestLast
  intro s ho hq hn hlen
  obtain ⟨r, log, _, hexec⟩ := updateAllEmitsLatchedStream s ho hq hn
  exact ⟨_, hexec, fun r p hp => register_of_stagesAfter hlen hp rfl⟩

/-! ### The cursor -/

section
variable {s : State}

/-- A cursor on the outcomes of the banks, or on some first ones of them, is on a bank, a position and a bit (R38). -/
theorem bankEvents_cursor_bounds {os : List BankOutcome} (hos : os <+: effects s s.registry.reverse) {j i k : Nat}
    {ph : CellPhase} (h : Cursor.cell j i k ph ∈ (bankEvents 0 os).map Prod.fst) :
    k ≤ 7 ∧ ∃ B, s.registry.reverse[j]? = some B ∧ i < B.enc.length := by
  obtain ⟨j', i', k', ph', o, hk, ho, hi, hc⟩ := banks_mem h
  rw [Nat.zero_add] at hc
  cases hc
  obtain ⟨rest, hrest⟩ := hos
  have hget : (effects s s.registry.reverse)[j]? = some o := by
    rw [← hrest, List.getElem?_append_left (List.getElem?_eq_some_iff.1 ho).1, ho]
  obtain ⟨B, hB, hlen⟩ := effects_get hget
  exact ⟨hk, B, hB, Nat.lt_of_lt_of_le hi hlen⟩

/-- The cursors of banks come after the opening of the bracket (R38). -/
theorem latchOpen_before_bankEvents {os : List BankOutcome} :
    ∀ c ∈ (bankEvents 0 os).map Prod.fst, Cursor.before .latchOpen c := by
  intro c hc
  obtain ⟨_, _, _, _, _, _, _, _, rfl⟩ := banks_mem hc
  trivial

/-- The cursors of banks come before the closing of the bracket (R38). -/
theorem bankEvents_before_latchClose {os : List BankOutcome} :
    ∀ c ∈ (bankEvents 0 os).map Prod.fst, Cursor.before c .latchClose := by
  intro c hc
  obtain ⟨_, _, _, _, _, _, _, _, rfl⟩ := banks_mem hc
  trivial

/-- The cursors from the opening of the bracket on advance (R38). -/
theorem openCursors_ordered (os : List BankOutcome) :
    (Cursor.latchOpen :: (bankEvents 0 os).map Prod.fst).Pairwise Cursor.before :=
  List.pairwise_cons.2 ⟨latchOpen_before_bankEvents, banks_ordered 0 os⟩

/-- The cursors of a whole UPDATE_ALL advance (R38). -/
theorem updateCursors_ordered (os : List BankOutcome) : (updateCursors os).Pairwise Cursor.before := by
  refine List.pairwise_append.2 ⟨openCursors_ordered os, List.pairwise_singleton _ _, ?_⟩
  rintro c hc _ hd
  obtain rfl := List.mem_singleton.1 hd
  obtain rfl | hc := List.mem_cons.1 hc
  · trivial
  · exact bankEvents_before_latchClose c hc

end

/-- Settles O38: with a fault or without one the cursors recorded are those of the banks' outcomes in turn. -/
theorem cursorOnlyAdvances : Obligations.CursorOnlyAdvances := by
  unfold Obligations.CursorOnlyAdvances
  intro s t h
  obtain ⟨_, ⟨_, rfl⟩ | ⟨pre, k, post, he, _, rfl⟩⟩ := execUpdateAll_next h
  · refine ⟨rfl, _, updated_cursorLog s _, updateCursors_ordered _, fun j i k ph hc => ?_⟩
    exact bankEvents_cursor_bounds (List.prefix_refl _) (by simpa using hc)
  · refine ⟨rfl, _, brokenOff_cursorLog s pre k, openCursors_ordered pre, fun j i k ph hc => ?_⟩
    exact bankEvents_cursor_bounds ⟨_, he.symm⟩ (by simpa using hc)

end Sys2Proof.Machine
end

section
/-!
PROOFS. Faults over all instructions (R33, R193, R195): an instruction that faults records its own code, and leaves the
state it started from but for UPDATE_ALL's phases and the host's own writes.
-/

namespace Sys2Proof.Machine

/-- An instruction that ends with a fault set has raised it (R33): the gate was open, so none was set before. -/
theorem exec_fault {i : Instr} {s t : State} (h : exec i s = .next t) (hf : t.fault ≠ none) :
    ∃ m, Moved i s m ∧ endsInFault i s m t := by
  obtain ⟨⟨hnone, _⟩, m, hm, ⟨r, R, _, rfl⟩ | hfault⟩ := exec_next h
  · exact absurd (hm.reaches.fault.trans hnone) hf
  · exact ⟨m, hm, hfault⟩

/-- Settles O39: the table of R193 is `mayRaise`, and the code recorded is the instruction's own. -/
theorem faultNamesItsCommand : Obligations.FaultNamesItsCommand := by
  unfold Obligations.FaultNamesItsCommand
  intro i s t f h hf
  obtain ⟨m, _, k, hraise, _, rfl⟩ := exec_fault h (by rw [hf]; exact Option.some_ne_none f)
  rw [raiseFault_fault, Option.some.injEq] at hf
  subst hf
  cases k <;> simpa [mayRaise] using hraise

/-- Settles O40: a fault is set on the state reached, which but for UPDATE_ALL is the state at the start or the same with
the host's writes landed. -/
theorem faultLeavesRegistry : Obligations.FaultLeavesRegistry := by
  unfold Obligations.FaultLeavesRegistry
  intro i s t h hf
  obtain ⟨m, hm, k, _, hstill, rfl⟩ := exec_fault h hf
  refine ⟨hm.reaches.registry, hm.reaches.cfg, hm.reaches.refused, rfl, fun hi => ?_⟩
  obtain rfl | rfl := hstill (mt op_eq_updateAll_iff.1 hi)
  · exact ⟨rfl, rfl, rfl⟩
  · simp

end Sys2Proof.Machine
end

section
/-!
PROOFS. The invariant of the block as the host drives it (R22, R29, R32, R33, R35, R36, R38): it holds after reset, each
shared operation keeps it, and so does every step. The same for the types of what comes of the host (R7, R51, R58).
-/

namespace Sys2Proof.Machine

/-! ### The shared operations keep the invariant -/

/-- Settles O44: nothing is held, driven or recorded after reset, and the default pins are distinct. -/
theorem resetMeetsInvariant : Obligations.ResetMeetsInvariant := by
  unfold Obligations.ResetMeetsInvariant
  exact {
    driven := by rintro _ ⟨⟩
    ids := List.nodup_nil
    uniform := by rintro _ ⟨⟩
    capacity := ⟨fun _ _ => Nat.zero_le _, fun _ _ => by rintro _ ⟨⟩⟩
    pins := rfl
    cursor := rfl
    steps := rfl
    distinct := by decide
    faultOp := by rintro _ ⟨⟩
    memory := List.Pairwise.nil }

theorem newBank_uniform (id : Id) (n : Nat) (ref : Option Handle) (T : DigitTable) : (newBank id n ref T).uniform := by
  have hE : ∀ E ∈ (newBank id n ref T).enc, E = { table := T, bitOrder := Config.defaultBitOrder } :=
    fun E h => List.eq_of_mem_replicate h
  exact ⟨fun E h => by rw [hE E h]; rfl, fun E h E' h' => by rw [hE E h, hE E' h']⟩

theorem setBitOrder_uniform {B : Bank} (bo : BitOrder) (h : B.uniform) : (B.setBitOrder bo).uniform := by
  refine ⟨fun F hF => ?_, fun F hF F' hF' => ?_⟩
  · obtain ⟨E, _, rfl⟩ := List.mem_map.1 hF
    rfl
  · obtain ⟨E, hE, rfl⟩ := List.mem_map.1 hF
    obtain ⟨E', hE', rfl⟩ := List.mem_map.1 hF'
    exact h.2 E hE E' hE'

section
variable {s m : State}

/-- A host command's edit of the registry keeps the banks uniform (R29). -/
theorem Edit.uniform {i : Instr} {R : List Bank} (hE : Edit s i R) (hi : ∀ bo, i ≠ .encSetBitOrder bo)
    (hs : ∀ B ∈ s.registry, B.uniform) : ∀ B ∈ R, B.uniform :=
  hE.all hi hs (fun id n ref T _ => newBank_uniform id n ref T) (fun _ bo h => setBitOrder_uniform bo h)
    (fun _ _ h => h) fun _ _ h => h

/-- A host command's edit of the registry keeps it within the capacities (R154). -/
theorem Edit.withinCapacity {i : Instr} {R : List Bank} (hE : Edit s i R) (hi : ∀ bo, i ≠ .encSetBitOrder bo)
    (hs : s.withinCapacity) : (setRegistry R s).withinCapacity := by
  refine ⟨hE.capacity hs.1, fun p hp => ?_⟩
  refine hE.all hi (hs.2 p hp) (fun id n ref T hn => ?_) (fun B bo h => ?_) (fun _ _ h => h) fun _ _ h => h
  · simpa [newBank, overPositions, show s.params.maxPositions = some p from hp] using hn
  · simpa [Bank.setBitOrder] using h

/-- A host command's edit of the registry keeps the invariant. -/
theorem State.Inv.setRegistry (hs : s.Inv) {i : Instr} {R : List Bank} (hE : Edit s i R)
    (hi : ∀ bo, i ≠ .encSetBitOrder bo) : (setRegistry R s).Inv where
  driven := hs.driven
  ids := hE.ids hs.ids
  uniform := hE.uniform hi hs.uniform
  capacity := hE.withinCapacity hi hs.capacity
  pins := hs.pins
  cursor := hs.cursor
  steps := hs.steps
  distinct := hs.distinct
  faultOp := hs.faultOp
  memory := hs.memory

/-- The states inside a command would meet the invariant, were the command to end there. -/
theorem State.Inv.finish (hs : s.Inv) (hm : Reaches s m) (r : Result) : (finish r m).Inv where
  driven := by rw [State.hostDriven, finish_inbox, hm.inbox]; exact hs.driven
  ids := by rw [State.idsUnique, finish_registry, hm.registry]; exact hs.ids
  uniform := by rw [finish_registry, hm.registry]; exact hs.uniform
  capacity := by rw [State.withinCapacity, finish_params, finish_registry, hm.params, hm.registry]; exact hs.capacity
  pins := hm.pins hs.pins
  cursor := rfl
  steps := by
    obtain ⟨es, htrace, hlog⟩ := hm.trace
    rw [finish_cursorLog, finish_trace, hlog, htrace, List.length_append, List.length_append, hs.steps, List.length_map,
      List.length_map]
  distinct := by rw [finish_cfg, hm.cfg]; exact hs.distinct
  faultOp := by rw [State.faultByHost, finish_fault, hm.fault]; exact hs.faultOp
  memory := hm.values_wf hs.memory

/-- A fault with a host command's code keeps the invariant (R33). -/
theorem State.Inv.raiseFault (hs : s.Inv) (hm : Reaches s m) (k : FaultKind) {op : Op} (hop : op.interface = .host) :
    (raiseFault k op.code m).Inv where
  __ := hs.finish hm .nothing
  faultOp := by
    intro f hf
    cases hf
    exact ⟨op, hop, rfl⟩

/-- Taking an input leaves only the host's inputs to come. -/
theorem State.Inv.takeInput (hs : s.Inv) {x : Input} {rest : List Input} (hi : s.inbox = x :: rest) :
    (takeInput rest s).Inv where
  __ := hs
  driven := fun y hy => hs.driven y (by rw [hi]; exact List.mem_cons_of_mem x hy)

theorem State.Inv.refuse (hs : s.Inv) : (refuse s).Inv where
  __ := hs

theorem State.Inv.landHostWrite (hs : s.Inv) (w : HostWrite) : (landHostWrite w s).Inv where
  __ := hs
  memory := Memory.apply_wf s.values w hs.memory

/-- A construction gives an empty block with distinct pins (R220, R221). -/
theorem State.Inv.construct (hs : s.Inv) {a : ConstructArgs} (h : construct a s = some m) : m.Inv := by
  obtain ⟨hdistinct, rfl⟩ := construct_some h
  exact {
    driven := hs.driven
    ids := List.nodup_nil
    uniform := by rintro _ ⟨⟩
    capacity := ⟨fun _ _ => Nat.zero_le _, fun _ _ => by rintro _ ⟨⟩⟩
    pins := rfl
    cursor := rfl
    steps := rfl
    distinct := hdistinct
    faultOp := by rintro _ ⟨⟩
    memory := hs.memory }

end

/-! ### Every step keeps it -/

/-- Pin events and landing writes do the same whatever the registry is. -/
theorem Reaches.setRegistry {s m : State} (hm : Reaches s m) (R : List Bank) :
    Reaches (setRegistry R s) (setRegistry R m) := by
  induction hm with
  | refl => exact .refl
  | emit c e _ ih => exact .emit c e ih
  | land _ ih =>
    rw [← (setRegistry_sim R).land rfl]
    exact .land ih

/-- A host command keeps the invariant, with a fault or without one. -/
theorem exec_keepsInv {i : Instr} {s t : State} (hs : s.Inv) (hi : i.interface = .host) (h : exec i s = .next t) :
    t.Inv := by
  have henc : ∀ bo, i ≠ .encSetBitOrder bo := by rintro bo rfl; cases hi
  obtain ⟨_, m, hm, ⟨r, R, hE, rfl⟩ | ⟨k, _, _, rfl⟩⟩ := exec_next h
  · exact (hs.setRegistry hE henc).finish (hm.reaches.setRegistry R) r
  · exact hs.raiseFault hm.reaches k hi

theorem performRecord_keepsInv {c : RawCommand} {s t : State} (hs : s.Inv) (h : performRecord .host c s = .next t) :
    t.Inv := by
  obtain ⟨_, rfl⟩ | ⟨i, hd, h⟩ := performRecord_next h
  · exact hs.refuse
  · obtain ⟨_, hhost, _⟩ := encodeOfDecodeGivesRecord _ _ _ _ hd
    exact exec_keepsInv hs hhost h

/-- Settles O45: whichever input the step takes, what it does with it keeps the invariant. -/
theorem stepKeepsInvariant : Obligations.StepKeepsInvariant := by
  unfold Obligations.StepKeepsInvariant
  intro s t hs h
  cases step_next h with
  | waits _ _ ht => rwa [ht]
  | command _ c rest hi h => exact performRecord_keepsInv (hs.takeInput hi) h
  | internal _ g c rest hi _ => exact absurd rfl (hs.driven _ (by rw [hi]; exact List.mem_cons_self) g c)
  | construct a rest hi h => exact (hs.takeInput hi).construct h
  | hostWrite w rest hi ht => rw [ht]; exact (hs.takeInput hi).landHostWrite w

/-! ### The types of what comes of the host (R7, R51, R58) -/

/-- The variables are of the host's types: their handles, and the values they hold (R7, R51). -/
def valuesTyped (p : Params) (m : Memory) : Prop := ∀ e ∈ m, p.isHandle e.1 = true ∧ inRange p e.2

section
variable {p : Params} {m : Memory}

theorem valuesTyped_apply (hm : valuesTyped p m) {w : HostWrite} (hw : w.typed p) : valuesTyped p (m.apply w) := by
  intro e he
  cases w with
  | set h v =>
    obtain rfl | he := Memory.mem_write he
    · exact hw h v rfl
    · exact hm e he
  | destroy h => exact hm e (Memory.mem_erase he)

theorem valuesTyped_applyAll {ws : List HostWrite} (hm : valuesTyped p m) (hws : ∀ w ∈ ws, w.typed p) :
    valuesTyped p (m.applyAll ws) := by
  induction ws generalizing m with
  | nil => exact hm
  | cons w ws ih =>
    obtain ⟨hw, hws⟩ := List.forall_mem_cons.1 hws
    exact ih (valuesTyped_apply hm hw) hws

end

section
variable {s m : State}

theorem State.HostTyped.landWrites (hs : s.HostTyped) : (landWrites s).HostTyped := by
  cases hi : s.interference with
  | nil => rwa [landWrites_quiet s hi]
  | cons f rest =>
    have hf : f ∈ s.interference := by rw [hi]; exact List.mem_cons_self
    have hrest : ∀ g ∈ rest, g ∈ s.interference := fun g hg => by rw [hi]; exact List.mem_cons_of_mem f hg
    rw [landWrites_cons hi]
    exact {
      banks := hs.banks
      values := valuesTyped_applyAll hs.values (hs.writes f hf)
      writes := fun g hg => hs.writes g (hrest g hg)
      draws := fun g hg => hs.draws g (hrest g hg)
      inbox := hs.inbox }

/-- Pin events and landing writes bring in nothing that is not of its type. -/
theorem Reaches.hostTyped (hm : Reaches s m) (hs : s.HostTyped) : m.HostTyped := by
  induction hm with
  | refl => exact hs
  | emit c e _ ih => exact { ih with }
  | land _ ih => exact ih.landWrites

theorem State.HostTyped.setRegistry (hs : s.HostTyped) {R : List Bank} (hR : ∀ B ∈ R, B.typed s.params) :
    (setRegistry R s).HostTyped where
  __ := hs
  banks := hR

theorem State.HostTyped.takeInput (hs : s.HostTyped) {x : Input} {rest : List Input} (hi : s.inbox = x :: rest) :
    (takeInput rest s).HostTyped where
  __ := hs
  inbox := fun w hw => hs.inbox w (by rw [hi]; exact List.mem_cons_of_mem x hw)

end

/-- An instruction of typed id and handle keeps the types, with a fault or without one. -/
theorem exec_keepsHostTyped {i : Instr} {s t : State} (hs : s.HostTyped) (hi : i.typed s.params = true)
    (h : exec i s = .next t) : t.HostTyped := by
  obtain ⟨_, m, hm, ⟨r, R, hE, rfl⟩ | ⟨k, _, _, rfl⟩⟩ := exec_next h
  · have hR : ∀ B ∈ R, B.typed m.params := by rw [hm.reaches.params]; exact hE.typed hi hs.banks
    exact { (hm.reaches.hostTyped hs).setRegistry hR with }
  · exact { hm.reaches.hostTyped hs with }

theorem performRecord_keepsHostTyped {f : Interface} {c : RawCommand} {s t : State} (hs : s.HostTyped)
    (h : performRecord f c s = .next t) : t.HostTyped := by
  obtain ⟨_, rfl⟩ | ⟨i, hd, h⟩ := performRecord_next h
  · exact { hs with }
  · exact exec_keepsHostTyped hs (decode_ok_iff.1 hd).2 h

/-- Settles O46: the decoder lets only typed instructions through, and a host write of the inbox is typed. -/
theorem stepKeepsHostTyped : Obligations.StepKeepsHostTyped := by
  unfold Obligations.StepKeepsHostTyped
  intro s t hs h
  cases step_next h with
  | waits _ _ ht => rwa [ht]
  | command _ c rest hi h => exact performRecord_keepsHostTyped (hs.takeInput hi) h
  | internal _ g c rest hi h =>
    have hg : (aimAt g (takeInput rest s)).HostTyped := { hs.takeInput hi with }
    exact performRecord_keepsHostTyped hg h
  | construct a rest hi h =>
    obtain ⟨_, rfl⟩ := construct_some h
    exact { hs.takeInput hi with banks := by rintro _ ⟨⟩ }
  | hostWrite w rest hi ht =>
    rw [ht]
    have hw : w.typed s.params := hs.inbox w (by rw [hi]; exact List.mem_cons_self)
    exact { hs.takeInput hi with values := valuesTyped_apply hs.values hw }

end Sys2Proof.Machine
end

section
/-!
PROOFS. What no instruction looks at, each as a relation between two runs that every shared operation keeps (`SimAll`): the
order of the pin writes of a SETUP (R72), and what pins, chain and traces hold (R36, R41). And the names of ids, handles
and pins, which are only compared (R7).
-/

namespace Sys2Proof.Machine

/-! ### The order of pin writes (R72) -/

/-- The state under another `SETUP_WRITE_ORDER`. -/
def State.withOrder (s : State) (o : SetupWriteOrder) : State :=
  { s with params := { s.params with setupWriteOrder := o } }

theorem emit_withOrder (c : Cursor) (e : Phase) (s : State) (o : SetupWriteOrder) :
    emit c e (s.withOrder o) = (emit c e s).withOrder o := by
  simp only [emit, State.withOrder, after_order_irrelevant o s.params.setupWriteOrder]

theorem landWrites_withOrder (s : State) (o : SetupWriteOrder) :
    landWrites (s.withOrder o) = (landWrites s).withOrder o := by
  cases h : s.interference with
  | nil => rw [landWrites_quiet s h, landWrites_quiet (s.withOrder o) h]
  | cons f rest => rw [landWrites_cons h, landWrites_cons (s := s.withOrder o) h]; rfl

/-- No shared operation looks at the order of the pin writes. -/
theorem withOrder_sim (o : SetupWriteOrder) : SimAll fun s u => u = s.withOrder o where
  opened := by rintro s _ rfl; exact ⟨rfl, rfl⟩
  cfg := by rintro s _ rfl; rfl
  limits := by rintro s _ rfl; exact ⟨rfl, rfl, rfl⟩
  target := by rintro s _ rfl; rfl
  host := by rintro s _ rfl; exact ⟨rfl, rfl⟩
  emit := by rintro s _ c e rfl; exact emit_withOrder c e s o
  land := by rintro s _ rfl; exact landWrites_withOrder s o
  finish := by rintro s _ x rfl; rfl
  raise := by rintro s _ k op rfl; rfl
  registry := by rintro s _ rfl; rfl
  set := by rintro s _ R rfl; rfl

/-- Settles O50: the second run answers the first one's next state under the other order. -/
theorem setupWriteOrderUnobservable : Obligations.SetupWriteOrderUnobservable := by
  unfold Obligations.SetupWriteOrderUnobservable
  intro i s t o h
  obtain ⟨_, hu, rfl⟩ := (withOrder_sim o).exec_sim i rfl t h
  exact hu

/-! ### Pins, chain and traces (R36, R41) -/

/-- The state with other pins, another chain and other traces. -/
def State.onWire (s : State) (p : Pins) (c : Chain) (tr : List Phase) (log : List Cursor) : State :=
  { s with pins := p, chain := c, trace := tr, cursorLog := log }

/-- `u` is a state of a run begun on the traces `tr` and `log`, `s` one of the run begun at `s₀`: both have the same phases
and cursors appended, and differ in pins, chain and traces alone. -/
def SameButWire (s₀ : State) (tr : List Phase) (log : List Cursor) (s u : State) : Prop :=
  ∃ (p : Pins) (c : Chain) (es : List Phase) (cs : List Cursor), s.trace = s₀.trace ++ es ∧
    s.cursorLog = s₀.cursorLog ++ cs ∧ u = s.onWire p c (tr ++ es) (log ++ cs)

/-- A phase on other pins, another chain and other traces changes each of them by its own rule. -/
theorem emit_onWire (a : Cursor) (e : Phase) (s : State) (p : Pins) (c : Chain) (tr : List Phase) (log : List Cursor) :
    emit a e (s.onWire p c tr log) =
      (emit a e s).onWire (p.after s.params.setupWriteOrder e) (c.observe s.cfg.latchActive p e) (tr ++ [e])
        (log ++ [a]) := rfl

theorem landWrites_onWire (s : State) (p : Pins) (c : Chain) (tr : List Phase) (log : List Cursor) :
    landWrites (s.onWire p c tr log) = (landWrites s).onWire p c tr log := by
  cases h : s.interference with
  | nil => rw [landWrites_quiet s h, landWrites_quiet (s.onWire p c tr log) h]
  | cons f rest => rw [landWrites_cons h, landWrites_cons (s := s.onWire p c tr log) h]; rfl

/-- No shared operation looks at pins, chain and traces: it appends to both traces alike. -/
theorem sameButWire_sim (s₀ : State) (tr : List Phase) (log : List Cursor) : SimAll (SameButWire s₀ tr log) where
  opened := by rintro s _ ⟨_, _, _, _, _, _, rfl⟩; exact ⟨rfl, rfl⟩
  cfg := by rintro s _ ⟨_, _, _, _, _, _, rfl⟩; rfl
  limits := by rintro s _ ⟨_, _, _, _, _, _, rfl⟩; exact ⟨rfl, rfl, rfl⟩
  target := by rintro s _ ⟨_, _, _, _, _, _, rfl⟩; rfl
  host := by rintro s _ ⟨_, _, _, _, _, _, rfl⟩; exact ⟨rfl, rfl⟩
  emit := by
    rintro s _ a e ⟨p, c, es, cs, htr, hlog, rfl⟩
    refine ⟨p.after s.params.setupWriteOrder e, c.observe s.cfg.latchActive p e, es ++ [e], cs ++ [a], ?_, ?_, ?_⟩
    · rw [emit_trace, htr, List.append_assoc]
    · rw [emit_cursorLog, hlog, List.append_assoc]
    · rw [emit_onWire, List.append_assoc, List.append_assoc]
  land := by
    rintro s _ ⟨p, c, es, cs, htr, hlog, rfl⟩
    exact ⟨p, c, es, cs, by rw [landWrites_trace, htr], by rw [landWrites_cursorLog, hlog], landWrites_onWire s p c _ _⟩
  finish := by rintro s _ x ⟨p, c, es, cs, htr, hlog, rfl⟩; exact ⟨p, c, es, cs, htr, hlog, rfl⟩
  raise := by rintro s _ k op ⟨p, c, es, cs, htr, hlog, rfl⟩; exact ⟨p, c, es, cs, htr, hlog, rfl⟩
  registry := by rintro s _ ⟨_, _, _, _, _, _, rfl⟩; rfl
  set := by rintro s _ R ⟨p, c, es, cs, htr, hlog, rfl⟩; exact ⟨p, c, es, cs, htr, hlog, rfl⟩

theorem sameButWire_start (s : State) (p : Pins) (c : Chain) (tr : List Phase) (log : List Cursor) :
    SameButWire s tr log s (s.onWire p c tr log) :=
  ⟨p, c, [], [], (List.append_nil _).symm, (List.append_nil _).symm, by rw [List.append_nil, List.append_nil]⟩

/-- Settles O51: the two runs start on traces of their own with nothing appended, and end with the same appended. -/
theorem pinsAndTraceAreNotRead : Obligations.PinsAndTraceAreNotRead := by
  unfold Obligations.PinsAndTraceAreNotRead
  intro i s t p c tr log h
  obtain ⟨u, hu, _, _, es, cs, htrace, hlog, rfl⟩ :=
    (sameButWire_sim s tr log).exec_sim i (sameButWire_start s p c tr log) t h
  exact ⟨_, es, cs, hu, htrace, rfl, hlog, rfl, rfl⟩

/-! ### The names (R7) -/

section
variable {ρ : Renaming} {s u : State}

theorem Renamed.takeInput (h : Renamed ρ s u) (rest : List Input) :
    Renamed ρ (takeInput rest s) (takeInput (rest.map ρ.input) u) := by
  obtain ⟨rfl, hw⟩ := h
  exact ⟨rfl, hw⟩

theorem Renamed.aimAt (h : Renamed ρ s u) (g : Target) : Renamed ρ (aimAt g s) (aimAt g u) := by
  obtain ⟨rfl, hw⟩ := h
  exact ⟨rfl, hw⟩

theorem Renamed.landHostWrite (h : Renamed ρ s u) (w : HostWrite) :
    landHostWrite (ρ.write w) u = ρ.state (landHostWrite w s) := by
  obtain ⟨rfl, hw⟩ := h
  simp only [Machine.landHostWrite, Renaming.state, ρ.values_apply s.values hw]

/-- A renamed record is refused alike, or performed as the renamed instruction. -/
theorem Renamed.performRecord (h : Renamed ρ s u) (hfits : ρ.fits s.params) (f : Interface) (c : RawCommand) :
    performRecord f (ρ.record c) u = ρ.outcome (performRecord f c s) := by
  have hp : u.params = ρ.params s.params := by rw [h.eq]; rfl
  have hd := ρ.decode_record hfits f c
  rw [← hp] at hd
  cases hc : decode s.params f c with
  | error e =>
    rw [hc] at hd
    rw [performRecord_error hc, performRecord_error (by rw [hd]; rfl), h.eq]
    rfl
  | ok i =>
    rw [hc] at hd
    rw [performRecord_ok hc, performRecord_ok (by rw [hd]; rfl)]
    exact exec_renamed i h

/-- Under other names a step does the same. -/
theorem step_renamed (h : Renamed ρ s u) (hfits : ρ.fits s.params) : step u = ρ.outcome (step s) := by
  have hinbox : u.inbox = s.inbox.map ρ.input := by rw [h.eq]; rfl
  rw [step, step, hinbox]
  cases s.inbox with
  | nil => exact h.gate (by rw [h.eq]; rfl)
  | cons x rest =>
    have hrest := h.takeInput rest
    cases x with
    | command c => exact h.gate (hrest.performRecord hfits .host c)
    | internal g c => exact h.gate ((hrest.aimAt g).performRecord hfits .block c)
    | construct a =>
      simp only [List.map_cons, Renaming.input, hrest.eq, construct_renamed]
      cases construct a (Machine.takeInput rest s) <;> rfl
    | hostWrite w => exact congrArg Host.Outcome.next (hrest.landHostWrite w)

end

/-- Settles O52: the decoder, every instruction and the step each do the same on the renamed state. -/
theorem namesAreOnlyCompared : Obligations.NamesAreOnlyCompared := by
  unfold Obligations.NamesAreOnlyCompared
  intro ρ s hfits hw
  exact ⟨ρ.decode_record hfits, fun i => exec_renamed i ⟨rfl, hw⟩, step_renamed ⟨rfl, hw⟩ hfits⟩

end Sys2Proof.Machine
end
